-- ==== Sys2Proof/Word.lean ====
section
/-! DEFINITION. Word types and the fixed sizes of 00_scope R9. -/

namespace Sys2Proof

/-- A data byte, `u8` (00_scope R12). -/
abbrev Byte := BitVec 8

/-- A 16-bit address or length, `u16` (00_scope R9, R12). -/
abbrev Addr := BitVec 16

/-- The index of an EEPROM cell, `a[14:0]` (20_memory R62). -/
abbrev CellIndex := BitVec 15

/-- `MAX_PAYLOAD`, the largest payload of any frame (00_scope R9). -/
abbrev maxPayload : Nat := 63

/-- `MEM_SIZE`, the bytes of the EEPROM (00_scope R9). -/
abbrev memSize : Nat := 32768

/-- `DUMP_CHUNKS`, the frames a complete dump emits (00_scope R9, 43_bulk R241). -/
abbrev dumpChunks : Nat := 521

/-- `RESET_SENTINEL`, decided 0x72 in both contexts (00_scope R10, 90_conflicts C5; log 22). -/
abbrev resetSentinel : Byte := 0x72

end Sys2Proof
end

