-- ==== Sys2Proof/Syntax.lean ====
section
/-! DEFINITION. The frames as syntax: one constructor per row of spec/opcode_table.json, and the contexts a
frame is read in (30_encoding R104). -/

namespace Sys2Proof

/-- The three contexts in which the block receives a frame (30_encoding R104). -/
inductive RxContext where
  | idle
  | ackWait
  | load
deriving DecidableEq, Repr

/-- Who reads a frame: the block, in one of its receive contexts, or the host (30_encoding R104, R105). -/
inductive FrameContext where
  | rx (c : RxContext)
  | tx
deriving DecidableEq, Repr

/-- One constructor per row of the opcode table. -/
inductive Instr where
  /-- `03 72 AH AL` (R98). -/
  | read (a : Addr)
  /-- `04 77 AH AL VV` (R99). -/
  | write (a : Addr) (v : Byte)
  /-- `01 64` (R100). -/
  | dump
  /-- `03 6C LH LL` (R101). -/
  | load (total : Addr)
  /-- `01 72` in idle context (R102). -/
  | reset
  /-- Every other legal frame in idle context (R103). -/
  | unknown (payload : List Byte)
  /-- A length byte 64..127 (R91). -/
  | illegalLen64 (n : Byte)
  /-- A length byte 128..255 (R91). -/
  | illegalLen128 (n : Byte)
  /-- `00` in ack-wait (R92, R189). -/
  | ack
  /-- `01 72` in ack-wait (R104, R189). -/
  | resetSentinel
  /-- Every other legal frame in ack-wait (R104, R189). -/
  | ackwaitUnexpected (payload : List Byte)
  /-- Every legal frame in LOAD context (R104, R244). -/
  | loadChunk (data : List Byte)
  /-- `01 v`, block to host (R105). -/
  | readReply (v : Byte)
  /-- `00`, block to host (R105, R186). -/
  | ackOut
  /-- `3F b0..b62`, block to host (R105). -/
  | dumpChunk (data : List Byte)
  /-- `08 b0..b7`, block to host (R105). -/
  | dumpLast (data : List Byte)
deriving DecidableEq, Repr

end Sys2Proof
end

