-- ==== Sys2Proof/WellFormed.lean ====
section
/-! DEFINITION. Which terms of Instr stand for a frame of their row: payload lengths, and for the catch-all rows
the frames the rows above them take (30_encoding R91, R97, R103, R104, R105). -/

namespace Sys2Proof

/-- The five (n, opcode) pairs of 30_encoding R97 that select a command. -/
def isCommandPayload (p : List Byte) : Bool :=
  (p.length == 3 && p.head? == some 0x72) || (p.length == 4 && p.head? == some 0x77) ||
  (p.length == 1 && p.head? == some 0x64) || (p.length == 3 && p.head? == some 0x6C) ||
  (p.length == 1 && p.head? == some 0x72)

/-- The check of one instruction: the payload is legal (R91) and the row is the one that takes the frame (R97, R104). -/
def Instr.wf : Instr → Bool
  | .read _ => true
  | .write _ _ => true
  | .dump => true
  | .load _ => true
  | .reset => true
  | .unknown p => p.length ≤ maxPayload && !isCommandPayload p
  | .illegalLen64 n => 64 ≤ n.toNat && n.toNat < 128
  | .illegalLen128 n => 128 ≤ n.toNat
  | .ack => true
  | .resetSentinel => true
  | .ackwaitUnexpected p => 1 ≤ p.length && p.length ≤ maxPayload && p != [Sys2Proof.resetSentinel]
  | .loadChunk d => d.length ≤ maxPayload
  | .readReply _ => true
  | .ackOut => true
  | .dumpChunk d => d.length == maxPayload
  | .dumpLast d => d.length == 8

/-- A well-formed instruction. -/
abbrev WellFormed (i : Instr) : Prop := i.wf = true

end Sys2Proof
end

