-- ==== Sys2Proof/Decode.lean ====
section
/-! DEFINITION. From wire bytes to instructions and back (30_encoding R90-R107): the classification of a legal
frame in its context, the total decoder of any bytes, the encoder, and the opcode table's word numbering. -/

namespace Sys2Proof

/-- `{hi, lo}`: two payload bytes, most significant first (20_memory R63, 30_encoding R94, R96). -/
def be16 (hi lo : Byte) : Addr := hi ++ lo

/-- The high byte of a big-endian field, `a[15:8]` (30_encoding R108). -/
def hiByte (a : Addr) : Byte := a.extractLsb' 8 8

/-- The low byte of a big-endian field, `a[7:0]` (30_encoding R108). -/
def loByte (a : Addr) : Byte := a.extractLsb' 0 8

/-- The command map of idle context: the pair (n, PAYLOAD[0]) selects (30_encoding R97, 42_commands R212). -/
def classifyIdle (p : List Byte) : Instr :=
  match p with
  | [op] => if op = 0x64 then .dump else if op = 0x72 then .reset else .unknown p
  | [op, x, y] => if op = 0x72 then .read (be16 x y) else if op = 0x6C then .load (be16 x y) else .unknown p
  | [op, x, y, v] => if op = 0x77 then .write (be16 x y) v else .unknown p
  | _ => .unknown p

/-- The classification of the reply frame in ack-wait (41_transport R188, R189). -/
def classifyAckWait (p : List Byte) : Instr :=
  match p with
  | [] => .ack
  | [b] => if b = resetSentinel then .resetSentinel else .ackwaitUnexpected p
  | _ => .ackwaitUnexpected p

/-- In LOAD context every legal frame is data (30_encoding R104, 43_bulk R248). -/
def classifyLoad (p : List Byte) : Instr := .loadChunk p

/-- The meaning of a legal frame's payload in the context that receives it (30_encoding R104). -/
def classify (c : RxContext) (p : List Byte) : Instr :=
  match c with
  | .idle => classifyIdle p
  | .ackWait => classifyAckWait p
  | .load => classifyLoad p

/-- The instruction of an illegal length byte, 64 ≤ n (30_encoding R91, 41_transport R184). -/
def classifyIllegal (n : Byte) : Instr :=
  if n.toNat < 128 then .illegalLen64 n else .illegalLen128 n

/-- Why some bytes are no frame of a context. -/
inductive DecodeError where
  /-- No length byte. -/
  | empty
  /-- Fewer payload bytes than declared. -/
  | truncated (declared present : Nat)
  /-- A frame the block never sends (30_encoding R105). -/
  | notSentByBlock (n : Nat)
deriving DecidableEq, Repr

/-- The frames the block sends, read by the host (30_encoding R105). -/
def classifyTx (p : List Byte) : Except DecodeError Instr :=
  if p.length = maxPayload then .ok (.dumpChunk p)
  else if p.length = 8 then .ok (.dumpLast p)
  else match p with
    | [] => .ok .ackOut
    | [v] => .ok (.readReply v)
    | _ => .error (.notSentByBlock p.length)

/-- Decode the first frame of some bytes: the first byte alone gives the length (30_encoding R106); an illegal length
is an instruction of its own, one byte long, for the block (R91), and never sent by it. -/
def decode (c : FrameContext) (bytes : List Byte) : Except DecodeError (Instr × List Byte) :=
  match bytes with
  | [] => .error .empty
  | n :: rest =>
    if 63 < n.toNat then
      match c with
      | .rx _ => .ok (classifyIllegal n, rest)
      | .tx => .error (.notSentByBlock n.toNat)
    else if rest.length < n.toNat then .error (.truncated n.toNat rest.length)
    else
      match c with
      | .rx r => .ok (classify r (rest.take n.toNat), rest.drop n.toNat)
      | .tx =>
        match classifyTx (rest.take n.toNat) with
        | .ok i => .ok (i, rest.drop n.toNat)
        | .error e => .error e

/-- A frame: the length octet, then the payload (30_encoding R90). -/
def frame (p : List Byte) : List Byte := BitVec.ofNat 8 p.length :: p

/-- The wire bytes of an instruction, from the layouts of 30_encoding R91, R92, R98-R105. -/
def encode : Instr → List Byte
  | .read a => frame [0x72, hiByte a, loByte a]
  | .write a v => frame [0x77, hiByte a, loByte a, v]
  | .dump => frame [0x64]
  | .load total => frame [0x6C, hiByte total, loByte total]
  | .reset => frame [0x72]
  | .unknown p => frame p
  | .illegalLen64 n => [n]
  | .illegalLen128 n => [n]
  | .ack => frame []
  | .resetSentinel => frame [Sys2Proof.resetSentinel]
  | .ackwaitUnexpected p => frame p
  | .loadChunk d => frame d
  | .readReply v => frame [v]
  | .ackOut => frame []
  | .dumpChunk d => frame d
  | .dumpLast d => frame d

/-- The contexts in which a row's frames are read (the table's "context"; an illegal length is met in any receive). -/
def Instr.readIn (i : Instr) (c : FrameContext) : Bool :=
  match i with
  | .read _ => c == .rx .idle
  | .write _ _ => c == .rx .idle
  | .dump => c == .rx .idle
  | .load _ => c == .rx .idle
  | .reset => c == .rx .idle
  | .unknown _ => c == .rx .idle
  | .illegalLen64 _ => c != .tx
  | .illegalLen128 _ => c != .tx
  | .ack => c == .rx .ackWait
  | .resetSentinel => c == .rx .ackWait
  | .ackwaitUnexpected _ => c == .rx .ackWait
  | .loadChunk _ => c == .rx .load
  | .readReply _ => c == .tx
  | .ackOut => c == .tx
  | .dumpChunk _ => c == .tx
  | .dumpLast _ => c == .tx

/-- The most significant byte of a `k`-byte number first. -/
def bytesBE : Nat → Nat → List Byte
  | 0, _ => []
  | k + 1, w => BitVec.ofNat 8 (w >>> (8 * k)) :: bytesBE k w

/-- The least significant byte of a `k`-byte number first. -/
def bytesLE : Nat → Nat → List Byte
  | 0, _ => []
  | k + 1, w => BitVec.ofNat 8 w :: bytesLE k (w >>> 8)

/-- The wire bytes of a table row's bits. The rows of 16, 32 and 40 bits number the whole frame as one big-endian bit
string; the others (8 bits, and the two dump chunks of 72 and 512) number from the first byte (the rows' own notes;
log 20). The bytes the frame has beyond `nbits` are zeros. -/
def tableBytes (nbits w : Nat) : List Byte :=
  (if nbits ≤ 40 then bytesBE ((nbits + 7) / 8) w else bytesLE ((nbits + 7) / 8) w) ++ List.replicate maxPayload 0

/-- The instruction the decoder reads from a table row's bits: in idle context, the one in which the first frame after
reset is read (log 20). -/
def decodeTableWord (nbits w : Nat) : Option Instr :=
  match decode (.rx .idle) (tableBytes nbits w) with
  | .ok (i, _) => some i
  | .error _ => none

end Sys2Proof
end

