-- ==== Sys2Proof/Config.lean ====
section
/-! DEFINITION. What an implementation fixes: the parameters of 00_scope R10 and R11 as plain data (they stand in
State.cfg, so that every statement ranges over them; log 3, log 4), and the free values, constants with no body. -/

namespace Sys2Proof

/-- `ADDR15_MODE` (00_scope R10, 20_memory R62). -/
inductive Addr15Mode where
  | alias15
  | refuse
deriving DecidableEq, Repr

/-- `LEN_WAIT_TIMEOUT` (00_scope R10, 41_transport R180). -/
inductive LenWait where
  | none
  | bounded
deriving DecidableEq, Repr

/-- `OVERLONG_CONSUME` (00_scope R10, 41_transport R184). -/
inductive Overlong where
  | lengthOnly
  | capacity
deriving DecidableEq, Repr

/-- The named delays of the block's procedures (00_scope R11). -/
inductive DelayName where
  | srHalf
  | modeSettle
  | readSettle
  | wrSetup
  | weLow
  | wrHold
  | interWrite
deriving DecidableEq, Repr

/-- The parameters a model takes (00_scope R10, R11; 93 part 2). -/
structure Config where
  addr15 : Addr15Mode
  lenWait : LenWait
  overlong : Overlong
  ctrlActiveLow : Bool
  tSrHalf : Nat
  tModeSettle : Nat
  tReadSettle : Nat
  tWrSetup : Nat
  tWeLow : Nat
  tWrHold : Nat
  tInterWrite : Nat
  tRxTimeout : Nat
  tAccDev : Nat
  tWcDev : Nat
  tWpDev : Nat
  tDsDev : Nat
  tDfDev : Nat
  tSrDev : Nat
deriving DecidableEq, Repr

/-- The length of a named delay (00_scope R11). -/
def Config.time (c : Config) : DelayName → Nat
  | .srHalf => c.tSrHalf
  | .modeSettle => c.tModeSettle
  | .readSettle => c.tReadSettle
  | .wrSetup => c.tWrSetup
  | .weLow => c.tWeLow
  | .wrHold => c.tWrHold
  | .interWrite => c.tInterWrite

/-- The parameters of State.reset: the defaults of 00_scope R10; every time 1, a DESIGN CHOICE (log 3). -/
def Config.initial : Config where
  addr15 := .alias15
  lenWait := .none
  overlong := .lengthOnly
  ctrlActiveLow := true
  tSrHalf := 1
  tModeSettle := 1
  tReadSettle := 1
  tWrSetup := 1
  tWeLow := 1
  tWrHold := 1
  tInterWrite := 1
  tRxTimeout := 1
  tAccDev := 1
  tWcDev := 1
  tWpDev := 1
  tDsDev := 1
  tDfDev := 1
  tSrDev := 1

/-- The k-th free byte: a value no rule fixes (20_memory R67, R68, R71, R72; 70 R308, R309; log 6). -/
opaque Config.freeByte : Nat → Byte

/-- The k-th free 16-bit value (70 R307; log 6). -/
opaque Config.freeWord : Nat → Addr

/-- The k-th free choice (70 R310; log 6). -/
opaque Config.freeChoice : Nat → Bool

/-- `BLINK_PATTERN(e)`, by error code: the levels the indicator shows, first to last (00_scope R11, 60 R281; log 15). -/
opaque Config.blinkPattern : BitVec 3 → List Bool

/-- `BAUD`, read by no rule (00_scope R11; log 31). -/
opaque Config.baud : Nat

/-- `SERIAL_FORMAT`, read by no rule (00_scope R11; log 31). -/
opaque Config.serialFormat : Nat

/-- The pin assignment, read by no rule (00_scope R11; log 31). -/
opaque Config.pinAssignment : Nat → Nat

end Sys2Proof
end

