-- ==== Sys2Proof/Machine/State.lean ====
section
/-! DEFINITION. Everything the spec gives the machine, as plain data (10_state R20-R47), the model's faults and
refusals (60 R272), and the state after reset (10_state R46). -/

namespace Sys2Proof.Machine

/-- A logical line level (10_state R26). -/
inductive Level where
  | asserted
  | deasserted
deriving DecidableEq, Repr

/-- The direction of the data pins (10_state R24). -/
inductive Dir where
  | input
  | output
deriving DecidableEq, Repr

/-- `MODE`, the bus mode (10_state R21). -/
inductive Mode where
  | standby
  | read
  | write
deriving DecidableEq, Repr

/-- `ERR`, the error latch (10_state R22). -/
inductive Err where
  | ok
  | resetRequested
  | frameCorrupt
  | unexpectedFrame
  | unknown
deriving DecidableEq, Repr

/-- One event of the block (00_scope R13). -/
inductive Prim where
  | setDir (d : Dir)
  | setD (v : Byte)
  | setCE (l : Level)
  | setOE (l : Level)
  | setWE (l : Level)
  | setSER (b : Bool)
  | setSRCLK (b : Bool)
  | setRCLK (b : Bool)
  | delay (t : DelayName)
  | sampleD
  | setMode (m : Mode)
deriving DecidableEq, Repr

/-- What a procedure goes on with when the events it is in the middle of are done (log 10). -/
inductive Task where
  /-- The reset sequence: the main loop begins (70 R300). -/
  | boot
  /-- READ: the reply, then REPORT (42 R213). -/
  | readReply
  /-- WRITE: the reply, then REPORT (42 R214). -/
  | writeReply
  /-- DUMP: the byte just sampled goes into the chunk, and the loop goes on (43 R240). -/
  | dumpByte
  /-- LOAD: the counters are set, and the loop begins (43 R243). -/
  | loadOpen
  /-- A LOAD chunk: the byte just programmed is counted, and the loop goes on with the rest of the chunk (43 R243). -/
  | loadByte (rest : List Byte)
  /-- The bus is back in STANDBY at the end of a LOAD or of a cleanup: REPORT (43 R243, 60 R275). -/
  | close
deriving DecidableEq, Repr

/-- `CS`, the control state (10_state R23). IDLE, ACKWAIT and LOAD are the context argument; `discard` marks the
discard wait of 41_transport R184, held in PAYLOAD(63, k); EXEC keeps the context whose frame it executes (log 9); DELAY
keeps where its procedure goes on (log 10). -/
inductive CS where
  /-- `BOOT`. -/
  | boot
  /-- `IDLE_LEN`, `ACKWAIT_LEN`, `LOAD_LEN`. -/
  | len (c : RxContext)
  /-- `IDLE_PAYLOAD(n, k)`, `ACKWAIT_PAYLOAD(n, k)`, `LOAD_PAYLOAD(n, k)`. -/
  | payload (c : RxContext) (n : Fin 64) (k : Nat) (discard : Bool)
  /-- `EXEC`, with a whole frame in RXBUF. -/
  | exec (c : RxContext)
  /-- `DELAY(T)`, with the events of the procedure after the delay, and what it goes on with after them. -/
  | delay (t : DelayName) (rest : List Prim) (k : Task)
  /-- `REPORT`. -/
  | report
deriving DecidableEq, Repr

/-- How far a move of the block goes (00_scope R14; log 7). -/
inductive Pace where
  /-- To the next wait for a byte, on through the delays, in which no other agent moves. -/
  | toByte
  /-- To the next wait of any kind: RxByte, RxByteT or Delay. -/
  | toWait
deriving DecidableEq, Repr

/-- One coming move of the agents (00_scope R15; log 5). -/
inductive Move where
  /-- The block moves. -/
  | block (p : Pace)
  /-- The host appends bytes to RXQ (10_state R43, R45). -/
  | hostSend (bytes : List Byte)
  /-- The device takes its commit step, if a write cycle is pending (20_memory R70). -/
  | deviceCommit
  /-- A wait of RxByteT with RXQ empty returns TIMEOUT (41_transport R182), and the block goes on from it. -/
  | rxTimeout (p : Pace)
  /-- Power is lost and comes back (70 R301, R302). -/
  | powerCycle
deriving DecidableEq, Repr

/-- The EEPROM's listed cells, in the canonical form of Memory.wf (Machine/Memory.lean). -/
abbrev Memory := List Host.Cell

/-- The data pins and the EEPROM's control lines (10_state R24-R26). -/
@[ext] structure Pins where
  /-- `DDIR` (R24). -/
  ddir : Dir
  /-- `DOUT` (R25). -/
  dout : Byte
  /-- `CE` (R26). -/
  ce : Level
  /-- `OE` (R26). -/
  oe : Level
  /-- `WE` (R26). -/
  we : Level
deriving DecidableEq, Repr

/-- The shift register and its lines (10_state R27, R28, R30, R31). -/
@[ext] structure ShiftReg where
  /-- `SER` (R27). -/
  ser : Bool
  /-- `SRCLK` (R27). -/
  srclk : Bool
  /-- `RCLK` (R27). -/
  rclk : Bool
  /-- `SR_OE_N`, where the line exists: asserted enables the register's outputs (R28; log 16). -/
  oe : Option Level
  /-- `SR_CLR_N`, where the line exists: deasserted does not clear the register (R28; log 16). -/
  clr : Option Level
  /-- `SR_SHIFT` (R30). -/
  shift : Addr
  /-- `SR_OUT` (R31). -/
  out : Addr
deriving DecidableEq, Repr

/-- The receive buffer (10_state R32). -/
@[ext] structure RxBuffer where
  /-- `RXBUF[0..63]`. -/
  buf : Vector Byte 64
  /-- `RXLEN`, 0..63. -/
  len : Fin 64
deriving DecidableEq, Repr

/-- The scratch state of dump() (10_state R33, R34). -/
@[ext] structure DumpScratch where
  /-- `CHUNK[0..62]` (R33). -/
  chunk : Vector Byte 63
  /-- `CHLEN`, 0..63 (R33). -/
  chlen : Nat
  /-- `DADDR` (R34). -/
  daddr : Addr
deriving DecidableEq, Repr

/-- The scratch state of load() (10_state R35). -/
@[ext] structure LoadScratch where
  /-- `LADDR`. -/
  laddr : Addr
  /-- `LTOTAL`. -/
  ltotal : Addr
  /-- `LDONE`. -/
  ldone : BitVec 32
deriving DecidableEq, Repr

/-- The operands of the command being executed (10_state R36) and the local of read() (40 R141). -/
@[ext] structure OperandRegs where
  /-- `A` (R36). -/
  a : Addr
  /-- `V` (R36). -/
  v : Byte
  /-- The local `v` of read(): the model's home for it. -/
  sampled : Byte
deriving DecidableEq, Repr

/-- The machine's state. -/
structure State where
  /-- The parameters, which no step changes (00_scope R10, R11; log 3, log 4). -/
  cfg : Config
  /-- `MODE` (R21). -/
  mode : Mode
  /-- `ERR` (R22). -/
  err : Err
  /-- `CS` (R23). -/
  cs : CS
  /-- The pins to the EEPROM (R24-R26). -/
  pins : Pins
  /-- The shift register (R27, R28, R30, R31). -/
  sr : ShiftReg
  /-- `LED` (R29): true is on. -/
  led : Bool
  /-- The `Indicate(e)` events emitted so far, oldest first (00_scope R13, 60 R281). -/
  indicated : List Err
  /-- RXBUF and RXLEN (R32). -/
  rx : RxBuffer
  /-- CHUNK, CHLEN, DADDR (R33, R34). -/
  dump : DumpScratch
  /-- LADDR, LTOTAL, LDONE (R35). -/
  load : LoadScratch
  /-- A, V and read()'s local (R36). -/
  opd : OperandRegs
  /-- `PEND` (R41). -/
  pend : Option (CellIndex × Byte)
  /-- `MEM` (20_memory R61). -/
  mem : Memory
  /-- `RXQ` (R43), oldest first. -/
  rxq : List Byte
  /-- `TXS` (R44), oldest first. -/
  txs : List Byte
  /-- How many free values have been drawn: the model's own (log 6). -/
  draws : Nat
  /-- The coming moves of the agents: the model's own (log 5). -/
  sched : List Move
deriving DecidableEq, Repr

/-- Why the machine stops. -/
inductive Fault where
  /-- `write` called outside WRITE mode (40 R143, 60 R272): raised by the write primitive. Safe: the spec names this
  fault, and no command reaches it. -/
  | writeOutsideWriteMode
deriving DecidableEq, Repr

/-- Why the machine refuses. -/
inductive Refusal where
  /-- An instruction without a meaning yet: raised by an arm of exec. Safe. -/
  | notModelled (mnemonic : String)
  /-- `REFUSED_ADDR15` (20_memory R62, 60 R272): raised by READ, WRITE and LOAD, and by a LOAD chunk that would pass
  0x7FFF, only under ADDR15_MODE = REFUSE. Safe: the spec names this refusal. -/
  | refusedAddr15
deriving DecidableEq, Repr

/-- The state after reset (10_state R46). An element R46 leaves unspecified is zero (log 1); the times in `cfg` are
log 3; the optional lines are absent (log 16); MEM lists nothing (log 2). -/
def State.reset : State where
  cfg := Config.initial
  mode := .standby
  err := .ok
  cs := .boot
  pins := { ddir := .input, dout := 0, ce := .deasserted, oe := .deasserted, we := .deasserted }
  sr := { ser := false, srclk := false, rclk := false, oe := none, clr := none, shift := 0, out := 0 }
  led := false
  indicated := []
  rx := { buf := Vector.replicate 64 0, len := 0 }
  dump := { chunk := Vector.replicate 63 0, chlen := 0, daddr := 0 }
  load := { laddr := 0, ltotal := 0, ldone := 0 }
  opd := { a := 0, v := 0, sampled := 0 }
  pend := none
  mem := []
  rxq := []
  txs := []
  draws := 0
  sched := []

end Sys2Proof.Machine
end

