-- ==== Sys2Proof/Machine/Flags.lean ====
section
/-! DEFINITION. The block has no condition flags (10_state R22). Its status: the codes of ERR and MODE, the line levels
of a mode (10_state R38), who drives the data bus (R39), electrical levels (R40), and the timing premises (70 R306-R310). -/

namespace Sys2Proof.Machine

/-- The code of an error kind (10_state R22, 60 R270). -/
def Err.code : Err → BitVec 3
  | .ok => 0
  | .resetRequested => 1
  | .frameCorrupt => 2
  | .unexpectedFrame => 3
  | .unknown => 4

/-- The code of a bus mode (10_state R21). -/
def Mode.code : Mode → BitVec 2
  | .standby => 0
  | .read => 1
  | .write => 2

/-- DDIR of a mode (10_state R38). -/
def Mode.ddir : Mode → Dir
  | .standby => .input
  | .read => .input
  | .write => .output

/-- CE of a mode (10_state R38). -/
def Mode.ce : Mode → Level
  | .standby => .deasserted
  | .read => .asserted
  | .write => .asserted

/-- OE of a mode (10_state R38). -/
def Mode.oe : Mode → Level
  | .standby => .deasserted
  | .read => .asserted
  | .write => .deasserted

/-- WE of a mode (10_state R38). -/
def Mode.we : Mode → Level
  | .standby => .deasserted
  | .read => .deasserted
  | .write => .deasserted

/-- `ctrl_drives` (10_state R39). -/
def State.ctrlDrives (s : State) : Bool := s.pins.ddir == .output

/-- `dev_drives` (10_state R39; PRESUMED by the spec, its G1; log 17). -/
def State.devDrives (s : State) : Bool := s.pins.ce == .asserted && s.pins.oe == .asserted && s.pins.we == .deasserted

/-- Bus contention (10_state R39). -/
def State.contention (s : State) : Bool := s.ctrlDrives && s.devDrives

/-- The electrical level of a line, true is high (10_state R40). -/
def electrical (activeLow : Bool) (l : Level) : Bool :=
  match l with
  | .asserted => !activeLow
  | .deasserted => activeLow

/-- The electrical level of the CE pin (10_state R40). -/
def State.cePin (s : State) : Bool := electrical s.cfg.ctrlActiveLow s.pins.ce

/-- The electrical level of the OE pin (10_state R40). -/
def State.oePin (s : State) : Bool := electrical s.cfg.ctrlActiveLow s.pins.oe

/-- The electrical level of the WE pin: active-low in every case (10_state R40). -/
def State.wePin (s : State) : Bool := electrical true s.pins.we

/-- The level the block drives on data pin `i`, none while the pins are inputs (10_state R25, 20_memory R64). -/
def State.drivenPin (s : State) (i : Nat) : Option Bool := if s.ctrlDrives then some (s.pins.dout.getLsbD i) else none

/-- The address lines of the device: bit k of SR_OUT on A_k, k = 0..14 (10_state R31). -/
def State.addressLine (s : State) (k : Fin 15) : Bool := s.sr.out.getLsbD k.val

/-- Premise `P_MODE` (70 R306); the spec gives no effect of its failure (log 29). -/
abbrev PMode (c : Config) : Prop := c.tDfDev ≤ c.tModeSettle

/-- Premise `P_SR` (70 R307). -/
abbrev PSr (c : Config) : Prop := c.tSrDev ≤ c.tSrHalf

/-- Premise `P_READ_SETTLE` (70 R308). -/
abbrev PReadSettle (c : Config) : Prop := c.tAccDev ≤ c.tReadSettle

/-- Premise `P_WRITE` (70 R309). -/
abbrev PWrite (c : Config) : Prop := c.tDsDev ≤ c.tWrSetup + c.tWeLow ∧ c.tWpDev ≤ c.tWeLow

/-- Premise `P_PACING` (70 R310). -/
abbrev PPacing (c : Config) : Prop := c.tWcDev ≤ c.tInterWrite

end Sys2Proof.Machine
end

