-- ==== Sys2Proof/Machine/Lines.lean ====
section
/-! DEFINITION. The writes of one line or one register stage (00_scope R13, 10_state R24-R31). -/

namespace Sys2Proof.Machine

/-- `DDIR <- d`. -/
def Pins.setDdir (d : Dir) (p : Pins) : Pins := { p with ddir := d }

/-- `DOUT <- v`. -/
def Pins.setDout (v : Byte) (p : Pins) : Pins := { p with dout := v }

/-- `CE <- l`. -/
def Pins.setCE (l : Level) (p : Pins) : Pins := { p with ce := l }

/-- `OE <- l`. -/
def Pins.setOE (l : Level) (p : Pins) : Pins := { p with oe := l }

/-- `WE <- l`. -/
def Pins.setWE (l : Level) (p : Pins) : Pins := { p with we := l }

/-- `SER <- b`. -/
def ShiftReg.setSer (b : Bool) (r : ShiftReg) : ShiftReg := { r with ser := b }

/-- `SRCLK <- b`. -/
def ShiftReg.setSrclk (b : Bool) (r : ShiftReg) : ShiftReg := { r with srclk := b }

/-- `RCLK <- b`. -/
def ShiftReg.setRclk (b : Bool) (r : ShiftReg) : ShiftReg := { r with rclk := b }

/-- `SR_SHIFT <- v`. -/
def ShiftReg.setShift (v : Addr) (r : ShiftReg) : ShiftReg := { r with shift := v }

/-- `SR_OUT <- v`. -/
def ShiftReg.setOut (v : Addr) (r : ShiftReg) : ShiftReg := { r with out := v }

/-- The optional lines, where present, at the levels reset holds them at: outputs enabled, not clearing (10_state R28). -/
def ShiftReg.hold (r : ShiftReg) : ShiftReg :=
  { r with oe := r.oe.map (fun _ => .asserted), clr := r.clr.map (fun _ => .deasserted) }

/-- The register and its lines after reset, on a board that has the optional lines `r` has (10_state R28, R46). -/
def ShiftReg.atReset (r : ShiftReg) : ShiftReg :=
  { State.reset.sr with oe := r.oe.map (fun _ => .asserted), clr := r.clr.map (fun _ => .deasserted) }

/-- `sampled <- v`. -/
def OperandRegs.setSampled (v : Byte) (o : OperandRegs) : OperandRegs := { o with sampled := v }

/-- `A <- a`. -/
def OperandRegs.setA (a : Addr) (o : OperandRegs) : OperandRegs := { o with a := a }

/-- `V <- v`. -/
def OperandRegs.setV (v : Byte) (o : OperandRegs) : OperandRegs := { o with v := v }

end Sys2Proof.Machine
end

