-- ==== Sys2Proof/Machine/Memory.lean ====
section
/-! DEFINITION. The EEPROM contents MEM[0..32767] (20_memory R61) as a sorted list of cells in one canonical form. -/

namespace Sys2Proof.Machine

/-- What a cell that is not listed holds: 0xFF, a DESIGN CHOICE (log 2). -/
def Memory.unlisted : Byte := 0xFF

/-- Every listed address is above `lo`, strictly rising, inside the device, and no listed byte is the unlisted one. -/
def Memory.wfFrom : Nat → Memory → Bool
  | _, [] => true
  | lo, (k, b) :: m => decide (lo ≤ k) && decide (k < memSize) && decide (b ≠ Memory.unlisted) && Memory.wfFrom (k + 1) m

/-- The canonical form: equal memories are equal lists. -/
def Memory.wf (m : Memory) : Bool := Memory.wfFrom 0 m

/-- The byte at cell number `k`. -/
def Memory.at : Memory → Nat → Byte
  | [], _ => Memory.unlisted
  | (j, b) :: m, k => if j = k then b else Memory.at m k

/-- `MEM[i]` (20_memory R61). -/
def Memory.read (m : Memory) (i : CellIndex) : Byte := Memory.at m i.toNat

/-- Insert a cell in front of the first higher address, replacing an equal one; the unlisted value removes it. -/
def Memory.put : Memory → Nat → Byte → Memory
  | [], k, b => if b = Memory.unlisted then [] else [(k, b)]
  | (j, c) :: m, k, b =>
    if k < j then (if b = Memory.unlisted then (j, c) :: m else (k, b) :: (j, c) :: m)
    else if k = j then (if b = Memory.unlisted then m else (k, b) :: m)
    else (j, c) :: Memory.put m k b

/-- `MEM[i] <- b` (20_memory R70). -/
def Memory.write (m : Memory) (i : CellIndex) (b : Byte) : Memory := Memory.put m i.toNat b

end Sys2Proof.Machine
end

