-- ==== Sys2Proof/Machine/Operands.lean ====
section
/-! DEFINITION. Addresses and the buffers of the block: the cell an address reaches (20_memory R62), the frame in
RXBUF (10_state R32) and the dump chunk (10_state R33). -/

namespace Sys2Proof.Machine

/-- `idx(a) = a[14:0]` (20_memory R62). -/
def idx (a : Addr) : CellIndex := a.extractLsb' 0 15

/-- An access with address bit 15 set has no meaning under REFUSE (20_memory R62). -/
def addrRefused (c : Config) (a : Addr) : Bool :=
  match c.addr15 with
  | .alias15 => false
  | .refuse => a.getLsbD 15

/-- A LOAD of more than 32768 bytes is refused under REFUSE (43_bulk R245). -/
def loadRefused (c : Config) (total : Addr) : Bool :=
  match c.addr15 with
  | .alias15 => false
  | .refuse => decide (memSize < total.toNat)

/-- The payload in RXBUF[0..RXLEN-1] (41_transport R183). -/
def State.rxPayload (s : State) : List Byte := s.rx.buf.toList.take s.rx.len.val

/-- `RXBUF[k] <- b` (41_transport R183). -/
def putRxbuf (k : Nat) (b : Byte) (s : State) : State := { s with rx := { buf := s.rx.buf.setIfInBounds k b, len := s.rx.len } }

/-- `RXBUF[k..]` filled with bytes, in order. -/
def fillRxbuf : Nat → List Byte → Vector Byte 64 → Vector Byte 64
  | _, [], buf => buf
  | k, b :: p, buf => fillRxbuf (k + 1) p (buf.setIfInBounds k b)

/-- `CHUNK[CHLEN] <- b; CHLEN <- CHLEN + 1` (43_bulk R240). -/
def pushChunk (b : Byte) (s : State) : State :=
  { s with
    dump := { chunk := s.dump.chunk.setIfInBounds s.dump.chlen b, chlen := s.dump.chlen + 1, daddr := s.dump.daddr } }

/-- `CHUNK[0..CHLEN-1]` (43_bulk R240). -/
def State.chunkBytes (s : State) : List Byte := s.dump.chunk.toList.take s.dump.chlen

end Sys2Proof.Machine
end

