-- ==== Sys2Proof/Machine/Device.lean ====
section
/-! DEFINITION. The environment the block drives: the shift register's response to its clock edges (40 R131), and the
EEPROM's answers to a sample and to a program strobe, and its write cycle (20_memory R67-R72). Values the rules leave
open are free values, drawn by the counter `draws` (log 6). -/

namespace Sys2Proof.Machine

/-- The state after one more free value has been drawn. -/
def State.drawn (s : State) : State := { s with draws := s.draws + 1 }

/-- `{v[14:0], b}`: one shift of the register, the new bit entering at bit 0 (40 R131). -/
def shiftIn (v : Addr) (b : Bool) : Addr := BitVec.concat (v.extractLsb' 0 15) b

/-- The register's response to a rising edge of SRCLK (40 R131; 70 R307 when P_SR fails). -/
def srclkRise (s : State) : State :=
  if PSr s.cfg then { s with sr := s.sr.setShift (shiftIn s.sr.shift s.sr.ser) }
  else { s with sr := s.sr.setShift (Config.freeWord s.draws), draws := s.draws + 1 }

/-- The register's response to a rising edge of RCLK (40 R131; 70 R307 when P_SR fails). -/
def rclkRise (s : State) : State :=
  if PSr s.cfg then { s with sr := s.sr.setOut s.sr.shift }
  else { s with sr := s.sr.setOut (Config.freeWord s.draws), draws := s.draws + 1 }

/-- `SampleD()`, into the local of read (20_memory R67, R68, R71; 70 R308): the device's cell when it drives the bus
alone, is not in a write cycle and has settled; the block's own latches when it drives alone; otherwise any value. With
P_SR broken under REFUSE the cell is that of SR_OUT[14:0], whatever bit 15 is (log 32, DESIGN CHOICE). -/
def sampleD (s : State) : State :=
  if s.devDrives && !s.ctrlDrives && s.pend.isNone && decide (PReadSettle s.cfg) then
    { s with opd := s.opd.setSampled (Memory.read s.mem (idx s.sr.out)) }
  else if s.ctrlDrives && !s.devDrives then { s with opd := s.opd.setSampled s.pins.dout }
  else { s with opd := s.opd.setSampled (Config.freeByte s.draws), draws := s.draws + 1 }

/-- The program strobe `MemWrite` at the address lines with the data latches (20_memory R69, R72; 70 R309). With P_SR broken
under REFUSE the cell is that of SR_OUT[14:0], whatever bit 15 is (log 32, DESIGN CHOICE). -/
def strobe (s : State) : State :=
  match s.pend with
  | none =>
    if PWrite s.cfg then { s with pend := some (idx s.sr.out, s.pins.dout) }
    else { s with pend := some (idx s.sr.out, Config.freeByte s.draws), draws := s.draws + 1 }
  | some (i, _) =>
    { s with
      mem := Memory.write (Memory.write s.mem i (Config.freeByte s.draws)) (idx s.sr.out) (Config.freeByte (s.draws + 1)),
      pend := none, draws := s.draws + 2 }

/-- The device's commit step, nothing when no write cycle is pending (20_memory R70). -/
def commit (s : State) : State :=
  match s.pend with
  | none => s
  | some (i, b) => { s with mem := Memory.write s.mem i b, pend := none }

/-- What the device does in a pacing delay: it commits under P_PACING; if the premise fails, whether the pending write
commits is a free choice (70 R310, R316; log 7). -/
def pacingDelay (s : State) : State :=
  match s.pend with
  | none => s
  | some _ =>
    if PPacing s.cfg then commit s
    else if Config.freeChoice s.draws then commit s.drawn else s.drawn

end Sys2Proof.Machine
end

