-- ==== Sys2Proof/Machine/Ops.lean ====
section
/-! DEFINITION. The primitives of 00_scope R13 as events with their effect, the procedures as lists of events
(40 R130, R134-R138, R141, R142; 70 R300), the transmit side (41 R186, R187), and raising an error and the report that
ends it (60 R274, R275, R280). -/

namespace Sys2Proof.Machine

/-- A line write, one observable event on a pin or on the pins as a group (00_scope R13, 92 D34). -/
def Prim.isLineWrite : Prim → Bool
  | .setDir _ => true
  | .setD _ => true
  | .setCE _ => true
  | .setOE _ => true
  | .setWE _ => true
  | .setSER _ => true
  | .setSRCLK _ => true
  | .setRCLK _ => true
  | .delay _ => false
  | .sampleD => false
  | .setMode _ => false

/-- A delay. -/
def Prim.isDelay : Prim → Bool
  | .delay _ => true
  | .setDir _ => false
  | .setD _ => false
  | .setCE _ => false
  | .setOE _ => false
  | .setWE _ => false
  | .setSER _ => false
  | .setSRCLK _ => false
  | .setRCLK _ => false
  | .sampleD => false
  | .setMode _ => false

/-- `SetWE(l)`: the rising edge of the active-low line with CE asserted and OE deasserted is the strobe (20_memory R69). -/
def driveWE (l : Level) (s : State) : State :=
  let s' := { s with pins := s.pins.setWE l }
  if s.pins.we = .asserted ∧ l = .deasserted ∧ s.pins.ce = .asserted ∧ s.pins.oe = .deasserted then strobe s' else s'

/-- `SetSRCLK(b)` with the register's response to a rising edge (40 R131). -/
def driveSRCLK (b : Bool) (s : State) : State :=
  let s' := { s with sr := s.sr.setSrclk b }
  if s.sr.srclk = false ∧ b = true then srclkRise s' else s'

/-- `SetRCLK(b)` with the register's response to a rising edge (40 R131). -/
def driveRCLK (b : Bool) (s : State) : State :=
  let s' := { s with sr := s.sr.setRclk b }
  if s.sr.rclk = false ∧ b = true then rclkRise s' else s'

/-- `Delay(T)`: no state change, but for the device in the pacing delay (00_scope R13, 70 R316). -/
def runDelay (t : DelayName) (s : State) : State :=
  match t with
  | .interWrite => pacingDelay s
  | .srHalf => s
  | .modeSettle => s
  | .readSettle => s
  | .wrSetup => s
  | .weLow => s
  | .wrHold => s

/-- The effect of one event (00_scope R13). -/
def Prim.run (p : Prim) (s : State) : State :=
  match p with
  | .setDir d => { s with pins := s.pins.setDdir d }
  | .setD v => { s with pins := s.pins.setDout v }
  | .setCE l => { s with pins := s.pins.setCE l }
  | .setOE l => { s with pins := s.pins.setOE l }
  | .setWE l => driveWE l s
  | .setSER b => { s with sr := s.sr.setSer b }
  | .setSRCLK b => driveSRCLK b s
  | .setRCLK b => driveRCLK b s
  | .delay t => runDelay t s
  | .sampleD => Sys2Proof.Machine.sampleD s
  | .setMode m => { s with mode := m }

/-- Events in order. -/
def runPrims : List Prim → State → State
  | [], s => s
  | p :: ps, s => runPrims ps (p.run s)

/-- One bit of loadAddress: SER, then one SRCLK pulse (40 R130). -/
def clockBit (b : Bool) : List Prim :=
  [.setSER b, .setSRCLK true, .delay .srHalf, .setSRCLK false, .delay .srHalf]

/-- `loadAddress(addr)` (40 R130). -/
def loadAddress (a : Addr) : List Prim :=
  [15, 14, 13, 12, 11, 10, 9, 8, 7, 6, 5, 4, 3, 2, 1, 0].flatMap (fun i => clockBit (a.getLsbD i)) ++
    [.setRCLK true, .delay .srHalf, .setRCLK false, .delay .srHalf]

/-- `enterStandby()` called in a mode (40 R134, R137). -/
def enterStandby (m : Mode) : List Prim :=
  match m with
  | .standby => []
  | .read => [.setDir .input, .setOE .deasserted, .setCE .deasserted, .setWE .deasserted, .delay .modeSettle, .setMode .standby]
  | .write => [.setDir .input, .setOE .deasserted, .setCE .deasserted, .setWE .deasserted, .delay .modeSettle, .setMode .standby]

/-- The events of STANDBY → READ (40 R135). -/
def standbyToRead : List Prim :=
  [.setDir .input, .setCE .asserted, .setOE .asserted, .setWE .deasserted, .delay .modeSettle, .setMode .read]

/-- The events of STANDBY → WRITE (40 R136). -/
def standbyToWrite : List Prim :=
  [.setCE .asserted, .setOE .deasserted, .setWE .deasserted, .setDir .output, .delay .modeSettle, .setMode .write]

/-- `enterRead()` called in a mode (40 R135, R137, R138). -/
def enterRead (m : Mode) : List Prim :=
  match m with
  | .read => []
  | .standby => standbyToRead
  | .write => enterStandby .write ++ standbyToRead

/-- `enterWrite()` called in a mode (40 R136, R137, R138). -/
def enterWrite (m : Mode) : List Prim :=
  match m with
  | .write => []
  | .standby => standbyToWrite
  | .read => enterStandby .read ++ standbyToWrite

/-- `read(addr)` called in a mode, ending in STANDBY (40 R141). -/
def readEvents (m : Mode) (a : Addr) : List Prim :=
  enterRead m ++ loadAddress a ++ [.delay .readSettle, .sampleD] ++ enterStandby .read

/-- `write(addr, value)` after its mode check (40 R142). -/
def writeEvents (a : Addr) (v : Byte) : List Prim :=
  loadAddress a ++ [.setD v, .delay .wrSetup, .setWE .asserted, .delay .weLow, .setWE .deasserted, .delay .wrHold]

/-- The line writes and the delay of the reset sequence, unconditional (70 R300). -/
def bootLines : List Prim :=
  [.setDir .input, .setOE .deasserted, .setCE .deasserted, .setWE .deasserted, .setSRCLK false, .setRCLK false]

/-- Continue an outcome, or stop with it. -/
def andThen (o : Host.Outcome State Fault Refusal) (f : State → Host.Outcome State Fault Refusal) :
    Host.Outcome State Fault Refusal :=
  match o with
  | .next s => f s
  | .fault r => .fault r
  | .refused r => .refused r

/-- `read(addr)` (40 R141): the result stands in `sampled`. -/
def readByte (a : Addr) (s : State) : State := runPrims (readEvents s.mode a) s

/-- `write(addr, value)` (40 R142): a fault outside WRITE mode (R143), a refusal of an address the model gives no
meaning (20_memory R62). -/
def writeByte (a : Addr) (v : Byte) (s : State) : Host.Outcome State Fault Refusal :=
  if s.mode ≠ .write then .fault .writeOutsideWriteMode
  else if addrRefused s.cfg a then .refused .refusedAddr15
  else .next (runPrims (writeEvents a v) s)

/-- `enterStandby()` (40 R134). -/
def toStandby (s : State) : State := runPrims (enterStandby s.mode) s

/-- `enterWrite()` (40 R136). -/
def toWrite (s : State) : State := runPrims (enterWrite s.mode) s

/-- `TxByte(b)` (00_scope R13, 10_state R44). -/
def txByte (b : Byte) (s : State) : State := { s with txs := s.txs ++ [b] }

/-- The bytes of `send(p, ...)`: the length octet, then the payload (41 R187). -/
def sendFrame (p : List Byte) (s : State) : State := { s with txs := s.txs ++ frame p }

/-- `send(p, waitForAck = true)` up to its wait for the reply's length byte (41 R187, R188). -/
def sendAndWait (p : List Byte) (s : State) : State := { sendFrame p s with cs := .len .ackWait }

/-- `raise Err(e)`: latch, cleanup (which is enterStandby), REPORT (60 R274, R275). -/
def raiseErr (e : Err) (s : State) : State := { toStandby { s with err := e } with cs := .report }

/-- `Indicate(e)`: the event on LED, which shows the pattern of `e` (60 R281; log 15). -/
def indicate (e : Err) (s : State) : State :=
  { s with indicated := s.indicated ++ [e], led := (Config.blinkPattern e.code).getLastD s.led }

/-- `report()`, and the way back to IDLE_LEN (60 R280, 42 R210). -/
def report (s : State) : State :=
  let s' := if s.err = .ok then s else indicate s.err s
  { s' with err := .ok, cs := .len .idle }

end Sys2Proof.Machine
end

