-- ==== Sys2Proof/Machine/Bulk.lean ====
section
/-! DEFINITION. The bulk transfers: DUMP and the replies of its ack-wait (43_bulk R240-R242, 41_transport R188-R190),
LOAD and its chunks (43_bulk R243-R249). -/

namespace Sys2Proof.Machine

/-- `CHLEN <- 0; DADDR <- 0` (43 R240). -/
def firstChunk (s : State) : State := { s with dump := { chunk := s.dump.chunk, chlen := 0, daddr := 0 } }

/-- `CHLEN <- 0; DADDR <- DADDR + 1`, after a full chunk (43 R240). -/
def nextChunk (s : State) : State :=
  { s with dump := { chunk := s.dump.chunk, chlen := 0, daddr := s.dump.daddr + 1 } }

/-- `DADDR <- DADDR + 1` (43 R240). -/
def nextAddress (s : State) : State :=
  { s with dump := { chunk := s.dump.chunk, chlen := s.dump.chlen, daddr := s.dump.daddr + 1 } }

/-- `CHUNK[CHLEN] <- read(DADDR); CHLEN <- CHLEN + 1` (43 R240). -/
def dumpRead (s : State) : State :=
  let s1 := readByte s.dump.daddr s
  pushChunk s1.opd.sampled s1

/-- After the loop: the final shorter chunk is sent and ack-waited, or the command is over (43 R240). -/
def dumpTail (s : State) : State :=
  if 0 < s.dump.chlen then sendAndWait s.chunkBytes s else { s with cs := .report }

/-- The loop of dump() from the current DADDR to the next send; `fuel` bounds the bytes of one chunk (43 R240). -/
def dumpLoop : Nat → State → State
  | 0, s => s
  | fuel + 1, s =>
    if memSize ≤ s.dump.daddr.toNat then dumpTail s
    else
      let s1 := dumpRead s
      if s1.dump.chlen = maxPayload then sendAndWait s1.chunkBytes s1
      else dumpLoop fuel (nextAddress s1)

/-- DUMP: `dump()` up to the ack-wait of the first chunk (42 R215, 43 R240). -/
def execDump (s : State) : Host.Outcome State Fault Refusal :=
  .next (dumpLoop (maxPayload + 1) (firstChunk s))

/-- ACK in ack-wait: the send has succeeded. After a full chunk the loop of dump() goes on; after the final shorter one
the dump is over (41 R189, 43 R240; log 27). -/
def execAck (s : State) : Host.Outcome State Fault Refusal :=
  .next (if s.dump.chlen = maxPayload then dumpLoop (maxPayload + 1) (nextChunk s) else { s with cs := .report })

/-- The reset sentinel in ack-wait: `raise Err(RESET_REQUESTED)` (41 R188, R189). -/
def execResetSentinel (s : State) : Host.Outcome State Fault Refusal := .next (raiseErr .resetRequested s)

/-- Any other legal frame in ack-wait: `raise Err(UNEXPECTED_FRAME)` (41 R188, R189). -/
def execAckwaitUnexpected (_payload : List Byte) (s : State) : Host.Outcome State Fault Refusal :=
  .next (raiseErr .unexpectedFrame s)

/-- The loop test of load(): wait for the next chunk, or leave WRITE mode and end (43 R243). -/
def loadContinue (s : State) : State :=
  if s.load.ldone.toNat < s.load.ltotal.toNat then { s with cs := .len .load }
  else { toStandby s with cs := .report }

/-- `LTOTAL <- total` (42 R216). -/
def setTotal (total : Addr) (s : State) : State :=
  { s with load := { laddr := s.load.laddr, ltotal := total, ldone := s.load.ldone } }

/-- `LADDR <- 0; LDONE <- 0` (43 R243). -/
def openLoad (s : State) : State := { s with load := { laddr := 0, ltotal := s.load.ltotal, ldone := 0 } }

/-- `LADDR <- LADDR + 1; LDONE <- LDONE + 1` (43 R243). -/
def countByte (s : State) : State :=
  { s with load := { laddr := s.load.laddr + 1, ltotal := s.load.ltotal, ldone := s.load.ldone + 1 } }

/-- LOAD: `LTOTAL <- total`, the command ack, `enterWrite()`, the counters, the first loop test; refused when REFUSE
gives a later address no meaning (42 R216, 43 R243, R245). -/
def execLoad (total : Addr) (s : State) : Host.Outcome State Fault Refusal :=
  if loadRefused s.cfg total then .refused .refusedAddr15
  else .next (loadContinue (openLoad (toWrite (sendFrame [] (setTotal total s)))))

/-- The loop over a chunk's bytes: program, pace, count; bytes beyond LTOTAL are discarded (43 R243, R244). -/
def programBytes : List Byte → State → Host.Outcome State Fault Refusal
  | [], s => .next s
  | b :: bs, s =>
    if s.load.ldone.toNat = s.load.ltotal.toNat then .next s
    else
      andThen (writeByte s.load.laddr b s) fun s1 => programBytes bs (countByte (runDelay .interWrite s1))

/-- A chunk in LOAD context: acked, programmed, and the loop test (41 R186, 43 R243, R244; log 8). -/
def execLoadChunk (data : List Byte) (s : State) : Host.Outcome State Fault Refusal :=
  andThen (programBytes data (txByte 0x00 s)) fun s1 => .next (loadContinue s1)

end Sys2Proof.Machine
end

