-- ==== Sys2Proof/Machine/Idle.lean ====
section
/-! DEFINITION. The single-frame commands of idle context: READ, WRITE, RESET, UNKNOWN (42_commands R213, R214,
R217, R218). -/

namespace Sys2Proof.Machine

/-- READ after its read(): `send([v], false)`, then REPORT is next (42 R213, R220). -/
def replyRead (s : State) : State := { sendFrame [s.opd.sampled] s with cs := .report }

/-- WRITE with the bus back in STANDBY: `send([], false)`, then REPORT is next (42 R214, R220). -/
def replyWrite (s : State) : State := { sendFrame [] s with cs := .report }

/-- READ: `A <- addr; v <- read(A); send([v], false)`, then the report (42 R213, R220). -/
def execRead (a : Addr) (s : State) : Host.Outcome State Fault Refusal :=
  if addrRefused s.cfg a then .refused .refusedAddr15
  else .next (replyRead (readByte a { s with opd := s.opd.setA a }))

/-- WRITE: `A <- addr; V <- value; enterWrite(); write(A, V); enterStandby(); send([], false)`, then the report
(42 R214, R220). -/
def execWrite (a : Addr) (v : Byte) (s : State) : Host.Outcome State Fault Refusal :=
  if addrRefused s.cfg a then .refused .refusedAddr15
  else
    andThen (writeByte a v (toWrite { s with opd := (s.opd.setA a).setV v })) fun s1 =>
      .next (replyWrite (toStandby s1))

/-- RESET in idle context: nothing, then the report (42 R217, R220). -/
def execReset (s : State) : Host.Outcome State Fault Refusal := .next { s with cs := .report }

/-- UNKNOWN: `raise Err(UNKNOWN)`; the payload is ignored (42 R218). -/
def execUnknown (_payload : List Byte) (s : State) : Host.Outcome State Fault Refusal :=
  .next (raiseErr .unknown s)

end Sys2Proof.Machine
end

