-- ==== Sys2Proof/Machine/IllegalLength.lean ====
section
/-! DEFINITION. A length byte above the capacity, in any receive (41_transport R183, R184). -/

namespace Sys2Proof.Machine

/-- The receive context a control state is in; outside a receive the next one is idle (10_state R23). -/
def CS.context : CS → RxContext
  | .boot => .idle
  | .len c => c
  | .payload c _ _ _ => c
  | .exec c => c
  | .delay _ _ _ => .idle
  | .report => .idle

/-- An overlong length: FRAME_CORRUPT at once under LENGTH_ONLY; under CAPACITY first up to 63 bytes are discarded, in
PAYLOAD(63, 0) of the same context (41 R183, R184; 10_state R23). -/
def overlong (s : State) : State :=
  match s.cfg.overlong with
  | .lengthOnly => raiseErr .frameCorrupt s
  | .capacity => { s with cs := .payload s.cs.context 63 0 true }

/-- A length byte 64..127 (41 R184). -/
def execIllegalLen64 (_n : Byte) (s : State) : Host.Outcome State Fault Refusal := .next (overlong s)

/-- A length byte 128..255 (41 R184). -/
def execIllegalLen128 (_n : Byte) (s : State) : Host.Outcome State Fault Refusal := .next (overlong s)

end Sys2Proof.Machine
end

