-- ==== Sys2Proof/Machine/Reply.lean ====
section
/-! DEFINITION. The frames the block sends (30_encoding R105): each row's meaning is the `send` or the ack that emits
it (41_transport R186, R187). The commands run them as part of their own meaning (log 19). -/

namespace Sys2Proof.Machine

/-- READ_REPLY: `send([v], waitForAck = false)` (42 R213). -/
def execReadReply (v : Byte) (s : State) : Host.Outcome State Fault Refusal := .next (sendFrame [v] s)

/-- ACK_OUT: `TxByte(0x00)`, which is `send([], waitForAck = false)` (41 R186, R187). -/
def execAckOut (s : State) : Host.Outcome State Fault Refusal := .next (txByte 0x00 s)

/-- DUMP_CHUNK: `send(CHUNK[0..62], waitForAck = true)` (43 R240). -/
def execDumpChunk (data : List Byte) (s : State) : Host.Outcome State Fault Refusal := .next (sendAndWait data s)

/-- DUMP_LAST: `send(CHUNK[0..7], waitForAck = true)` (43 R240). -/
def execDumpLast (data : List Byte) (s : State) : Host.Outcome State Fault Refusal := .next (sendAndWait data s)

end Sys2Proof.Machine
end

