-- ==== Sys2Proof/Machine/Dispatch.lean ====
section
/-! DEFINITION. One meaning per row of the opcode table. -/

namespace Sys2Proof.Machine

def exec (i : Instr) (s : State) : Host.Outcome State Fault Refusal :=
  match i with
  | .read a => Sys2Proof.Machine.execRead a s
  | .write a v => Sys2Proof.Machine.execWrite a v s
  | .dump => Sys2Proof.Machine.execDump s
  | .load total => Sys2Proof.Machine.execLoad total s
  | .reset => Sys2Proof.Machine.execReset s
  | .unknown payload => Sys2Proof.Machine.execUnknown payload s
  | .illegalLen64 n => Sys2Proof.Machine.execIllegalLen64 n s
  | .illegalLen128 n => Sys2Proof.Machine.execIllegalLen128 n s
  | .ack => Sys2Proof.Machine.execAck s
  | .resetSentinel => Sys2Proof.Machine.execResetSentinel s
  | .ackwaitUnexpected payload => Sys2Proof.Machine.execAckwaitUnexpected payload s
  | .loadChunk data => Sys2Proof.Machine.execLoadChunk data s
  | .readReply v => Sys2Proof.Machine.execReadReply v s
  | .ackOut => Sys2Proof.Machine.execAckOut s
  | .dumpChunk data => Sys2Proof.Machine.execDumpChunk data s
  | .dumpLast data => Sys2Proof.Machine.execDumpLast data s

end Sys2Proof.Machine
end

