-- ==== Sys2Proof/Machine/Suspend.lean ====
section
/-! DEFINITION. The block between two waits (00_scope R14). Every instruction once more, cut at its delays: `start` runs
it to its first wait, where CS is DELAY(T) with the rest of the events and a Task (10_state R23), and `resume` goes on
after the last event of a procedure. `finish` goes on to the wait for a byte, through the delays, as exec does. -/

namespace Sys2Proof.Machine

/-- The end of an iteration follows at once: REPORT is no wait (00_scope R14, 42 R220). -/
def conclude (s : State) : State :=
  match s.cs with
  | .report => report s
  | .boot => s
  | .len _ => s
  | .payload _ _ _ _ => s
  | .exec _ => s
  | .delay _ _ _ => s

/-- An outcome, with the report where an iteration ends. -/
def concluded (o : Host.Outcome State Fault Refusal) : Host.Outcome State Fault Refusal :=
  andThen o fun s => .next (conclude s)

/-- Go on with a task to the wait for a byte, on through the delays. -/
def finish (k : Task) (s : State) : Host.Outcome State Fault Refusal :=
  match k with
  | .boot => .next { s with cs := .len .idle }
  | .readReply => .next (report (replyRead s))
  | .writeReply => .next (report (replyWrite s))
  | .dumpByte =>
    let s1 := pushChunk s.opd.sampled s
    .next (conclude (if s1.dump.chlen = maxPayload then sendAndWait s1.chunkBytes s1
      else dumpLoop (maxPayload + 1) (nextAddress s1)))
  | .loadOpen => .next (conclude (loadContinue (openLoad s)))
  | .loadByte bs => concluded (andThen (programBytes bs (countByte s)) fun s1 => .next (loadContinue s1))
  | .close => .next (report { s with cs := .report })

/-- The delay of an event. -/
def Prim.asDelay : Prim → Option DelayName
  | .delay t => some t
  | .setDir _ => none
  | .setD _ => none
  | .setCE _ => none
  | .setOE _ => none
  | .setWE _ => none
  | .setSER _ => none
  | .setSRCLK _ => none
  | .setRCLK _ => none
  | .sampleD => none
  | .setMode _ => none

/-- Events up to the first delay: the state there, and the delay with the events after it, if there is one. -/
def runToDelay : List Prim → State → State × Option (DelayName × List Prim)
  | [], s => (s, none)
  | p :: ps, s =>
    match p.asDelay with
    | some t => (s, some (t, ps))
    | none => runToDelay ps (p.run s)

/-- Run events to the first delay and rest there (10_state R23, DELAY(T)); `last` is what follows when none is left. -/
def advance (ps : List Prim) (k : Task) (last : State → Host.Outcome State Fault Refusal) (s : State) :
    Host.Outcome State Fault Refusal :=
  match runToDelay ps s with
  | (s1, some (t, rest)) => .next { s1 with cs := .delay t rest k }
  | (s1, none) => last s1

/-- Begin a procedure whose task follows. A procedure without a delay is a mode entry that is a no-op (40 R137). -/
def suspend (ps : List Prim) (k : Task) (s : State) : Host.Outcome State Fault Refusal := advance ps k (finish k) s

/-- The next iteration of the loop of dump(), to its next wait (43 R240). -/
def dumpOn (s : State) : Host.Outcome State Fault Refusal :=
  if memSize ≤ s.dump.daddr.toNat then .next (conclude (dumpTail s))
  else suspend (readEvents s.mode s.dump.daddr) .dumpByte s

/-- The loop test of load(), to its next wait (43 R243). -/
def loadOn (s : State) : Host.Outcome State Fault Refusal :=
  if s.load.ldone.toNat < s.load.ltotal.toNat then .next { s with cs := .len .load }
  else suspend (enterStandby s.mode) .close s

/-- The next byte of a LOAD chunk, to its next wait (43 R243, R244; 40 R142, R143). -/
def programOn (bs : List Byte) (s : State) : Host.Outcome State Fault Refusal :=
  match bs with
  | [] => loadOn s
  | b :: bs =>
    if s.load.ldone.toNat = s.load.ltotal.toNat then loadOn s
    else if s.mode ≠ .write then .fault .writeOutsideWriteMode
    else if addrRefused s.cfg s.load.laddr then .refused .refusedAddr15
    else suspend (writeEvents s.load.laddr b ++ [.delay .interWrite]) (.loadByte bs) s

/-- Go on with a task to the next wait. -/
def resume (k : Task) (s : State) : Host.Outcome State Fault Refusal :=
  match k with
  | .boot => finish .boot s
  | .readReply => finish .readReply s
  | .writeReply => finish .writeReply s
  | .dumpByte =>
    let s1 := pushChunk s.opd.sampled s
    if s1.dump.chlen = maxPayload then .next (sendAndWait s1.chunkBytes s1) else dumpOn (nextAddress s1)
  | .loadOpen => loadOn (openLoad s)
  | .loadByte bs => programOn bs (countByte s)
  | .close => finish .close s

/-- `raise Err(e)` to its next wait: a delay of the cleanup, or the end of the iteration (60 R274, R275). -/
def suspendRaise (e : Err) (s : State) : Host.Outcome State Fault Refusal :=
  suspend (enterStandby s.mode) .close { s with err := e }

/-- READ to its first wait (42 R213). -/
def startRead (a : Addr) (s : State) : Host.Outcome State Fault Refusal :=
  if addrRefused s.cfg a then .refused .refusedAddr15
  else suspend (readEvents s.mode a) .readReply { s with opd := s.opd.setA a }

/-- WRITE to its first wait (42 R214). -/
def startWrite (a : Addr) (v : Byte) (s : State) : Host.Outcome State Fault Refusal :=
  if addrRefused s.cfg a then .refused .refusedAddr15
  else
    suspend (enterWrite s.mode ++ writeEvents a v ++ enterStandby .write) .writeReply
      { s with opd := (s.opd.setA a).setV v }

/-- LOAD to its first wait (42 R216, 43 R243). -/
def startLoad (total : Addr) (s : State) : Host.Outcome State Fault Refusal :=
  if loadRefused s.cfg total then .refused .refusedAddr15
  else suspend (enterWrite s.mode) .loadOpen (sendFrame [] (setTotal total s))

/-- An overlong length to its next wait (41 R184). -/
def startOverlong (s : State) : Host.Outcome State Fault Refusal :=
  match s.cfg.overlong with
  | .lengthOnly => suspendRaise .frameCorrupt s
  | .capacity => .next (overlong s)

/-- ACK to its next wait (43 R240). -/
def startAck (s : State) : Host.Outcome State Fault Refusal :=
  if s.dump.chlen = maxPayload then dumpOn (nextChunk s) else concluded (execAck s)

/-- An instruction to its first wait (00_scope R14). -/
def start (i : Instr) (s : State) : Host.Outcome State Fault Refusal :=
  match i with
  | .read a => startRead a s
  | .write a v => startWrite a v s
  | .dump => dumpOn (firstChunk s)
  | .load total => startLoad total s
  | .reset => concluded (execReset s)
  | .unknown _ => suspendRaise .unknown s
  | .illegalLen64 _ => startOverlong s
  | .illegalLen128 _ => startOverlong s
  | .ack => startAck s
  | .resetSentinel => suspendRaise .resetRequested s
  | .ackwaitUnexpected _ => suspendRaise .unexpectedFrame s
  | .loadChunk data => programOn data (txByte 0x00 s)
  | .readReply v => concluded (execReadReply v s)
  | .ackOut => concluded (execAckOut s)
  | .dumpChunk data => concluded (execDumpChunk data s)
  | .dumpLast data => concluded (execDumpLast data s)

end Sys2Proof.Machine
end

