-- ==== Sys2Proof/Machine/Receive.lean ====
section
/-! DEFINITION. The byte-level receive (41_transport R180-R185), the reset sequence (70 R300), a loss of power
(70 R302), and the block's own move. -/

namespace Sys2Proof.Machine

/-- Run an instruction: to the wait for a byte, which is exec, or to its first wait of any kind. -/
def perform (p : Pace) (i : Instr) (s : State) : Host.Outcome State Fault Refusal :=
  match p with
  | .toByte => concluded (exec i s)
  | .toWait => start i s

/-- `raise Err(e)` and what follows it. -/
def raiseOn (p : Pace) (e : Err) (s : State) : Host.Outcome State Fault Refusal :=
  match p with
  | .toByte => concluded (.next (raiseErr e s))
  | .toWait => suspendRaise e s

/-- A delay ends, and its procedure goes on (00_scope R14, 10_state R23). -/
def proceed (p : Pace) (t : DelayName) (rest : List Prim) (k : Task) (s : State) : Host.Outcome State Fault Refusal :=
  match p with
  | .toByte => finish k (runPrims rest (runDelay t s))
  | .toWait => advance rest k (resume k) (runDelay t s)

/-- A length byte has been taken: an illegal one is an instruction of its own; a legal one starts the payload wait, or,
when it is 0, the frame is complete and runs at once (41 R183, R184). -/
def takeLength (p : Pace) (c : RxContext) (n : Byte) (s : State) : Host.Outcome State Fault Refusal :=
  if h : n.toNat < 64 then
    if n = 0 then perform p (classify c []) { s with rx := { buf := s.rx.buf, len := 0 }, cs := .exec c }
    else .next { s with cs := .payload c ⟨n.toNat, h⟩ 0 false }
  else perform p (classifyIllegal n) s

/-- RXBUF and RXLEN with the last byte of a frame, about to be executed (41 R183). -/
def frameDone (c : RxContext) (n : Fin 64) (k : Nat) (b : Byte) (s : State) : State :=
  { s with rx := { buf := s.rx.buf.setIfInBounds k b, len := n }, cs := .exec c }

/-- A payload byte has been taken: stored, and the frame runs at once when it was the last (41 R183); or discarded, and
FRAME_CORRUPT is raised when it was the last of the capacity (41 R183, R184). -/
def takePayload (p : Pace) (c : RxContext) (n : Fin 64) (k : Nat) (discard : Bool) (b : Byte) (s : State) :
    Host.Outcome State Fault Refusal :=
  if discard then
    if n.val ≤ k + 1 then raiseOn p .frameCorrupt s else .next { s with cs := .payload c n (k + 1) true }
  else if n.val ≤ k + 1 then perform p (classify c (frameDone c n k b s).rxPayload) (frameDone c n k b s)
  else .next { putRxbuf k b s with cs := .payload c n (k + 1) false }

/-- The reset sequence up to its delay; the optional lines, where present, take their levels (70 R300, 10_state R28). -/
def bootSequence (s : State) : State :=
  { runPrims bootLines s with
    sr := (runPrims bootLines s).sr.hold, led := false, mode := .standby, err := .ok, cs := .delay .modeSettle [] .boot }

/-- The block waits for a byte and RXQ is empty (41 R180-R182). -/
def State.waiting (s : State) : Bool :=
  s.rxq.isEmpty &&
    match s.cs with
    | .len _ => true
    | .payload _ _ _ _ => true
    | .boot => false
    | .exec _ => false
    | .delay _ _ _ => false
    | .report => false

/-- The block's move: from where it is to a wait (00_scope R14). -/
def blockMove (p : Pace) (s : State) : Host.Outcome State Fault Refusal :=
  match s.cs with
  | .boot =>
    match p with
    | .toByte => proceed .toByte .modeSettle [] .boot (bootSequence s)
    | .toWait => .next (bootSequence s)
  | .delay t rest k => proceed p t rest k s
  | .len c =>
    match s.rxq with
    | [] => .next s
    | n :: q => takeLength p c n { s with rxq := q }
  | .payload c n k d =>
    match s.rxq with
    | [] => .next s
    | b :: q => takePayload p c n k d b { s with rxq := q }
  | .exec c => perform p (classify c s.rxPayload) s
  | .report => .next (report s)

/-- TIMEOUT: only in a wait of RxByteT, which every payload byte is, and a length byte under BOUNDED (41 R180-R182);
elsewhere nothing (log 11). -/
def timeout (p : Pace) (s : State) : Host.Outcome State Fault Refusal :=
  if s.waiting then
    match s.cs with
    | .len _ =>
      match s.cfg.lenWait with
      | .none => .next s
      | .bounded => raiseOn p .frameCorrupt s
    | .payload _ _ _ _ => raiseOn p .frameCorrupt s
    | .boot => .next s
    | .exec _ => .next s
    | .delay _ _ _ => .next s
    | .report => .next s
  else .next s

/-- Power is lost and comes back: MEM stays but for the cell of a pending write, which is any value; everything else is
as after reset; the parameters, the draw counter and the coming moves are no state of the chip (70 R301, R302; log 18). -/
def powerCycle (s : State) : State :=
  match s.pend with
  | none => { State.reset with cfg := s.cfg, sr := s.sr.atReset, mem := s.mem, draws := s.draws, sched := s.sched }
  | some (i, _) =>
    { State.reset with
      cfg := s.cfg, sr := s.sr.atReset, mem := Memory.write s.mem i (Config.freeByte s.draws), draws := s.draws + 1, sched := s.sched }

/-- One move of an agent (00_scope R15; log 5). -/
def runMove (m : Move) (s : State) : Host.Outcome State Fault Refusal :=
  match m with
  | .block p => blockMove p s
  | .hostSend bytes => .next { s with rxq := s.rxq ++ bytes }
  | .deviceCommit => .next (commit s)
  | .rxTimeout p => timeout p s
  | .powerCycle => .next (powerCycle s)

/-- The move when the schedule has run out: the block's, but while it waits a pending write cycle commits (20_memory
R70's fairness; log 12). -/
def restMove (s : State) : Host.Outcome State Fault Refusal :=
  if s.waiting && s.pend.isSome then .next (commit s) else blockMove .toByte s

end Sys2Proof.Machine
end

