-- ==== Sys2Proof/Machine/Step.lean ====
section
/-! DEFINITION. One step: the next scheduled move, or the move at rest; and where the next instruction stands. -/

namespace Sys2Proof.Machine

/-- One step of the machine (00_scope R14, R15; log 5). -/
def step (s : State) : Host.Outcome State Fault Refusal :=
  match s.sched with
  | [] => restMove s
  | m :: ms => runMove m { s with sched := ms }

/-- The state with a table row's instruction standing where the very next step takes it: a legal frame in RXBUF and
RXLEN with CS = EXEC of the receive context the state is in, an illegal length at the head of RXQ with CS in that
context's length wait; bytes the row has beyond its frame wait in RXQ; the block moves next (log 20). -/
def State.withFetchWord (s : State) (nbits w : Nat) : State :=
  match tableBytes nbits w with
  | [] => s
  | n :: rest =>
    if h : n.toNat < 64 then
      { s with
        sched := [], cs := .exec s.cs.context,
        rx := { buf := fillRxbuf 0 (rest.take n.toNat) s.rx.buf, len := ⟨n.toNat, h⟩ },
        rxq := ((tableBytes nbits w).take ((nbits + 7) / 8)).drop (n.toNat + 1) ++ s.rxq }
    else
      { s with
        sched := [], cs := .len s.cs.context,
        rxq := (tableBytes nbits w).take ((nbits + 7) / 8) ++ s.rxq }

end Sys2Proof.Machine
end

