-- ==== Sys2Proof/Safety.lean ====
section
/-! DEFINITION. The terms claims use: line levels that agree with MODE (10_state R38), the invariant of the machine,
and the byte streams and memory contents the bulk rules speak of (43_bulk R241, R244). -/

namespace Sys2Proof.Machine

/-- The line levels are those of MODE (10_state R38). -/
structure State.LinesMatch (s : State) : Prop where
  ddir : s.pins.ddir = s.mode.ddir
  ce : s.pins.ce = s.mode.ce
  oe : s.pins.oe = s.mode.oe
  we : s.pins.we = s.mode.we

/-- Both shift-register clocks are low, as loadAddress leaves them (40 R132). -/
structure State.ClocksLow (s : State) : Prop where
  srclk : s.sr.srclk = false
  rclk : s.sr.rclk = false

/-- The state with MODE and the lines of a mode (10_state R38). -/
def State.atMode (m : Mode) (s : State) : State :=
  { s with mode := m, pins := { ddir := m.ddir, dout := s.pins.dout, ce := m.ce, oe := m.oe, we := m.we } }

/-- The context of the receive or execution a control state is in, none outside one. -/
def CS.receiving : CS → Option RxContext
  | .boot => none
  | .len c => some c
  | .payload c _ _ _ => some c
  | .exec c => some c
  | .delay _ _ _ => none
  | .report => none

/-- The events that follow the delay the block rests in (10_state R23). -/
def CS.events : CS → List Prim
  | .boot => []
  | .len _ => []
  | .payload _ _ _ _ => []
  | .exec _ => []
  | .delay _ rest _ => rest
  | .report => []

/-- The task of the procedure the block rests in, none outside a delay (10_state R23). -/
def CS.task : CS → Option Task
  | .boot => none
  | .len _ => none
  | .payload _ _ _ _ => none
  | .exec _ => none
  | .delay _ _ k => some k
  | .report => none

/-- A wait of the block: RxByte, RxByteT or Delay (00_scope R14). -/
def CS.IsWait : CS → Prop
  | .boot => False
  | .len _ => True
  | .payload _ _ _ _ => True
  | .exec _ => False
  | .delay _ _ _ => True
  | .report => False

/-- The state where the events of the procedure the block rests in lead; the state itself outside a delay. -/
def State.ahead (s : State) : State := runPrims s.cs.events s

/-- A state from which the machine may be launched: the values 10_state R46 states for reset, and for every other element
any value: what R46 leaves unspecified, the launch parameters (cfg, mem, rxq, the optional lines; 93 part 2), and the coming
moves (log 5). -/
structure Launch (s : State) : Prop where
  mode : s.mode = .standby
  err : s.err = .ok
  cs : s.cs = .boot
  ddir : s.pins.ddir = .input
  ce : s.pins.ce = .deasserted
  oe : s.pins.oe = .deasserted
  we : s.pins.we = .deasserted
  srclk : s.sr.srclk = false
  rclk : s.sr.rclk = false
  srOe : s.sr.oe ≠ some .deasserted
  srClr : s.sr.clr ≠ some .asserted
  led : s.led = false
  pend : s.pend = none
  txs : s.txs = []
  mem : Memory.wf s.mem = true

/-- MODE when a procedure's events are done, by its task. -/
def Task.mode : Task → Mode
  | .boot => .standby
  | .readReply => .standby
  | .writeReply => .standby
  | .dumpByte => .standby
  | .loadOpen => .write
  | .loadByte _ => .write
  | .close => .standby

/-- MODE between steps, or where the procedure the block rests in leads: WRITE in the whole of a LOAD, STANDBY elsewhere
(42 R222, 43 R249). -/
def CS.modeOf : CS → Mode
  | .boot => .standby
  | .len c => if c = .load then .write else .standby
  | .payload c _ _ _ => if c = .load then .write else .standby
  | .exec c => if c = .load then .write else .standby
  | .delay _ _ k => k.mode
  | .report => .standby

/-- Where a dump stands in an ack-wait: after a full chunk, or after the final one of 8 bytes (43 R240, R241). -/
def State.DumpProgress (s : State) : Prop :=
  (s.dump.daddr.toNat < memSize ∧ s.dump.chlen = maxPayload ∧ (s.dump.daddr.toNat + 1) % maxPayload = 0) ∨
    (s.dump.daddr.toNat = memSize ∧ s.dump.chlen = 8)

/-- Where a load stands in a wait for a chunk (43 R243, R245). -/
def State.LoadProgress (s : State) : Prop :=
  s.load.ldone.toNat < s.load.ltotal.toNat ∧ s.load.laddr.toNat = s.load.ldone.toNat ∧ loadRefused s.cfg s.load.ltotal = false

/-- Where the transfer of the procedure the block rests in stands (43 R240, R243). -/
def State.TaskProgress (s : State) : Task → Prop
  | .boot => True
  | .readReply => True
  | .writeReply => True
  | .dumpByte => s.dump.daddr.toNat < memSize ∧ s.dump.chlen < maxPayload ∧ s.dump.daddr.toNat % maxPayload = s.dump.chlen
  | .loadOpen => loadRefused s.cfg s.load.ltotal = false
  | .loadByte _ => s.LoadProgress
  | .close => True

/-- What the payload wait may hold (10_state R23, 41 R183, R184). -/
def CS.PayloadOk (cfg : Config) : CS → Prop
  | .boot => True
  | .len _ => True
  | .payload _ n k d => k < n.val ∧ (d = true → n.val = maxPayload ∧ cfg.overlong = .capacity)
  | .exec _ => True
  | .delay _ _ _ => True
  | .report => True

/-- The invariant of the machine between steps, in a delay as well. -/
structure MachineInv (s : State) : Prop where
  lines : s.ahead.LinesMatch
  clocks : s.ahead.ClocksLow
  mode : s.ahead.mode = s.cs.modeOf
  bus : ∀ k : Nat, (runPrims (s.cs.events.take k) s).contention = false
  srOe : s.sr.oe ≠ some .deasserted
  srClr : s.sr.clr ≠ some .asserted
  mem : Memory.wf s.mem = true
  err : s.cs ≠ .report → s.cs.task ≠ some .close → s.err = .ok
  payload : CS.PayloadOk s.cfg s.cs
  dump : s.cs.receiving = some .ackWait → s.DumpProgress
  load : s.cs.receiving = some .load → s.LoadProgress
  task : ∀ k : Task, s.cs.task = some k → s.TaskProgress k

/-- The bytes of cells `start .. start + n - 1`. -/
def Memory.slice (m : Memory) (start n : Nat) : List Byte := (List.range n).map fun j => Memory.at m (start + j)

/-- The frame of dump chunk `k`: 63 bytes for 0..519, 8 bytes for 520 (43_bulk R241). -/
def chunkFrame (m : Memory) (k : Nat) : List Byte :=
  if k < 520 then 0x3F :: Memory.slice m (63 * k) 63 else 0x08 :: Memory.slice m 32760 8

/-- The frames of dump chunks `0 .. k - 1`, in order (43_bulk R241). -/
def chunkFrames (m : Memory) (k : Nat) : List Byte := (List.range k).flatMap (chunkFrame m)

/-- The bytes of a list programmed at successive addresses from `a`, one after the other (43_bulk R244). -/
def Memory.program : List Byte → Addr → Memory → Memory
  | [], _, m => m
  | b :: bs, a, m => Memory.program bs (a + 1) (Memory.write m (idx a) b)

/-- The byte cell `i` holds after a load of `data` from address 0 (43_bulk R245): the last one programmed there. -/
def loadedByte (m : Memory) (data : List Byte) (i : CellIndex) : Byte :=
  match data[i.toNat + memSize]? with
  | some b => b
  | none => (data[i.toNat]?).getD (Memory.read m i)

end Sys2Proof.Machine
end

