-- ==== Sys2Proof/Certificates/Slice0/Obligations.lean ====
section
/-! DEFINITION. The statements for the provers. -/

open Sys2Proof Sys2Proof.Machine

/-! ## Encoding -/

/-- Decoding the encoding of a well-formed instruction, in a context in which its row is read, gives the instruction and
leaves the bytes after it (30_encoding R90-R106). -/
def Obligations.DecodeOfEncodeReturnsInstruction : Prop :=
  ∀ (i : Instr) (c : FrameContext) (rest : List Byte),
    WellFormed i → i.readIn c = true → decode c (encode i ++ rest) = .ok (i, rest)

/-- What decodes is well-formed, belongs to the context, and the bytes read are its encoding: no bit of a frame is
dropped (30_encoding R90-R106). -/
def Obligations.DecodedBytesAreTheEncoding : Prop :=
  ∀ (c : FrameContext) (bytes rest : List Byte) (i : Instr),
    decode c bytes = .ok (i, rest) → WellFormed i ∧ i.readIn c = true ∧ bytes = encode i ++ rest

/-- The complete command map of idle context: the pair (n, PAYLOAD[0]) selects, everything else, n = 0 included, is
UNKNOWN (R97). -/
def Obligations.IdleFrameSelectsCommandByLengthAndOpcode : Prop :=
  (∀ rest : List Byte, decode (.rx .idle) (0x00 :: rest) = .ok (.unknown [], rest)) ∧
  ∀ (op : Byte) (args rest : List Byte), args.length ≤ 62 →
    decode (.rx .idle) (BitVec.ofNat 8 (args.length + 1) :: op :: (args ++ rest)) =
      .ok (if args.length = 2 ∧ op = 0x72 then .read (be16 (args.getD 0 0) (args.getD 1 0))
           else if args.length = 3 ∧ op = 0x77 then .write (be16 (args.getD 0 0) (args.getD 1 0)) (args.getD 2 0)
           else if args.length = 0 ∧ op = 0x64 then .dump
           else if args.length = 2 ∧ op = 0x6C then .load (be16 (args.getD 0 0) (args.getD 1 0))
           else if args.length = 0 ∧ op = 0x72 then .reset
           else .unknown (op :: args), rest)

/-- The operands: A and LTOTAL are PAYLOAD[1], PAYLOAD[2] with the most significant byte first, neither extended nor scaled,
A's cell is idx(A), V is PAYLOAD[3] unchanged (R94, R95, R96). -/
def Obligations.OperandsAreBigEndian : Prop :=
  ∀ (hi lo v : Byte) (rest : List Byte), ∃ a : Addr,
    a.toNat = hi.toNat * 256 + lo.toNat ∧ (idx a).toNat = (hi.toNat * 256 + lo.toNat) % 32768 ∧
    decode (.rx .idle) (0x03 :: 0x72 :: hi :: lo :: rest) = .ok (.read a, rest) ∧
    decode (.rx .idle) (0x04 :: 0x77 :: hi :: lo :: v :: rest) = .ok (.write a v, rest) ∧
    decode (.rx .idle) (0x03 :: 0x6C :: hi :: lo :: rest) = .ok (.load a, rest)

/-- The frames of the other two contexts: in an ack-wait `00` is the ack, `01 72` the sentinel, and any other legal frame is
unexpected, even one that begins with 0x72 (41_transport section 3); in LOAD every legal frame, `01 72` included, is data
(30_encoding section 4). -/
def Obligations.ReplyAndChunkFramesAreClassified : Prop :=
  ∀ p rest : List Byte, p.length ≤ 63 →
    decode (.rx .ackWait) (BitVec.ofNat 8 p.length :: (p ++ rest)) =
      .ok (if p = [] then .ack else if p = [0x72] then .resetSentinel else .ackwaitUnexpected p, rest) ∧
    decode (.rx .load) (BitVec.ofNat 8 p.length :: (p ++ rest)) = .ok (.loadChunk p, rest)

/-- Length bytes 64..255 are illegal in every receive, whatever follows, and take one byte (30_encoding section 1). -/
def Obligations.IllegalLengthIsOneByte : Prop :=
  ∀ (c : RxContext) (n : Byte) (rest : List Byte), 64 ≤ n.toNat →
    decode (.rx c) (n :: rest) = .ok (if n.toNat < 128 then .illegalLen64 n else .illegalLen128 n, rest)

/-- Words written out from the spec's layouts (30_encoding R98-R105). -/
def Obligations.SampleFramesDecode : Prop :=
  decode (.rx .idle) [0x03, 0x72, 0x00, 0x10] = .ok (.read 0x0010, []) ∧
  decode (.rx .idle) [0x04, 0x77, 0x00, 0x10, 0xAB] = .ok (.write 0x0010 0xAB, []) ∧
  decode (.rx .idle) [0x01, 0x64, 0x00] = .ok (.dump, [0x00]) ∧
  decode (.rx .ackWait) [0x01, 0x72] = .ok (.resetSentinel, []) ∧
  decode .tx [0x01, 0xAB] = .ok (.readReply 0xAB, [])

/-! ## Lines, shift register, bus modes -/

/-- Bus contention never occurs, after any single event of any procedure started with the lines of MODE; and in the reset
sequence after its first event, from any levels whatever (40_bus_and_access R140, which the spec derives "from rules
R134–R138 and R142"; what `dev_drives` is, it takes from general knowledge, log 17). -/
def Obligations.NoContentionAfterAnyEvent : Prop :=
  (∀ (s : State) (a : Addr) (v : Byte) (k : Nat), s.LinesMatch →
    (runPrims ((enterStandby s.mode).take k) s).contention = false ∧
    (runPrims ((enterRead s.mode).take k) s).contention = false ∧
    (runPrims ((enterWrite s.mode).take k) s).contention = false ∧
    (runPrims ((readEvents s.mode a).take k) s).contention = false ∧
    (s.mode = .write → (runPrims ((writeEvents a v).take k) s).contention = false)) ∧
  (∀ (s : State) (k : Nat), 0 < k → (runPrims (bootLines.take k) s).contention = false)

/-- Each entry into a mode, from every mode, leaves MODE and the lines of that mode (40_bus_and_access section 2) and
nothing else changed. -/
def Obligations.ModeEntrySetsTheLines : Prop :=
  ∀ s : State, s.LinesMatch →
    runPrims (enterStandby s.mode) s =
      { s with mode := .standby
               pins := { ddir := .input, dout := s.pins.dout, ce := .deasserted, oe := .deasserted, we := .deasserted } } ∧
    runPrims (enterRead s.mode) s =
      { s with mode := .read
               pins := { ddir := .input, dout := s.pins.dout, ce := .asserted, oe := .asserted, we := .deasserted } } ∧
    runPrims (enterWrite s.mode) s =
      { s with mode := .write
               pins := { ddir := .output, dout := s.pins.dout, ce := .asserted, oe := .deasserted, we := .deasserted } }

/-- A mode entry while MODE already equals its target makes no event at all and changes nothing (R137). -/
def Obligations.ModeEntryIsIdempotent : Prop :=
  (∀ s : State, s.mode = .standby → enterStandby s.mode = [] ∧ runPrims (enterStandby s.mode) s = s) ∧
  (∀ s : State, s.mode = .read → enterRead s.mode = [] ∧ runPrims (enterRead s.mode) s = s) ∧
  (∀ s : State, s.mode = .write → enterWrite s.mode = [] ∧ runPrims (enterWrite s.mode) s = s)

/-- The postcondition of loadAddress under P_SR, and its frame (40_bus_and_access R132, which the spec derives "from rules
R130 and R131"). -/
def Obligations.LoadAddressLatchesTheAddress : Prop :=
  ∀ (a : Addr) (s : State), s.ClocksLow → PSr s.cfg →
    runPrims (loadAddress a) s =
      { s with sr := { ser := a.getLsbD 0, srclk := false, rclk := false, oe := s.sr.oe, clr := s.sr.clr,
                       shift := a, out := a } }

/-- The shift register under P_SR: a rising edge of SRCLK shifts SER in at bit 0, a rising edge of RCLK latches, and no
other event changes either stage (40_bus_and_access R131, whose edges the spec takes from general knowledge, log 17). -/
def Obligations.ShiftRegisterActsOnRisingEdges : Prop :=
  ∀ (p : Prim) (s : State), PSr s.cfg →
    (p = .setSRCLK true ∧ s.sr.srclk = false →
      (p.run s).sr.shift.toNat = (s.sr.shift.toNat % 32768) * 2 + s.sr.ser.toNat ∧ (p.run s).sr.out = s.sr.out) ∧
    (p = .setRCLK true ∧ s.sr.rclk = false →
      (p.run s).sr.out = s.sr.shift ∧ (p.run s).sr.shift = s.sr.shift) ∧
    (¬ (p = .setSRCLK true ∧ s.sr.srclk = false) → ¬ (p = .setRCLK true ∧ s.sr.rclk = false) →
      (p.run s).sr.out = s.sr.out ∧ (p.run s).sr.shift = s.sr.shift)

/-- In a write() the program strobe is WE's transition from ASSERTED to DEASSERTED, which happens, and is the only event at
which the device's write cycle or MEM changes; and while WE is asserted the address, the data and the pin direction do not
change (40_bus_and_access R144, which the spec derives "from rule R142"). -/
def Obligations.AddressAndDataStableWhileWriteEnabled : Prop :=
  ∀ (s : State) (a : Addr) (v : Byte), s.LinesMatch → s.mode = .write →
    (∃ out : Addr, ∀ k : Nat,
      (runPrims ((writeEvents a v).take k) s).pins.we = .asserted →
        (runPrims ((writeEvents a v).take k) s).sr.out = out ∧
        (runPrims ((writeEvents a v).take k) s).pins.dout = v ∧
        (runPrims ((writeEvents a v).take k) s).pins.ddir = .output) ∧
    (∃ k : Nat, (runPrims ((writeEvents a v).take k) s).pins.we = .asserted ∧
      (runPrims ((writeEvents a v).take (k + 1)) s).pins.we = .deasserted) ∧
    (∀ k : Nat,
      ((runPrims ((writeEvents a v).take (k + 1)) s).pend ≠ (runPrims ((writeEvents a v).take k) s).pend ∨
        (runPrims ((writeEvents a v).take (k + 1)) s).mem ≠ (runPrims ((writeEvents a v).take k) s).mem) →
      (runPrims ((writeEvents a v).take k) s).pins.we = .asserted ∧
        (runPrims ((writeEvents a v).take (k + 1)) s).pins.we = .deasserted)

/-- The event counts of loadAddress, of read from STANDBY and of write (70_reset_and_hazards section 4), for every
address and value. -/
def Obligations.ProceduresHaveTheirEventCounts : Prop :=
  ∀ (a : Addr) (v : Byte),
    ((loadAddress a).filter Prim.isLineWrite).length = 50 ∧ ((loadAddress a).filter Prim.isDelay).length = 34 ∧
    ((readEvents .standby a).filter Prim.isLineWrite).length = 58 ∧
    ((readEvents .standby a).filter Prim.isDelay).length = 37 ∧
    (readEvents .standby a).count .sampleD = 1 ∧
    ((writeEvents a v).filter Prim.isLineWrite).length = 53 ∧ ((writeEvents a v).filter Prim.isDelay).length = 37

/-! ## The device -/

/-- write() in WRITE mode with no write cycle pending starts one at idx(addr) with the value, and MEM is unchanged until
the commit (40_bus_and_access section 3, 20_memory R69); under P_SR and P_WRITE. -/
def Obligations.WriteStartsAWriteCycle : Prop :=
  ∀ (a : Addr) (v : Byte) (s : State), s.LinesMatch → s.ClocksLow → s.mode = .write → s.pend = none →
    PSr s.cfg → PWrite s.cfg → addrRefused s.cfg a = false →
    writeByte a v s =
      .next { s with
        pins := { ddir := .output, dout := v, ce := .asserted, oe := .deasserted, we := .deasserted }
        sr := { ser := a.getLsbD 0, srclk := false, rclk := false, oe := s.sr.oe, clr := s.sr.clr, shift := a, out := a }
        pend := some (a.extractLsb' 0 15, v) }

/-- A strobe while a write cycle is pending: the pending cell and the new cell take free values, every other cell stays,
and no write cycle is pending (20_memory R72); under P_SR only. That the two cells get two draws, the pending cell the first,
and that one common cell holds the second, is the model's (log 25), and so is which draws they are (log 6). -/
def Obligations.StrobeDuringAWriteCycleSpoilsBothCells : Prop :=
  ∀ (a : Addr) (v b : Byte) (i : CellIndex) (s : State), s.LinesMatch → s.ClocksLow → s.mode = .write →
    s.pend = some (i, b) → PSr s.cfg → addrRefused s.cfg a = false → Memory.wf s.mem = true →
    ∃ t : State, writeByte a v s = .next t ∧ t.pend = none ∧ Memory.wf t.mem = true ∧
      (∀ j : CellIndex, j ≠ i → j ≠ idx a → Memory.read t.mem j = Memory.read s.mem j) ∧
      (i ≠ idx a → Memory.read t.mem i = Config.freeByte s.draws) ∧
      Memory.read t.mem (idx a) = Config.freeByte (s.draws + 1)

/-- The device's commit step, a scheduled move (log 5), makes the value readable at its cell and nowhere else
(20_memory R70's step). -/
def Obligations.CommitWritesThePendingCell : Prop :=
  ∀ (i : CellIndex) (b : Byte) (ms : List Move) (s : State), s.sched = .deviceCommit :: ms → s.pend = some (i, b) →
    Memory.wf s.mem = true →
    ∃ m : Memory, step s = .next { s with sched := ms, mem := m, pend := none } ∧ Memory.wf m = true ∧
      ∀ j : CellIndex, Memory.read m j = if j = i then b else Memory.read s.mem j

/-- Every step keeps the canonical form of MEM, from every state that has it. -/
def Obligations.StepKeepsMemoryCanonical : Prop :=
  ∀ s t : State, Memory.wf s.mem = true → step s = .next t → Memory.wf t.mem = true

/-! ## Single-frame commands -/

/-- READ: the reply is the cell at idx(A), and the frame of READ (42_commands R213); for every state with the lines of
MODE, no write cycle pending, and the premises P_SR and P_READ_SETTLE. -/
def Obligations.ReadRepliesWithTheCell : Prop :=
  ∀ (a : Addr) (s : State), s.LinesMatch → s.ClocksLow → s.pend = none → PSr s.cfg → PReadSettle s.cfg →
    addrRefused s.cfg a = false →
    exec (.read a) s =
      .next { s with
        mode := .standby, cs := .report
        pins := { ddir := .input, dout := s.pins.dout, ce := .deasserted, oe := .deasserted, we := .deasserted }
        sr := { ser := a.getLsbD 0, srclk := false, rclk := false, oe := s.sr.oe, clr := s.sr.clr, shift := a, out := a }
        opd := { a := a, v := s.opd.v, sampled := Memory.read s.mem (a.extractLsb' 0 15) }
        txs := s.txs ++ [0x01, Memory.read s.mem (a.extractLsb' 0 15)] }

/-- READ whatever the premises and whatever is pending: it completes with a one-byte reply, changes no EEPROM cell and no
pending write, and ends in STANDBY; under P_SR the register holds the address. -/
def Obligations.ReadAlwaysCompletes : Prop :=
  ∀ (a : Addr) (s : State), s.LinesMatch → s.ClocksLow → addrRefused s.cfg a = false →
    ∃ (b : Byte) (x y : Addr) (d : Nat),
      exec (.read a) s =
        .next { s with
          mode := .standby, cs := .report
          pins := { ddir := .input, dout := s.pins.dout, ce := .deasserted, oe := .deasserted, we := .deasserted }
          sr := { ser := a.getLsbD 0, srclk := false, rclk := false, oe := s.sr.oe, clr := s.sr.clr, shift := x, out := y }
          opd := { a := a, v := s.opd.v, sampled := b }
          txs := s.txs ++ [0x01, b]
          draws := d } ∧
      (PSr s.cfg → x = a ∧ y = a)

/-- A READ while a write cycle is pending, of any address, replies with a free value (20_memory R71), MEM and the pending
write as before (R75, 40_bus_and_access R141); under P_SR only, and READ only: P_SR broken is ReadAlwaysCompletes, the reads
of a dump DumpAndAckAlwaysComplete. That the value is the draw at the counter, which advances, is the model's (log 6). -/
def Obligations.ReadDuringAWriteCycleIsAFreeValue : Prop :=
  ∀ (a : Addr) (s : State), s.LinesMatch → s.ClocksLow → s.pend ≠ none → PSr s.cfg → addrRefused s.cfg a = false →
    ∃ t : State, exec (.read a) s = .next t ∧ t.txs = s.txs ++ [0x01, Config.freeByte s.draws] ∧
      t.draws = s.draws + 1 ∧ t.mem = s.mem ∧ t.pend = s.pend

/-- WRITE: the write cycle it starts, the reply, and its frame (42_commands R214); no write cycle pending before, premises
P_SR and P_WRITE. -/
def Obligations.WriteStrobesAndReplies : Prop :=
  ∀ (a : Addr) (v : Byte) (s : State), s.LinesMatch → s.ClocksLow → s.pend = none → PSr s.cfg → PWrite s.cfg →
    addrRefused s.cfg a = false →
    exec (.write a v) s =
      .next { s with
        mode := .standby, cs := .report
        pins := { ddir := .input, dout := v, ce := .deasserted, oe := .deasserted, we := .deasserted }
        sr := { ser := a.getLsbD 0, srclk := false, rclk := false, oe := s.sr.oe, clr := s.sr.clr, shift := a, out := a }
        opd := { a := a, v := v, sampled := s.opd.sampled }
        pend := some (a.extractLsb' 0 15, v)
        txs := s.txs ++ [0x00] }

/-- WRITE whatever the premises and whatever is pending: it completes with the reply `00`, and only the cell the register
addresses and a pending one can differ afterwards; under P_SR the register holds the address. -/
def Obligations.WriteAlwaysCompletes : Prop :=
  ∀ (a : Addr) (v : Byte) (s : State), s.LinesMatch → s.ClocksLow → addrRefused s.cfg a = false →
    Memory.wf s.mem = true →
    ∃ (x y : Addr) (d : Nat) (p : Option (CellIndex × Byte)) (m : Memory),
      exec (.write a v) s =
        .next { s with
          mode := .standby, cs := .report
          pins := { ddir := .input, dout := v, ce := .deasserted, oe := .deasserted, we := .deasserted }
          sr := { ser := a.getLsbD 0, srclk := false, rclk := false, oe := s.sr.oe, clr := s.sr.clr, shift := x, out := y }
          opd := { a := a, v := v, sampled := s.opd.sampled }
          pend := p, mem := m, draws := d
          txs := s.txs ++ [0x00] } ∧
      (PSr s.cfg → x = a ∧ y = a) ∧
      (s.pend = none → m = s.mem ∧ ∃ w : Byte, p = some (idx y, w)) ∧
      (∀ (i : CellIndex) (w : Byte), s.pend = some (i, w) → p = none ∧
        ∀ j : CellIndex, j ≠ i → j ≠ idx y → Memory.read m j = Memory.read s.mem j)

/-- WRITE, then the device's commit, then READ of the same address replies with the value written, and every other address
still reads as before (20_memory R78, 95 W2). -/
def Obligations.WriteThenCommitThenReadReturnsTheValue : Prop :=
  ∀ (a b : Addr) (v : Byte) (s : State), s.LinesMatch → s.ClocksLow → s.pend = none → PSr s.cfg → PWrite s.cfg →
    PReadSettle s.cfg → addrRefused s.cfg a = false → addrRefused s.cfg b = false → Memory.wf s.mem = true →
    ∃ t u : State, exec (.write a v) s = .next t ∧ exec (.read b) (commit t) = .next u ∧
      u.txs = s.txs ++ [0x00, 0x01, if idx b = idx a then v else Memory.read s.mem (idx b)]

/-- RESET in idle context changes nothing and sends nothing, and the iteration ends; the same two bytes are this command in
no other context (R217). -/
def Obligations.ResetIsIgnored : Prop :=
  (∀ s : State, exec .reset s = .next { s with cs := .report }) ∧
  ∀ rest : List Byte,
    decode (.rx .idle) (0x01 :: 0x72 :: rest) = .ok (.reset, rest) ∧
    decode (.rx .ackWait) (0x01 :: 0x72 :: rest) = .ok (.resetSentinel, rest) ∧
    decode (.rx .load) (0x01 :: 0x72 :: rest) = .ok (.loadChunk [0x72], rest)

/-- UNKNOWN changes nothing but ERR: no reply, and MODE, MEM and the lines as in the STANDBY it is met in (R278, R218). -/
def Obligations.UnknownOnlyLatchesTheError : Prop :=
  ∀ (p : List Byte) (s : State), s.mode = .standby →
    exec (.unknown p) s = .next { s with err := .unknown, cs := .report }

/-- An address reaches the cell a[14:0], so 0x8000..0xFFFF alias 0x0000..0x7FFF; under REFUSE the commands that reach an
address with bit 15 set, READ, WRITE (20_memory R62) and a LOAD of more than 32768 bytes (43_bulk R245), are refused, under
ALIAS none is. That a command is refused before any effect, and a LOAD by its total, is log 13. -/
def Obligations.Address15AliasesOrIsRefused : Prop :=
  (∀ a : Addr, (idx a).toNat = a.toNat % 32768 ∧ idx (a ^^^ 0x8000) = idx a) ∧
  ∀ (a : Addr) (v : Byte) (s : State), s.LinesMatch →
    (exec (.read a) s = .refused .refusedAddr15 ↔ s.cfg.addr15 = .refuse ∧ 32768 ≤ a.toNat) ∧
    (exec (.write a v) s = .refused .refusedAddr15 ↔ s.cfg.addr15 = .refuse ∧ 32768 ≤ a.toNat) ∧
    (exec (.load a) s = .refused .refusedAddr15 ↔ s.cfg.addr15 = .refuse ∧ 32768 < a.toNat)

/-! ## Illegal lengths, errors, report -/

/-- An illegal length, in either row: under LENGTH_ONLY it raises FRAME_CORRUPT at once, RXBUF is not written and no further
byte is taken; under CAPACITY the discard wait of the same context begins (41_transport R184). -/
def Obligations.IllegalLengthCompletes : Prop :=
  ∀ (n : Byte) (s : State),
    exec (.illegalLen128 n) s = exec (.illegalLen64 n) s ∧
    (s.cfg.overlong = .lengthOnly → s.LinesMatch →
      exec (.illegalLen64 n) s =
        .next { s with
          err := .frameCorrupt, cs := .report, mode := .standby
          pins := { ddir := .input, dout := s.pins.dout, ce := .deasserted, oe := .deasserted, we := .deasserted } }) ∧
    (s.cfg.overlong = .capacity →
      exec (.illegalLen64 n) s = .next { s with cs := .payload s.cs.context 63 0 true })

/-- An illegal length under CAPACITY: the discard wait of the same context begins; the 63rd byte after it raises
FRAME_CORRUPT, which the same step reports, RXBUF and RXLEN as before, the bytes after them left in RXQ (41_transport R184,
60_exceptions R280; the mark that a wait discards is the model's, log 9, and what level LED shows is open, log 15). -/
def Obligations.CapacityDiscardsSixtyThreeBytes : Prop :=
  ∀ (c : RxContext) (n : Byte) (bytes rest : List Byte) (s : State), s.LinesMatch → s.cfg.overlong = .capacity →
    s.sched = [] → s.cs = .len c → 64 ≤ n.toNat → bytes.length = 63 → s.rxq = n :: (bytes ++ rest) →
    step s = .next { s with rxq := bytes ++ rest, cs := .payload c 63 0 true } ∧
    ∃ l : Bool, Host.Core.run Sys2Proof.core 64 s =
      .next { s with
        rxq := rest, err := .ok, cs := .len .idle, mode := .standby, led := l
        indicated := s.indicated ++ [.frameCorrupt]
        pins := { ddir := .input, dout := s.pins.dout, ce := .deasserted, oe := .deasserted, we := .deasserted } }

/-- `raise Err(e)`: the latch holds e, cleanup has returned the bus to STANDBY, the report is next, and every effect
before the raise stands (R274, R275). -/
def Obligations.RaiseLatchesCleansUpAndReports : Prop :=
  ∀ (e : Err) (s : State), s.LinesMatch →
    raiseErr e s =
      { s with
        err := e, cs := .report, mode := .standby
        pins := { ddir := .input, dout := s.pins.dout, ce := .deasserted, oe := .deasserted, we := .deasserted } }

/-- The report at the end of an iteration: Indicate(ERR) exactly when ERR is not OK, ERR cleared, and the next iteration
begins (R280). What level LED shows afterwards is open (log 15). -/
def Obligations.ReportIndicatesAndClears : Prop :=
  ∀ s : State, s.sched = [] → s.cs = .report →
    ∃ l : Bool, step s =
      .next { s with
        err := .ok, cs := .len .idle, led := l
        indicated := if s.err = .ok then s.indicated else s.indicated ++ [s.err] } ∧
      (s.err = .ok → l = s.led)

/-! ## Bulk transfers -/

/-- DUMP: the first chunk, the cells 0..62, is read in full and sent, and the ack is awaited (43_bulk R240); no write cycle
pending, premises P_SR and P_READ_SETTLE. That DADDR and CHLEN are 62 and 63 during the ack-wait is log 27. -/
def Obligations.DumpSendsTheFirstChunk : Prop :=
  ∀ s : State, s.LinesMatch → s.ClocksLow → s.pend = none → PSr s.cfg → PReadSettle s.cfg →
    ∃ t : State, exec .dump s = .next t ∧
      t = { s with
        mode := .standby, cs := .len .ackWait
        pins := { ddir := .input, dout := s.pins.dout, ce := .deasserted, oe := .deasserted, we := .deasserted }
        sr := { ser := false, srclk := false, rclk := false, oe := s.sr.oe, clr := s.sr.clr, shift := 62, out := 62 }
        opd := { a := s.opd.a, v := s.opd.v, sampled := Memory.at s.mem 62 }
        dump := { chunk := t.dump.chunk, chlen := 63, daddr := 62 }
        txs := s.txs ++ chunkFrame s.mem 0 } ∧
      t.chunkBytes = Memory.slice s.mem 0 63

/-- ACK after full chunk k < 520: the next chunk is read and sent, the register then holds the last address read; after the
final chunk the dump is over and nothing is sent (43_bulk R240, R241). Where DADDR and CHLEN stand in the ack-wait is
log 27. The bytes of CHUNK from CHLEN on are not stated. -/
def Obligations.AckContinuesOrEndsTheDump : Prop :=
  (∀ (k : Nat) (s : State), s.LinesMatch → s.ClocksLow → s.pend = none → PSr s.cfg → PReadSettle s.cfg → k < 520 →
    s.dump.chlen = 63 → s.dump.daddr.toNat = 63 * k + 62 →
    ∃ (t : State) (last : Addr), exec .ack s = .next t ∧
      t = { s with
        mode := .standby, cs := .len .ackWait
        pins := { ddir := .input, dout := s.pins.dout, ce := .deasserted, oe := .deasserted, we := .deasserted }
        sr := { ser := last.getLsbD 0, srclk := false, rclk := false, oe := s.sr.oe, clr := s.sr.clr, shift := last, out := last }
        opd := { a := s.opd.a, v := s.opd.v, sampled := Memory.at s.mem last.toNat }
        dump := t.dump
        txs := s.txs ++ chunkFrame s.mem (k + 1) } ∧
      t.chunkBytes = Memory.slice s.mem (63 * (k + 1)) t.dump.chlen ∧
      (k < 519 → last.toNat = 63 * (k + 1) + 62 ∧ t.dump.daddr.toNat = 63 * (k + 1) + 62 ∧ t.dump.chlen = 63) ∧
      (k = 519 → last.toNat = 32767 ∧ t.dump.daddr.toNat = 32768 ∧ t.dump.chlen = 8)) ∧
  (∀ s : State, s.dump.chlen = 8 → exec .ack s = .next { s with cs := .report })

/-- DUMP and ACK complete whatever the premises and whatever is pending: some bytes are sent, no EEPROM cell, no pending
write and no optional line changes, ERR, A and V are not written. -/
def Obligations.DumpAndAckAlwaysComplete : Prop :=
  ∀ (i : Instr) (s : State), i = .dump ∨ i = .ack → s.LinesMatch → s.ClocksLow →
    ∃ (t : State) (sent : List Byte), exec i s = .next t ∧
      t = { s with cs := t.cs, mode := t.mode, pins := t.pins, sr := t.sr, dump := t.dump
                   opd := { a := s.opd.a, v := s.opd.v, sampled := t.opd.sampled }
                   draws := t.draws, txs := s.txs ++ sent } ∧
      t.LinesMatch ∧ t.ClocksLow ∧ t.sr.oe = s.sr.oe ∧ t.sr.clr = s.sr.clr ∧ t.pins.dout = s.pins.dout ∧
      (t.cs = .len .ackWait ∨ t.cs = .report)

/-- The sentinel and any other frame in an ack-wait fail the send: RESET_REQUESTED or UNEXPECTED_FRAME is latched, no
further chunk is sent, the bus is in STANDBY (41_transport R188, R189; 43_bulk R242). -/
def Obligations.BadReplyAbortsTheDump : Prop :=
  ∀ (p : List Byte) (s : State), s.mode = .standby →
    exec .resetSentinel s = .next { s with err := .resetRequested, cs := .report } ∧
    exec (.ackwaitUnexpected p) s = .next { s with err := .unexpectedFrame, cs := .report }

/-- LOAD: the command ack, then WRITE mode and the wait for the first chunk; LOAD 0 returns to STANDBY and ends
(42_commands R216, 43_bulk R243, R246). -/
def Obligations.LoadAcksAndEntersWrite : Prop :=
  ∀ (total : Addr) (s : State), s.LinesMatch → loadRefused s.cfg total = false →
    (total ≠ 0 → exec (.load total) s =
      .next { s with
        mode := .write, cs := .len .load
        pins := { ddir := .output, dout := s.pins.dout, ce := .asserted, oe := .deasserted, we := .deasserted }
        load := { laddr := 0, ltotal := total, ldone := 0 }
        txs := s.txs ++ [0x00] }) ∧
    (total = 0 → exec (.load total) s =
      .next { s with
        mode := .standby, cs := .report
        pins := { ddir := .input, dout := s.pins.dout, ce := .deasserted, oe := .deasserted, we := .deasserted }
        load := { laddr := 0, ltotal := 0, ldone := 0 }
        txs := s.txs ++ [0x00] })

/-- A LOAD chunk: acked, its first min(n, total - done) bytes programmed at the next addresses and committed, the rest
discarded, every other cell as before, and then the wait for the next chunk in WRITE mode or the end in STANDBY; DOUT is the
last byte programmed and the register holds the last address (43_bulk R244); premises P_SR, P_WRITE, P_PACING, no write
cycle pending. That the ack is sent by the chunk's own exec is log 8, that the commits fall inside its pacing delays
log 7. -/
def Obligations.LoadChunkProgramsItsBytes : Prop :=
  ∀ (data : List Byte) (s : State), s.LinesMatch → s.ClocksLow → s.mode = .write → s.pend = none → PSr s.cfg →
    PWrite s.cfg → PPacing s.cfg → s.LoadProgress → data.length ≤ 63 →
    let n := min data.length (s.load.ltotal.toNat - s.load.ldone.toNat)
    let last := s.load.laddr + BitVec.ofNat 16 (n - 1)
    ∃ t : State, exec (.loadChunk data) s = .next t ∧
      t = { s with
        mode := t.mode, cs := t.cs
        pins := { ddir := t.pins.ddir, dout := (data.take n).getLastD s.pins.dout, ce := t.pins.ce, oe := t.pins.oe, we := t.pins.we }
        sr := if n = 0 then s.sr
              else { ser := last.getLsbD 0, srclk := false, rclk := false, oe := s.sr.oe, clr := s.sr.clr, shift := last, out := last }
        load := { laddr := s.load.laddr + BitVec.ofNat 16 n, ltotal := s.load.ltotal, ldone := s.load.ldone + BitVec.ofNat 32 n }
        mem := Memory.program (data.take n) s.load.laddr s.mem
        txs := s.txs ++ [0x00] } ∧
      t.LinesMatch ∧
      (Memory.wf s.mem = true → ∀ i : CellIndex, (∀ j : Nat, j < n → idx (s.load.laddr + BitVec.ofNat 16 j) ≠ i) →
        Memory.read t.mem i = Memory.read s.mem i) ∧
      (s.load.ldone.toNat + n < s.load.ltotal.toNat → t.cs = .len .load ∧ t.mode = .write) ∧
      (s.load.ldone.toNat + n = s.load.ltotal.toNat → t.cs = .report ∧ t.mode = .standby)

/-- A LOAD chunk completes in WRITE mode in every setting in which its bytes have addresses, whatever is pending: it is
acked and counted, DOUT is the last byte programmed, it waits for the next chunk in WRITE mode or ends in STANDBY, and under
P_SR only the cells it addresses and a pending one can differ afterwards. That the ack is sent by the chunk's own exec is
log 8. -/
def Obligations.LoadChunkAlwaysCompletes : Prop :=
  ∀ (data : List Byte) (s : State), s.LinesMatch → s.ClocksLow → s.mode = .write → s.LoadProgress →
    let n := min data.length (s.load.ltotal.toNat - s.load.ldone.toNat)
    ∃ t : State, exec (.loadChunk data) s = .next t ∧
      t = { s with
        mode := t.mode, cs := t.cs, sr := t.sr
        pins := { ddir := t.pins.ddir, dout := (data.take n).getLastD s.pins.dout, ce := t.pins.ce, oe := t.pins.oe, we := t.pins.we }
        load := { laddr := s.load.laddr + BitVec.ofNat 16 n, ltotal := s.load.ltotal, ldone := s.load.ldone + BitVec.ofNat 32 n }
        mem := t.mem, pend := t.pend, draws := t.draws
        txs := s.txs ++ [0x00] } ∧
      t.LinesMatch ∧ t.ClocksLow ∧ t.sr.oe = s.sr.oe ∧ t.sr.clr = s.sr.clr ∧
      (s.load.ldone.toNat + n < s.load.ltotal.toNat → t.cs = .len .load ∧ t.mode = .write) ∧
      (s.load.ldone.toNat + n = s.load.ltotal.toNat → t.cs = .report ∧ t.mode = .standby) ∧
      (PSr s.cfg → Memory.wf s.mem = true → ∀ i : CellIndex,
        (∀ j : Nat, j < n → idx (s.load.laddr + BitVec.ofNat 16 j) ≠ i) → (∀ b : Byte, s.pend ≠ some (i, b)) →
        Memory.read t.mem i = Memory.read s.mem i)

/-- The frames the block sends: the length octet and the payload are appended to TXS; the dump chunks then await the ack
(30_encoding R105, 41_transport R187). That exec of these four rows is the send, or the ack, that emits them is the model's
(log 19). -/
def Obligations.SentFramesAreAppended : Prop :=
  ∀ (v : Byte) (data : List Byte) (s : State),
    exec (.readReply v) s = .next { s with txs := s.txs ++ [0x01, v] } ∧
    exec .ackOut s = .next { s with txs := s.txs ++ [0x00] } ∧
    (data.length = 63 → exec (.dumpChunk data) s = .next { s with txs := s.txs ++ 0x3F :: data, cs := .len .ackWait }) ∧
    (data.length = 8 → exec (.dumpLast data) s = .next { s with txs := s.txs ++ 0x08 :: data, cs := .len .ackWait })

/-! ## Steps -/

/-- A step runs the decoded instruction: with a whole frame in RXBUF, or with an illegal length at the head of RXQ, which is
then taken, the step is exec of what decodes in the context of the receive, with the report where exec ends the iteration
(00_scope R14), once the block's move to a wait for a byte is next (the schedule of moves is the model's, log 5; its paces
log 7). -/
def Obligations.StepRunsTheDecodedInstruction : Prop :=
  (∀ (c : RxContext) (i : Instr) (rest : List Byte) (s : State), s.cs = .exec c →
    decode (.rx c) (BitVec.ofNat 8 s.rx.len.val :: s.rxPayload) = .ok (i, rest) →
    rest = [] ∧ (s.sched = [] → step s = concluded (exec i s)) ∧
    ∀ ms : List Move, s.sched = .block .toByte :: ms → step s = concluded (exec i { s with sched := ms })) ∧
  (∀ (c : RxContext) (i : Instr) (n : Byte) (q : List Byte) (s : State), s.cs = .len c → s.rxq = n :: q →
    64 ≤ n.toNat → decode (.rx c) (n :: q) = .ok (i, q) →
    (s.sched = [] → step s = concluded (exec i { s with rxq := q })) ∧
    ∀ ms : List Move, s.sched = .block .toByte :: ms → step s = concluded (exec i { s with sched := ms, rxq := q })) ∧
  (∀ t : State, concluded (.next t) = .next (if t.cs = .report then report t else t)) ∧
  (∀ r : Fault, concluded (.fault r) = .fault r) ∧ ∀ r : Refusal, concluded (.refused r) = .refused r

/-- receive(): from the wait for a length byte, a frame at the head of RXQ is taken byte by byte into RXBUF and RXLEN, the
rest of RXQ is left, and the step that takes its last byte runs the instruction it decodes to (41_transport R183, 00_scope
R14). That in LOAD context the ack of R183 and R186 is sent by exec of the chunk, so that TXS is as before where exec begins,
is log 8. -/
def Obligations.ReceiveTakesTheWholeFrame : Prop :=
  ∀ (c : RxContext) (p rest : List Byte) (s : State), s.sched = [] → s.cs = .len c → p.length ≤ 63 →
    s.rxq = BitVec.ofNat 8 p.length :: (p ++ rest) →
    ∃ (i : Instr) (t u : State), decode (.rx c) (BitVec.ofNat 8 p.length :: p) = .ok (i, []) ∧
      Host.Core.run Sys2Proof.core p.length s = .next t ∧ step t = concluded (exec i u) ∧
      u = { s with rx := u.rx, rxq := rest, cs := .exec c } ∧ u.rx.len.val = p.length ∧ u.rxPayload = p

/-- While RXQ is empty and the schedule has run out the block waits, for a length byte or a payload byte, and takes no
TIMEOUT (41_transport section 1); a pending write then commits (that this is how its fairness is met is the model's
choice, log 12). -/
def Obligations.BlockWaitsOnAnEmptyQueue : Prop :=
  ∀ (c : RxContext) (n : Fin 64) (k : Nat) (d : Bool) (s : State), s.sched = [] → s.rxq = [] →
    s.cs = .len c ∨ s.cs = .payload c n k d →
    (s.pend = none → step s = .next s) ∧
    ∀ (i : CellIndex) (b : Byte), s.pend = some (i, b) →
      step s = .next { s with mem := Memory.write s.mem i b, pend := none }

/-- TIMEOUT, a scheduled move (log 11): in a payload wait with RXQ empty it raises FRAME_CORRUPT and no ack is sent; with a
byte in RXQ it is never taken; in a length wait it exists only under BOUNDED (41_transport R180-R185). A move to the wait
for a byte goes on through the cleanup and the report (log 7). -/
def Obligations.TimeoutIsFrameCorrupt : Prop :=
  (∀ (p : Pace) (c : RxContext) (n : Fin 64) (k : Nat) (d : Bool) (ms : List Move) (s : State),
    s.sched = .rxTimeout p :: ms →
    (s.rxq ≠ [] → step s = .next { s with sched := ms }) ∧
    (s.rxq = [] → s.cs = .payload c n k d → step s = raiseOn p .frameCorrupt { s with sched := ms }) ∧
    (s.rxq = [] → s.cs = .len c → s.cfg.lenWait = .none → step s = .next { s with sched := ms }) ∧
    (s.rxq = [] → s.cs = .len c → s.cfg.lenWait = .bounded →
      step s = raiseOn p .frameCorrupt { s with sched := ms })) ∧
  ∀ (e : Err) (s : State), raiseOn .toByte e s = .next (report (raiseErr e s))

/-- RXQ is a FIFO without loss: the host's bytes go to its tail and change nothing else, and any step leaves it, appends
what the host sends, or takes one byte from its head; only a loss of power empties it (10_state R43). -/
def Obligations.ReceiveQueueIsFifo : Prop :=
  (∀ (bytes : List Byte) (ms : List Move) (s : State), s.sched = .hostSend bytes :: ms →
    step s = .next { s with rxq := s.rxq ++ bytes, sched := ms }) ∧
  ∀ s t : State, step s = .next t → (∀ ms, s.sched ≠ .powerCycle :: ms) →
    (∃ bytes : List Byte, t.rxq = s.rxq ++ bytes) ∨ (∃ b : Byte, s.rxq = b :: t.rxq)

/-- TXS is append-only: only a loss of power empties it (10_state R44). -/
def Obligations.TransmitStreamIsAppendOnly : Prop :=
  ∀ s t : State, step s = .next t → (∀ ms, s.sched ≠ .powerCycle :: ms) → ∃ sent : List Byte, t.txs = s.txs ++ sent

/-- No step changes a parameter. -/
def Obligations.StepKeepsTheParameters : Prop :=
  ∀ s t : State, step s = .next t → t.cfg = s.cfg

/-- Only WRITE and a LOAD chunk touch the EEPROM: every other instruction leaves MEM and the pending write as they are,
from every state with the lines of MODE (20_memory R75, 60 R278). -/
def Obligations.OnlyWriteAndLoadChunkTouchTheDevice : Prop :=
  ∀ (i : Instr) (s t : State), s.LinesMatch → exec i s = .next t →
    (∀ (a : Addr) (v : Byte), i ≠ .write a v) → (∀ data : List Byte, i ≠ .loadChunk data) →
    t.mem = s.mem ∧ t.pend = s.pend

/-- EEPROM contents never select what the block does: from two states that differ only in MEM, a step gives the same
control state, MODE, ERR, lines, shift register, queues and counters, and as many bytes sent (20_memory R81). -/
def Obligations.MemoryContentsDoNotSteerTheBlock : Prop :=
  ∀ (s t : State) (m : Memory), step s = .next t →
    ∃ u : State, step { s with mem := m } = .next u ∧
      u.cs = t.cs ∧ u.mode = t.mode ∧ u.err = t.err ∧ u.pins = t.pins ∧ u.sr = t.sr ∧ u.rx = t.rx ∧ u.load = t.load ∧
      u.dump.chlen = t.dump.chlen ∧ u.dump.daddr = t.dump.daddr ∧ u.pend = t.pend ∧ u.rxq = t.rxq ∧
      u.txs.length = t.txs.length ∧ u.indicated = t.indicated ∧ u.draws = t.draws ∧ u.sched = t.sched

/-! ## Reset, power, the invariant -/

/-- State.reset has the values 10_state R46 states; the values R46 leaves unspecified are the model's (log 1) and are not
stated here. -/
def Obligations.ResetHasTheSpecifiedValues : Prop :=
  State.reset.mode = .standby ∧ State.reset.err = .ok ∧ State.reset.cs = .boot ∧ State.reset.pins.ddir = .input ∧
  State.reset.pins.ce = .deasserted ∧ State.reset.pins.oe = .deasserted ∧ State.reset.pins.we = .deasserted ∧
  State.reset.sr.srclk = false ∧ State.reset.sr.rclk = false ∧ State.reset.led = false ∧ State.reset.pend = none ∧
  State.reset.rxq = [] ∧ State.reset.txs = []

/-- The reset sequence, from any line levels whatever: the lines of STANDBY, the clocks low, MODE, ERR and LED set, the
optional lines held, no EEPROM cell touched, and then the wait for the first frame (70_reset_and_hazards R300); a move to the
next wait of any kind rests in its Delay(T_MODE_SETTLE) first (10_state R23; the paces are log 7). -/
def Obligations.ResetSequenceReachesIdle : Prop :=
  ∀ s : State, s.cs = .boot →
    let u : State := { s with
      mode := .standby, err := .ok, led := false, cs := .len .idle
      pins := { ddir := .input, dout := s.pins.dout, ce := .deasserted, oe := .deasserted, we := .deasserted }
      sr := { ser := s.sr.ser, srclk := false, rclk := false, shift := s.sr.shift, out := s.sr.out
              oe := s.sr.oe.map (fun _ => .asserted), clr := s.sr.clr.map (fun _ => .deasserted) } }
    (s.sched = [] → step s = .next u) ∧
    ∀ ms : List Move, s.sched = .block .toWait :: ms →
      step s = .next { u with sched := ms, cs := .delay .modeSettle [] .boot }

/-- A loss of power keeps MEM but for the cell of a pending write, which holds a free value, and no write is pending
afterwards (70_reset_and_hazards R302). That it is a scheduled move, and that the parameters and the schedule are kept, is
log 18; which draw the free value is, log 6. -/
def Obligations.PowerLossKeepsTheOtherCells : Prop :=
  ∀ (ms : List Move) (s : State), s.sched = .powerCycle :: ms → Memory.wf s.mem = true →
    ∃ t : State, step s = .next t ∧ t.pend = none ∧ t.cs = .boot ∧ t.cfg = s.cfg ∧ t.sched = ms ∧
      (s.pend = none → t.mem = s.mem) ∧
      ∀ (i j : CellIndex) (b : Byte), s.pend = some (i, b) →
        Memory.read t.mem j = if j = i then Config.freeByte s.draws else Memory.read s.mem j

/-- The invariant holds after reset. -/
def Obligations.InvariantHoldsAtReset : Prop := MachineInv State.reset

/-- Every step keeps the invariant, in the delays too, where it speaks of the state the procedure's events lead to: the
lines are those of MODE, the clocks are low, no event on the way makes contention, the optional lines stay held (10_state
R28), MEM is canonical, MODE is WRITE in the whole of a LOAD and STANDBY elsewhere, ERR is OK outside the report and the
cleanup before it, a dump waits after a full or the final chunk, a load waits with LADDR = LDONE < LTOTAL. -/
def Obligations.StepKeepsTheInvariant : Prop :=
  ∀ s t : State, MachineInv s → step s = .next t → MachineInv t

/-- From every state that meets the invariant a step never faults, and refuses only a command of idle context that REFUSE
gives no meaning; and a move of the block ends where it waits, for a byte or in a delay (00_scope R14). -/
def Obligations.InvariantStateSteps : Prop :=
  ∀ s : State, MachineInv s →
    (∃ t, step s = .next t ∧ ((s.sched = [] ∨ ∃ p ms, s.sched = .block p :: ms) → t.cs.IsWait)) ∨
      (step s = .refused .refusedAddr15 ∧ s.cfg.addr15 = .refuse ∧ s.cs.receiving = some .idle)

/-- Resting in the delays changes no outcome (00_scope R14, 10_state R23, 70_reset_and_hazards R316): from every state that
meets the invariant, some number of moves to the next wait of any kind ends as the one move to the wait for a byte does, a
refusal included; every state in between is in a delay, and from it that one move still ends so. The two paces are the
model's (log 7). -/
def Obligations.RestingInDelaysChangesNoOutcome : Prop :=
  ∀ (s : State) (ms : List Move) (f : Pace → Move), MachineInv s → f = .block ∨ f = .rxTimeout →
    ∃ n : Nat,
      let r : State := { s with sched := f .toWait :: (List.replicate n (.block .toWait) ++ ms) }
      Host.Core.run Sys2Proof.core (n + 1) r = step { s with sched := f .toByte :: ms } ∧
      ∀ k : Nat, k < n → ∃ (u : State) (t : DelayName) (rest : List Prim) (j : Task),
        Host.Core.run Sys2Proof.core (k + 1) r = .next u ∧ u.cs = .delay t rest j ∧
        step { u with sched := .block .toByte :: ms } = step { s with sched := f .toByte :: ms }

/-- write() outside WRITE mode is the fault WRITE_OUTSIDE_WRITE_MODE, and a LOAD chunk met there stops with it; it is
unreachable: no run from a launch, whatever the host, the device and the platform do, ends in a fault
(40_bus_and_access R143, whose unreachability the spec derives; a launch is log 5). -/
def Obligations.WriteFaultIsUnreachable : Prop :=
  (∀ (a : Addr) (v : Byte) (s : State), s.mode ≠ .write ↔ writeByte a v s = .fault .writeOutsideWriteMode) ∧
  (∀ (b : Byte) (data : List Byte) (s : State), s.mode ≠ .write → s.load.ldone.toNat ≠ s.load.ltotal.toNat →
    exec (.loadChunk (b :: data)) s = .fault .writeOutsideWriteMode) ∧
  ∀ (s : State) (n : Nat) (r : Fault), Launch s → Host.Core.run Sys2Proof.core n s ≠ .fault r

/-- On entry to every iteration MODE is STANDBY and ERR is OK, in every run from a launch (log 5), whatever the host, the
device and the platform do (42_commands R222, which the spec derives). -/
def Obligations.IterationStartsInStandbyWithoutError : Prop :=
  ∀ (s t : State) (n : Nat), Launch s → Host.Core.run Sys2Proof.core n s = .next t → t.cs = .len .idle →
    t.mode = .standby ∧ t.err = .ok

/-! ## Whole transfers -/

/-- A dump with k acks waiting has sent exactly chunks 0..k, in order, and awaits the reply to chunk k
(43_bulk R240-R242); with no other move scheduled (log 5). -/
def Obligations.DumpStreamsOneChunkPerAck : Prop :=
  ∀ (k : Nat) (rest : List Byte) (s : State), MachineInv s → s.sched = [] → s.cs = .exec .idle → s.rxPayload = [0x64] →
    s.pend = none → PSr s.cfg → PReadSettle s.cfg → k ≤ 520 → s.rxq = List.replicate k 0x00 ++ rest →
    ∃ t : State, Host.Core.run Sys2Proof.core (k + 1) s = .next t ∧ t.cs = .len .ackWait ∧ t.mode = .standby ∧
      t.txs = s.txs ++ chunkFrames s.mem (k + 1) ∧ t.rxq = rest ∧ t.mem = s.mem ∧ t.err = .ok

/-- A complete dump: 521 acks, 521 chunks, 33289 bytes sent, 32768 of them the EEPROM's cells in order; then the next
iteration, with nothing to report (43_bulk R241, which the spec derives "from rule R240"); with no other move scheduled
(log 5). -/
def Obligations.CompleteDumpSendsTheWholeDevice : Prop :=
  ∀ (rest : List Byte) (s : State), MachineInv s → s.sched = [] → s.cs = .exec .idle → s.rxPayload = [0x64] →
    s.pend = none → PSr s.cfg → PReadSettle s.cfg → s.rxq = List.replicate dumpChunks 0x00 ++ rest →
    ∃ t : State, Host.Core.run Sys2Proof.core 522 s = .next t ∧ t.cs = .len .idle ∧ t.err = .ok ∧
      t.indicated = s.indicated ∧ t.mode = .standby ∧ t.rxq = rest ∧
      t.mem = s.mem ∧ t.txs = s.txs ++ chunkFrames s.mem dumpChunks ∧ t.txs.length = s.txs.length + 33289

/-- A complete load: whatever the chunk boundaries, exactly LTOTAL bytes are programmed, at 0, 1, ... modulo the device,
each chunk is acked once, the excess of the last chunk is discarded, and the block returns to STANDBY
(43_bulk R243-R245); with no other move scheduled (log 5). -/
def Obligations.CompleteLoadProgramsExactlyTheTotal : Prop :=
  ∀ (chunks : List (List Byte)) (last rest : List Byte) (s : State), MachineInv s → s.sched = [] → s.cs = .len .load →
    s.load.ldone = 0 → s.pend = none → PSr s.cfg → PWrite s.cfg → PPacing s.cfg →
    (∀ c ∈ chunks, c.length ≤ 63) → last.length ≤ 63 →
    chunks.flatten.length < s.load.ltotal.toNat → s.load.ltotal.toNat ≤ chunks.flatten.length + last.length →
    s.rxq = chunks.flatMap frame ++ frame last ++ rest →
    ∃ (n : Nat) (t : State), Host.Core.run Sys2Proof.core n s = .next t ∧ t.cs = .len .idle ∧ t.err = .ok ∧
      t.indicated = s.indicated ∧ t.mode = .standby ∧ t.rxq = rest ∧ t.pend = none ∧
      t.txs = s.txs ++ List.replicate (chunks.length + 1) 0x00 ∧
      t.load.ldone.toNat = s.load.ltotal.toNat ∧
      ∀ i : CellIndex, Memory.read t.mem i =
        loadedByte s.mem ((chunks.flatten ++ last).take s.load.ltotal.toNat) i
end

