-- ==== Sys2Proof/Laws/State.lean ====
section
/-! SUPPORT. One lemma per field per update, true by rfl, so that no proof unfolds a record update. -/

namespace Sys2Proof.Machine

@[simp] theorem Pins.setDdir_ddir (d : Dir) (r : Pins) : (Pins.setDdir d r).ddir = d := rfl

@[simp] theorem Pins.setDdir_dout (d : Dir) (r : Pins) : (Pins.setDdir d r).dout = r.dout := rfl

@[simp] theorem Pins.setDdir_ce (d : Dir) (r : Pins) : (Pins.setDdir d r).ce = r.ce := rfl

@[simp] theorem Pins.setDdir_oe (d : Dir) (r : Pins) : (Pins.setDdir d r).oe = r.oe := rfl

@[simp] theorem Pins.setDdir_we (d : Dir) (r : Pins) : (Pins.setDdir d r).we = r.we := rfl

@[simp] theorem Pins.setDout_ddir (v : Byte) (r : Pins) : (Pins.setDout v r).ddir = r.ddir := rfl

@[simp] theorem Pins.setDout_dout (v : Byte) (r : Pins) : (Pins.setDout v r).dout = v := rfl

@[simp] theorem Pins.setDout_ce (v : Byte) (r : Pins) : (Pins.setDout v r).ce = r.ce := rfl

@[simp] theorem Pins.setDout_oe (v : Byte) (r : Pins) : (Pins.setDout v r).oe = r.oe := rfl

@[simp] theorem Pins.setDout_we (v : Byte) (r : Pins) : (Pins.setDout v r).we = r.we := rfl

@[simp] theorem Pins.setCE_ddir (l : Level) (r : Pins) : (Pins.setCE l r).ddir = r.ddir := rfl

@[simp] theorem Pins.setCE_dout (l : Level) (r : Pins) : (Pins.setCE l r).dout = r.dout := rfl

@[simp] theorem Pins.setCE_ce (l : Level) (r : Pins) : (Pins.setCE l r).ce = l := rfl

@[simp] theorem Pins.setCE_oe (l : Level) (r : Pins) : (Pins.setCE l r).oe = r.oe := rfl

@[simp] theorem Pins.setCE_we (l : Level) (r : Pins) : (Pins.setCE l r).we = r.we := rfl

@[simp] theorem Pins.setOE_ddir (l : Level) (r : Pins) : (Pins.setOE l r).ddir = r.ddir := rfl

@[simp] theorem Pins.setOE_dout (l : Level) (r : Pins) : (Pins.setOE l r).dout = r.dout := rfl

@[simp] theorem Pins.setOE_ce (l : Level) (r : Pins) : (Pins.setOE l r).ce = r.ce := rfl

@[simp] theorem Pins.setOE_oe (l : Level) (r : Pins) : (Pins.setOE l r).oe = l := rfl

@[simp] theorem Pins.setOE_we (l : Level) (r : Pins) : (Pins.setOE l r).we = r.we := rfl

@[simp] theorem Pins.setWE_ddir (l : Level) (r : Pins) : (Pins.setWE l r).ddir = r.ddir := rfl

@[simp] theorem Pins.setWE_dout (l : Level) (r : Pins) : (Pins.setWE l r).dout = r.dout := rfl

@[simp] theorem Pins.setWE_ce (l : Level) (r : Pins) : (Pins.setWE l r).ce = r.ce := rfl

@[simp] theorem Pins.setWE_oe (l : Level) (r : Pins) : (Pins.setWE l r).oe = r.oe := rfl

@[simp] theorem Pins.setWE_we (l : Level) (r : Pins) : (Pins.setWE l r).we = l := rfl

@[simp] theorem ShiftReg.setSer_ser (b : Bool) (r : ShiftReg) : (ShiftReg.setSer b r).ser = b := rfl

@[simp] theorem ShiftReg.setSer_srclk (b : Bool) (r : ShiftReg) : (ShiftReg.setSer b r).srclk = r.srclk := rfl

@[simp] theorem ShiftReg.setSer_rclk (b : Bool) (r : ShiftReg) : (ShiftReg.setSer b r).rclk = r.rclk := rfl

@[simp] theorem ShiftReg.setSer_oe (b : Bool) (r : ShiftReg) : (ShiftReg.setSer b r).oe = r.oe := rfl

@[simp] theorem ShiftReg.setSer_clr (b : Bool) (r : ShiftReg) : (ShiftReg.setSer b r).clr = r.clr := rfl

@[simp] theorem ShiftReg.setSer_shift (b : Bool) (r : ShiftReg) : (ShiftReg.setSer b r).shift = r.shift := rfl

@[simp] theorem ShiftReg.setSer_out (b : Bool) (r : ShiftReg) : (ShiftReg.setSer b r).out = r.out := rfl

@[simp] theorem ShiftReg.setSrclk_ser (b : Bool) (r : ShiftReg) : (ShiftReg.setSrclk b r).ser = r.ser := rfl

@[simp] theorem ShiftReg.setSrclk_srclk (b : Bool) (r : ShiftReg) : (ShiftReg.setSrclk b r).srclk = b := rfl

@[simp] theorem ShiftReg.setSrclk_rclk (b : Bool) (r : ShiftReg) : (ShiftReg.setSrclk b r).rclk = r.rclk := rfl

@[simp] theorem ShiftReg.setSrclk_oe (b : Bool) (r : ShiftReg) : (ShiftReg.setSrclk b r).oe = r.oe := rfl

@[simp] theorem ShiftReg.setSrclk_clr (b : Bool) (r : ShiftReg) : (ShiftReg.setSrclk b r).clr = r.clr := rfl

@[simp] theorem ShiftReg.setSrclk_shift (b : Bool) (r : ShiftReg) : (ShiftReg.setSrclk b r).shift = r.shift := rfl

@[simp] theorem ShiftReg.setSrclk_out (b : Bool) (r : ShiftReg) : (ShiftReg.setSrclk b r).out = r.out := rfl

@[simp] theorem ShiftReg.setRclk_ser (b : Bool) (r : ShiftReg) : (ShiftReg.setRclk b r).ser = r.ser := rfl

@[simp] theorem ShiftReg.setRclk_srclk (b : Bool) (r : ShiftReg) : (ShiftReg.setRclk b r).srclk = r.srclk := rfl

@[simp] theorem ShiftReg.setRclk_rclk (b : Bool) (r : ShiftReg) : (ShiftReg.setRclk b r).rclk = b := rfl

@[simp] theorem ShiftReg.setRclk_oe (b : Bool) (r : ShiftReg) : (ShiftReg.setRclk b r).oe = r.oe := rfl

@[simp] theorem ShiftReg.setRclk_clr (b : Bool) (r : ShiftReg) : (ShiftReg.setRclk b r).clr = r.clr := rfl

@[simp] theorem ShiftReg.setRclk_shift (b : Bool) (r : ShiftReg) : (ShiftReg.setRclk b r).shift = r.shift := rfl

@[simp] theorem ShiftReg.setRclk_out (b : Bool) (r : ShiftReg) : (ShiftReg.setRclk b r).out = r.out := rfl

@[simp] theorem ShiftReg.setShift_ser (v : Addr) (r : ShiftReg) : (ShiftReg.setShift v r).ser = r.ser := rfl

@[simp] theorem ShiftReg.setShift_srclk (v : Addr) (r : ShiftReg) : (ShiftReg.setShift v r).srclk = r.srclk := rfl

@[simp] theorem ShiftReg.setShift_rclk (v : Addr) (r : ShiftReg) : (ShiftReg.setShift v r).rclk = r.rclk := rfl

@[simp] theorem ShiftReg.setShift_oe (v : Addr) (r : ShiftReg) : (ShiftReg.setShift v r).oe = r.oe := rfl

@[simp] theorem ShiftReg.setShift_clr (v : Addr) (r : ShiftReg) : (ShiftReg.setShift v r).clr = r.clr := rfl

@[simp] theorem ShiftReg.setShift_shift (v : Addr) (r : ShiftReg) : (ShiftReg.setShift v r).shift = v := rfl

@[simp] theorem ShiftReg.setShift_out (v : Addr) (r : ShiftReg) : (ShiftReg.setShift v r).out = r.out := rfl

@[simp] theorem ShiftReg.setOut_ser (v : Addr) (r : ShiftReg) : (ShiftReg.setOut v r).ser = r.ser := rfl

@[simp] theorem ShiftReg.setOut_srclk (v : Addr) (r : ShiftReg) : (ShiftReg.setOut v r).srclk = r.srclk := rfl

@[simp] theorem ShiftReg.setOut_rclk (v : Addr) (r : ShiftReg) : (ShiftReg.setOut v r).rclk = r.rclk := rfl

@[simp] theorem ShiftReg.setOut_oe (v : Addr) (r : ShiftReg) : (ShiftReg.setOut v r).oe = r.oe := rfl

@[simp] theorem ShiftReg.setOut_clr (v : Addr) (r : ShiftReg) : (ShiftReg.setOut v r).clr = r.clr := rfl

@[simp] theorem ShiftReg.setOut_shift (v : Addr) (r : ShiftReg) : (ShiftReg.setOut v r).shift = r.shift := rfl

@[simp] theorem ShiftReg.setOut_out (v : Addr) (r : ShiftReg) : (ShiftReg.setOut v r).out = v := rfl

@[simp] theorem OperandRegs.setSampled_a (x : Byte) (r : OperandRegs) : (OperandRegs.setSampled x r).a = r.a := rfl

@[simp] theorem OperandRegs.setSampled_v (x : Byte) (r : OperandRegs) : (OperandRegs.setSampled x r).v = r.v := rfl

@[simp] theorem OperandRegs.setSampled_sampled (x : Byte) (r : OperandRegs) : (OperandRegs.setSampled x r).sampled = x := rfl

@[simp] theorem OperandRegs.setA_a (x : Addr) (r : OperandRegs) : (OperandRegs.setA x r).a = x := rfl

@[simp] theorem OperandRegs.setA_v (x : Addr) (r : OperandRegs) : (OperandRegs.setA x r).v = r.v := rfl

@[simp] theorem OperandRegs.setA_sampled (x : Addr) (r : OperandRegs) : (OperandRegs.setA x r).sampled = r.sampled := rfl

@[simp] theorem OperandRegs.setV_a (x : Byte) (r : OperandRegs) : (OperandRegs.setV x r).a = r.a := rfl

@[simp] theorem OperandRegs.setV_v (x : Byte) (r : OperandRegs) : (OperandRegs.setV x r).v = x := rfl

@[simp] theorem OperandRegs.setV_sampled (x : Byte) (r : OperandRegs) : (OperandRegs.setV x r).sampled = r.sampled := rfl

@[simp] theorem ShiftReg.hold_ser (r : ShiftReg) : r.hold.ser = r.ser := rfl

@[simp] theorem ShiftReg.hold_srclk (r : ShiftReg) : r.hold.srclk = r.srclk := rfl

@[simp] theorem ShiftReg.hold_rclk (r : ShiftReg) : r.hold.rclk = r.rclk := rfl

@[simp] theorem ShiftReg.hold_shift (r : ShiftReg) : r.hold.shift = r.shift := rfl

@[simp] theorem ShiftReg.hold_out (r : ShiftReg) : r.hold.out = r.out := rfl

@[simp] theorem State.drawn_cfg (s : State) : (State.drawn s).cfg = s.cfg := rfl

@[simp] theorem State.drawn_mode (s : State) : (State.drawn s).mode = s.mode := rfl

@[simp] theorem State.drawn_err (s : State) : (State.drawn s).err = s.err := rfl

@[simp] theorem State.drawn_cs (s : State) : (State.drawn s).cs = s.cs := rfl

@[simp] theorem State.drawn_pins (s : State) : (State.drawn s).pins = s.pins := rfl

@[simp] theorem State.drawn_sr (s : State) : (State.drawn s).sr = s.sr := rfl

@[simp] theorem State.drawn_led (s : State) : (State.drawn s).led = s.led := rfl

@[simp] theorem State.drawn_indicated (s : State) : (State.drawn s).indicated = s.indicated := rfl

@[simp] theorem State.drawn_rx (s : State) : (State.drawn s).rx = s.rx := rfl

@[simp] theorem State.drawn_dump (s : State) : (State.drawn s).dump = s.dump := rfl

@[simp] theorem State.drawn_load (s : State) : (State.drawn s).load = s.load := rfl

@[simp] theorem State.drawn_opd (s : State) : (State.drawn s).opd = s.opd := rfl

@[simp] theorem State.drawn_pend (s : State) : (State.drawn s).pend = s.pend := rfl

@[simp] theorem State.drawn_mem (s : State) : (State.drawn s).mem = s.mem := rfl

@[simp] theorem State.drawn_rxq (s : State) : (State.drawn s).rxq = s.rxq := rfl

@[simp] theorem State.drawn_txs (s : State) : (State.drawn s).txs = s.txs := rfl

@[simp] theorem State.drawn_draws (s : State) : (State.drawn s).draws = s.draws + 1 := rfl

@[simp] theorem State.drawn_sched (s : State) : (State.drawn s).sched = s.sched := rfl

@[simp] theorem txByte_cfg (b : Byte) (s : State) : (txByte b s).cfg = s.cfg := rfl

@[simp] theorem txByte_mode (b : Byte) (s : State) : (txByte b s).mode = s.mode := rfl

@[simp] theorem txByte_err (b : Byte) (s : State) : (txByte b s).err = s.err := rfl

@[simp] theorem txByte_cs (b : Byte) (s : State) : (txByte b s).cs = s.cs := rfl

@[simp] theorem txByte_pins (b : Byte) (s : State) : (txByte b s).pins = s.pins := rfl

@[simp] theorem txByte_sr (b : Byte) (s : State) : (txByte b s).sr = s.sr := rfl

@[simp] theorem txByte_led (b : Byte) (s : State) : (txByte b s).led = s.led := rfl

@[simp] theorem txByte_indicated (b : Byte) (s : State) : (txByte b s).indicated = s.indicated := rfl

@[simp] theorem txByte_rx (b : Byte) (s : State) : (txByte b s).rx = s.rx := rfl

@[simp] theorem txByte_dump (b : Byte) (s : State) : (txByte b s).dump = s.dump := rfl

@[simp] theorem txByte_load (b : Byte) (s : State) : (txByte b s).load = s.load := rfl

@[simp] theorem txByte_opd (b : Byte) (s : State) : (txByte b s).opd = s.opd := rfl

@[simp] theorem txByte_pend (b : Byte) (s : State) : (txByte b s).pend = s.pend := rfl

@[simp] theorem txByte_mem (b : Byte) (s : State) : (txByte b s).mem = s.mem := rfl

@[simp] theorem txByte_rxq (b : Byte) (s : State) : (txByte b s).rxq = s.rxq := rfl

@[simp] theorem txByte_txs (b : Byte) (s : State) : (txByte b s).txs = s.txs ++ [b] := rfl

@[simp] theorem txByte_draws (b : Byte) (s : State) : (txByte b s).draws = s.draws := rfl

@[simp] theorem txByte_sched (b : Byte) (s : State) : (txByte b s).sched = s.sched := rfl

@[simp] theorem sendFrame_cfg (p : List Byte) (s : State) : (sendFrame p s).cfg = s.cfg := rfl

@[simp] theorem sendFrame_mode (p : List Byte) (s : State) : (sendFrame p s).mode = s.mode := rfl

@[simp] theorem sendFrame_err (p : List Byte) (s : State) : (sendFrame p s).err = s.err := rfl

@[simp] theorem sendFrame_cs (p : List Byte) (s : State) : (sendFrame p s).cs = s.cs := rfl

@[simp] theorem sendFrame_pins (p : List Byte) (s : State) : (sendFrame p s).pins = s.pins := rfl

@[simp] theorem sendFrame_sr (p : List Byte) (s : State) : (sendFrame p s).sr = s.sr := rfl

@[simp] theorem sendFrame_led (p : List Byte) (s : State) : (sendFrame p s).led = s.led := rfl

@[simp] theorem sendFrame_indicated (p : List Byte) (s : State) : (sendFrame p s).indicated = s.indicated := rfl

@[simp] theorem sendFrame_rx (p : List Byte) (s : State) : (sendFrame p s).rx = s.rx := rfl

@[simp] theorem sendFrame_dump (p : List Byte) (s : State) : (sendFrame p s).dump = s.dump := rfl

@[simp] theorem sendFrame_load (p : List Byte) (s : State) : (sendFrame p s).load = s.load := rfl

@[simp] theorem sendFrame_opd (p : List Byte) (s : State) : (sendFrame p s).opd = s.opd := rfl

@[simp] theorem sendFrame_pend (p : List Byte) (s : State) : (sendFrame p s).pend = s.pend := rfl

@[simp] theorem sendFrame_mem (p : List Byte) (s : State) : (sendFrame p s).mem = s.mem := rfl

@[simp] theorem sendFrame_rxq (p : List Byte) (s : State) : (sendFrame p s).rxq = s.rxq := rfl

@[simp] theorem sendFrame_txs (p : List Byte) (s : State) : (sendFrame p s).txs = s.txs ++ frame p := rfl

@[simp] theorem sendFrame_draws (p : List Byte) (s : State) : (sendFrame p s).draws = s.draws := rfl

@[simp] theorem sendFrame_sched (p : List Byte) (s : State) : (sendFrame p s).sched = s.sched := rfl

@[simp] theorem sendAndWait_cfg (p : List Byte) (s : State) : (sendAndWait p s).cfg = s.cfg := rfl

@[simp] theorem sendAndWait_mode (p : List Byte) (s : State) : (sendAndWait p s).mode = s.mode := rfl

@[simp] theorem sendAndWait_err (p : List Byte) (s : State) : (sendAndWait p s).err = s.err := rfl

@[simp] theorem sendAndWait_cs (p : List Byte) (s : State) : (sendAndWait p s).cs = .len .ackWait := rfl

@[simp] theorem sendAndWait_pins (p : List Byte) (s : State) : (sendAndWait p s).pins = s.pins := rfl

@[simp] theorem sendAndWait_sr (p : List Byte) (s : State) : (sendAndWait p s).sr = s.sr := rfl

@[simp] theorem sendAndWait_led (p : List Byte) (s : State) : (sendAndWait p s).led = s.led := rfl

@[simp] theorem sendAndWait_indicated (p : List Byte) (s : State) : (sendAndWait p s).indicated = s.indicated := rfl

@[simp] theorem sendAndWait_rx (p : List Byte) (s : State) : (sendAndWait p s).rx = s.rx := rfl

@[simp] theorem sendAndWait_dump (p : List Byte) (s : State) : (sendAndWait p s).dump = s.dump := rfl

@[simp] theorem sendAndWait_load (p : List Byte) (s : State) : (sendAndWait p s).load = s.load := rfl

@[simp] theorem sendAndWait_opd (p : List Byte) (s : State) : (sendAndWait p s).opd = s.opd := rfl

@[simp] theorem sendAndWait_pend (p : List Byte) (s : State) : (sendAndWait p s).pend = s.pend := rfl

@[simp] theorem sendAndWait_mem (p : List Byte) (s : State) : (sendAndWait p s).mem = s.mem := rfl

@[simp] theorem sendAndWait_rxq (p : List Byte) (s : State) : (sendAndWait p s).rxq = s.rxq := rfl

@[simp] theorem sendAndWait_txs (p : List Byte) (s : State) : (sendAndWait p s).txs = s.txs ++ frame p := rfl

@[simp] theorem sendAndWait_draws (p : List Byte) (s : State) : (sendAndWait p s).draws = s.draws := rfl

@[simp] theorem sendAndWait_sched (p : List Byte) (s : State) : (sendAndWait p s).sched = s.sched := rfl

@[simp] theorem putRxbuf_cfg (k : Nat) (b : Byte) (s : State) : (putRxbuf k b s).cfg = s.cfg := rfl

@[simp] theorem putRxbuf_mode (k : Nat) (b : Byte) (s : State) : (putRxbuf k b s).mode = s.mode := rfl

@[simp] theorem putRxbuf_err (k : Nat) (b : Byte) (s : State) : (putRxbuf k b s).err = s.err := rfl

@[simp] theorem putRxbuf_cs (k : Nat) (b : Byte) (s : State) : (putRxbuf k b s).cs = s.cs := rfl

@[simp] theorem putRxbuf_pins (k : Nat) (b : Byte) (s : State) : (putRxbuf k b s).pins = s.pins := rfl

@[simp] theorem putRxbuf_sr (k : Nat) (b : Byte) (s : State) : (putRxbuf k b s).sr = s.sr := rfl

@[simp] theorem putRxbuf_led (k : Nat) (b : Byte) (s : State) : (putRxbuf k b s).led = s.led := rfl

@[simp] theorem putRxbuf_indicated (k : Nat) (b : Byte) (s : State) : (putRxbuf k b s).indicated = s.indicated := rfl

@[simp] theorem putRxbuf_rx (k : Nat) (b : Byte) (s : State) :
    (putRxbuf k b s).rx =
      { buf := s.rx.buf.setIfInBounds k b, len := s.rx.len } := rfl

@[simp] theorem putRxbuf_dump (k : Nat) (b : Byte) (s : State) : (putRxbuf k b s).dump = s.dump := rfl

@[simp] theorem putRxbuf_load (k : Nat) (b : Byte) (s : State) : (putRxbuf k b s).load = s.load := rfl

@[simp] theorem putRxbuf_opd (k : Nat) (b : Byte) (s : State) : (putRxbuf k b s).opd = s.opd := rfl

@[simp] theorem putRxbuf_pend (k : Nat) (b : Byte) (s : State) : (putRxbuf k b s).pend = s.pend := rfl

@[simp] theorem putRxbuf_mem (k : Nat) (b : Byte) (s : State) : (putRxbuf k b s).mem = s.mem := rfl

@[simp] theorem putRxbuf_rxq (k : Nat) (b : Byte) (s : State) : (putRxbuf k b s).rxq = s.rxq := rfl

@[simp] theorem putRxbuf_txs (k : Nat) (b : Byte) (s : State) : (putRxbuf k b s).txs = s.txs := rfl

@[simp] theorem putRxbuf_draws (k : Nat) (b : Byte) (s : State) : (putRxbuf k b s).draws = s.draws := rfl

@[simp] theorem putRxbuf_sched (k : Nat) (b : Byte) (s : State) : (putRxbuf k b s).sched = s.sched := rfl

@[simp] theorem pushChunk_cfg (b : Byte) (s : State) : (pushChunk b s).cfg = s.cfg := rfl

@[simp] theorem pushChunk_mode (b : Byte) (s : State) : (pushChunk b s).mode = s.mode := rfl

@[simp] theorem pushChunk_err (b : Byte) (s : State) : (pushChunk b s).err = s.err := rfl

@[simp] theorem pushChunk_cs (b : Byte) (s : State) : (pushChunk b s).cs = s.cs := rfl

@[simp] theorem pushChunk_pins (b : Byte) (s : State) : (pushChunk b s).pins = s.pins := rfl

@[simp] theorem pushChunk_sr (b : Byte) (s : State) : (pushChunk b s).sr = s.sr := rfl

@[simp] theorem pushChunk_led (b : Byte) (s : State) : (pushChunk b s).led = s.led := rfl

@[simp] theorem pushChunk_indicated (b : Byte) (s : State) : (pushChunk b s).indicated = s.indicated := rfl

@[simp] theorem pushChunk_rx (b : Byte) (s : State) : (pushChunk b s).rx = s.rx := rfl

@[simp] theorem pushChunk_dump (b : Byte) (s : State) :
    (pushChunk b s).dump =
      { chunk := s.dump.chunk.setIfInBounds s.dump.chlen b, chlen := s.dump.chlen + 1, daddr := s.dump.daddr } := rfl

@[simp] theorem pushChunk_load (b : Byte) (s : State) : (pushChunk b s).load = s.load := rfl

@[simp] theorem pushChunk_opd (b : Byte) (s : State) : (pushChunk b s).opd = s.opd := rfl

@[simp] theorem pushChunk_pend (b : Byte) (s : State) : (pushChunk b s).pend = s.pend := rfl

@[simp] theorem pushChunk_mem (b : Byte) (s : State) : (pushChunk b s).mem = s.mem := rfl

@[simp] theorem pushChunk_rxq (b : Byte) (s : State) : (pushChunk b s).rxq = s.rxq := rfl

@[simp] theorem pushChunk_txs (b : Byte) (s : State) : (pushChunk b s).txs = s.txs := rfl

@[simp] theorem pushChunk_draws (b : Byte) (s : State) : (pushChunk b s).draws = s.draws := rfl

@[simp] theorem pushChunk_sched (b : Byte) (s : State) : (pushChunk b s).sched = s.sched := rfl

@[simp] theorem indicate_cfg (e : Err) (s : State) : (indicate e s).cfg = s.cfg := rfl

@[simp] theorem indicate_mode (e : Err) (s : State) : (indicate e s).mode = s.mode := rfl

@[simp] theorem indicate_err (e : Err) (s : State) : (indicate e s).err = s.err := rfl

@[simp] theorem indicate_cs (e : Err) (s : State) : (indicate e s).cs = s.cs := rfl

@[simp] theorem indicate_pins (e : Err) (s : State) : (indicate e s).pins = s.pins := rfl

@[simp] theorem indicate_sr (e : Err) (s : State) : (indicate e s).sr = s.sr := rfl

@[simp] theorem indicate_led (e : Err) (s : State) :
    (indicate e s).led =
      (Config.blinkPattern e.code).getLastD s.led := rfl

@[simp] theorem indicate_indicated (e : Err) (s : State) : (indicate e s).indicated = s.indicated ++ [e] := rfl

@[simp] theorem indicate_rx (e : Err) (s : State) : (indicate e s).rx = s.rx := rfl

@[simp] theorem indicate_dump (e : Err) (s : State) : (indicate e s).dump = s.dump := rfl

@[simp] theorem indicate_load (e : Err) (s : State) : (indicate e s).load = s.load := rfl

@[simp] theorem indicate_opd (e : Err) (s : State) : (indicate e s).opd = s.opd := rfl

@[simp] theorem indicate_pend (e : Err) (s : State) : (indicate e s).pend = s.pend := rfl

@[simp] theorem indicate_mem (e : Err) (s : State) : (indicate e s).mem = s.mem := rfl

@[simp] theorem indicate_rxq (e : Err) (s : State) : (indicate e s).rxq = s.rxq := rfl

@[simp] theorem indicate_txs (e : Err) (s : State) : (indicate e s).txs = s.txs := rfl

@[simp] theorem indicate_draws (e : Err) (s : State) : (indicate e s).draws = s.draws := rfl

@[simp] theorem indicate_sched (e : Err) (s : State) : (indicate e s).sched = s.sched := rfl

@[simp] theorem firstChunk_cfg (s : State) : (firstChunk s).cfg = s.cfg := rfl

@[simp] theorem firstChunk_mode (s : State) : (firstChunk s).mode = s.mode := rfl

@[simp] theorem firstChunk_err (s : State) : (firstChunk s).err = s.err := rfl

@[simp] theorem firstChunk_cs (s : State) : (firstChunk s).cs = s.cs := rfl

@[simp] theorem firstChunk_pins (s : State) : (firstChunk s).pins = s.pins := rfl

@[simp] theorem firstChunk_sr (s : State) : (firstChunk s).sr = s.sr := rfl

@[simp] theorem firstChunk_led (s : State) : (firstChunk s).led = s.led := rfl

@[simp] theorem firstChunk_indicated (s : State) : (firstChunk s).indicated = s.indicated := rfl

@[simp] theorem firstChunk_rx (s : State) : (firstChunk s).rx = s.rx := rfl

@[simp] theorem firstChunk_dump (s : State) :
    (firstChunk s).dump =
      { chunk := s.dump.chunk, chlen := 0, daddr := 0 } := rfl

@[simp] theorem firstChunk_load (s : State) : (firstChunk s).load = s.load := rfl

@[simp] theorem firstChunk_opd (s : State) : (firstChunk s).opd = s.opd := rfl

@[simp] theorem firstChunk_pend (s : State) : (firstChunk s).pend = s.pend := rfl

@[simp] theorem firstChunk_mem (s : State) : (firstChunk s).mem = s.mem := rfl

@[simp] theorem firstChunk_rxq (s : State) : (firstChunk s).rxq = s.rxq := rfl

@[simp] theorem firstChunk_txs (s : State) : (firstChunk s).txs = s.txs := rfl

@[simp] theorem firstChunk_draws (s : State) : (firstChunk s).draws = s.draws := rfl

@[simp] theorem firstChunk_sched (s : State) : (firstChunk s).sched = s.sched := rfl

@[simp] theorem nextChunk_cfg (s : State) : (nextChunk s).cfg = s.cfg := rfl

@[simp] theorem nextChunk_mode (s : State) : (nextChunk s).mode = s.mode := rfl

@[simp] theorem nextChunk_err (s : State) : (nextChunk s).err = s.err := rfl

@[simp] theorem nextChunk_cs (s : State) : (nextChunk s).cs = s.cs := rfl

@[simp] theorem nextChunk_pins (s : State) : (nextChunk s).pins = s.pins := rfl

@[simp] theorem nextChunk_sr (s : State) : (nextChunk s).sr = s.sr := rfl

@[simp] theorem nextChunk_led (s : State) : (nextChunk s).led = s.led := rfl

@[simp] theorem nextChunk_indicated (s : State) : (nextChunk s).indicated = s.indicated := rfl

@[simp] theorem nextChunk_rx (s : State) : (nextChunk s).rx = s.rx := rfl

@[simp] theorem nextChunk_dump (s : State) :
    (nextChunk s).dump =
      { chunk := s.dump.chunk, chlen := 0, daddr := s.dump.daddr + 1 } := rfl

@[simp] theorem nextChunk_load (s : State) : (nextChunk s).load = s.load := rfl

@[simp] theorem nextChunk_opd (s : State) : (nextChunk s).opd = s.opd := rfl

@[simp] theorem nextChunk_pend (s : State) : (nextChunk s).pend = s.pend := rfl

@[simp] theorem nextChunk_mem (s : State) : (nextChunk s).mem = s.mem := rfl

@[simp] theorem nextChunk_rxq (s : State) : (nextChunk s).rxq = s.rxq := rfl

@[simp] theorem nextChunk_txs (s : State) : (nextChunk s).txs = s.txs := rfl

@[simp] theorem nextChunk_draws (s : State) : (nextChunk s).draws = s.draws := rfl

@[simp] theorem nextChunk_sched (s : State) : (nextChunk s).sched = s.sched := rfl

@[simp] theorem nextAddress_cfg (s : State) : (nextAddress s).cfg = s.cfg := rfl

@[simp] theorem nextAddress_mode (s : State) : (nextAddress s).mode = s.mode := rfl

@[simp] theorem nextAddress_err (s : State) : (nextAddress s).err = s.err := rfl

@[simp] theorem nextAddress_cs (s : State) : (nextAddress s).cs = s.cs := rfl

@[simp] theorem nextAddress_pins (s : State) : (nextAddress s).pins = s.pins := rfl

@[simp] theorem nextAddress_sr (s : State) : (nextAddress s).sr = s.sr := rfl

@[simp] theorem nextAddress_led (s : State) : (nextAddress s).led = s.led := rfl

@[simp] theorem nextAddress_indicated (s : State) : (nextAddress s).indicated = s.indicated := rfl

@[simp] theorem nextAddress_rx (s : State) : (nextAddress s).rx = s.rx := rfl

@[simp] theorem nextAddress_dump (s : State) :
    (nextAddress s).dump =
      { chunk := s.dump.chunk, chlen := s.dump.chlen, daddr := s.dump.daddr + 1 } := rfl

@[simp] theorem nextAddress_load (s : State) : (nextAddress s).load = s.load := rfl

@[simp] theorem nextAddress_opd (s : State) : (nextAddress s).opd = s.opd := rfl

@[simp] theorem nextAddress_pend (s : State) : (nextAddress s).pend = s.pend := rfl

@[simp] theorem nextAddress_mem (s : State) : (nextAddress s).mem = s.mem := rfl

@[simp] theorem nextAddress_rxq (s : State) : (nextAddress s).rxq = s.rxq := rfl

@[simp] theorem nextAddress_txs (s : State) : (nextAddress s).txs = s.txs := rfl

@[simp] theorem nextAddress_draws (s : State) : (nextAddress s).draws = s.draws := rfl

@[simp] theorem nextAddress_sched (s : State) : (nextAddress s).sched = s.sched := rfl

@[simp] theorem setTotal_cfg (total : Addr) (s : State) : (setTotal total s).cfg = s.cfg := rfl

@[simp] theorem setTotal_mode (total : Addr) (s : State) : (setTotal total s).mode = s.mode := rfl

@[simp] theorem setTotal_err (total : Addr) (s : State) : (setTotal total s).err = s.err := rfl

@[simp] theorem setTotal_cs (total : Addr) (s : State) : (setTotal total s).cs = s.cs := rfl

@[simp] theorem setTotal_pins (total : Addr) (s : State) : (setTotal total s).pins = s.pins := rfl

@[simp] theorem setTotal_sr (total : Addr) (s : State) : (setTotal total s).sr = s.sr := rfl

@[simp] theorem setTotal_led (total : Addr) (s : State) : (setTotal total s).led = s.led := rfl

@[simp] theorem setTotal_indicated (total : Addr) (s : State) : (setTotal total s).indicated = s.indicated := rfl

@[simp] theorem setTotal_rx (total : Addr) (s : State) : (setTotal total s).rx = s.rx := rfl

@[simp] theorem setTotal_dump (total : Addr) (s : State) : (setTotal total s).dump = s.dump := rfl

@[simp] theorem setTotal_load (total : Addr) (s : State) :
    (setTotal total s).load =
      { laddr := s.load.laddr, ltotal := total, ldone := s.load.ldone } := rfl

@[simp] theorem setTotal_opd (total : Addr) (s : State) : (setTotal total s).opd = s.opd := rfl

@[simp] theorem setTotal_pend (total : Addr) (s : State) : (setTotal total s).pend = s.pend := rfl

@[simp] theorem setTotal_mem (total : Addr) (s : State) : (setTotal total s).mem = s.mem := rfl

@[simp] theorem setTotal_rxq (total : Addr) (s : State) : (setTotal total s).rxq = s.rxq := rfl

@[simp] theorem setTotal_txs (total : Addr) (s : State) : (setTotal total s).txs = s.txs := rfl

@[simp] theorem setTotal_draws (total : Addr) (s : State) : (setTotal total s).draws = s.draws := rfl

@[simp] theorem setTotal_sched (total : Addr) (s : State) : (setTotal total s).sched = s.sched := rfl

@[simp] theorem openLoad_cfg (s : State) : (openLoad s).cfg = s.cfg := rfl

@[simp] theorem openLoad_mode (s : State) : (openLoad s).mode = s.mode := rfl

@[simp] theorem openLoad_err (s : State) : (openLoad s).err = s.err := rfl

@[simp] theorem openLoad_cs (s : State) : (openLoad s).cs = s.cs := rfl

@[simp] theorem openLoad_pins (s : State) : (openLoad s).pins = s.pins := rfl

@[simp] theorem openLoad_sr (s : State) : (openLoad s).sr = s.sr := rfl

@[simp] theorem openLoad_led (s : State) : (openLoad s).led = s.led := rfl

@[simp] theorem openLoad_indicated (s : State) : (openLoad s).indicated = s.indicated := rfl

@[simp] theorem openLoad_rx (s : State) : (openLoad s).rx = s.rx := rfl

@[simp] theorem openLoad_dump (s : State) : (openLoad s).dump = s.dump := rfl

@[simp] theorem openLoad_load (s : State) :
    (openLoad s).load =
      { laddr := 0, ltotal := s.load.ltotal, ldone := 0 } := rfl

@[simp] theorem openLoad_opd (s : State) : (openLoad s).opd = s.opd := rfl

@[simp] theorem openLoad_pend (s : State) : (openLoad s).pend = s.pend := rfl

@[simp] theorem openLoad_mem (s : State) : (openLoad s).mem = s.mem := rfl

@[simp] theorem openLoad_rxq (s : State) : (openLoad s).rxq = s.rxq := rfl

@[simp] theorem openLoad_txs (s : State) : (openLoad s).txs = s.txs := rfl

@[simp] theorem openLoad_draws (s : State) : (openLoad s).draws = s.draws := rfl

@[simp] theorem openLoad_sched (s : State) : (openLoad s).sched = s.sched := rfl

@[simp] theorem countByte_cfg (s : State) : (countByte s).cfg = s.cfg := rfl

@[simp] theorem countByte_mode (s : State) : (countByte s).mode = s.mode := rfl

@[simp] theorem countByte_err (s : State) : (countByte s).err = s.err := rfl

@[simp] theorem countByte_cs (s : State) : (countByte s).cs = s.cs := rfl

@[simp] theorem countByte_pins (s : State) : (countByte s).pins = s.pins := rfl

@[simp] theorem countByte_sr (s : State) : (countByte s).sr = s.sr := rfl

@[simp] theorem countByte_led (s : State) : (countByte s).led = s.led := rfl

@[simp] theorem countByte_indicated (s : State) : (countByte s).indicated = s.indicated := rfl

@[simp] theorem countByte_rx (s : State) : (countByte s).rx = s.rx := rfl

@[simp] theorem countByte_dump (s : State) : (countByte s).dump = s.dump := rfl

@[simp] theorem countByte_load (s : State) :
    (countByte s).load =
      { laddr := s.load.laddr + 1, ltotal := s.load.ltotal, ldone := s.load.ldone + 1 } := rfl

@[simp] theorem countByte_opd (s : State) : (countByte s).opd = s.opd := rfl

@[simp] theorem countByte_pend (s : State) : (countByte s).pend = s.pend := rfl

@[simp] theorem countByte_mem (s : State) : (countByte s).mem = s.mem := rfl

@[simp] theorem countByte_rxq (s : State) : (countByte s).rxq = s.rxq := rfl

@[simp] theorem countByte_txs (s : State) : (countByte s).txs = s.txs := rfl

@[simp] theorem countByte_draws (s : State) : (countByte s).draws = s.draws := rfl

@[simp] theorem countByte_sched (s : State) : (countByte s).sched = s.sched := rfl

@[simp] theorem replyRead_cfg (s : State) : (replyRead s).cfg = s.cfg := rfl

@[simp] theorem replyRead_mode (s : State) : (replyRead s).mode = s.mode := rfl

@[simp] theorem replyRead_err (s : State) : (replyRead s).err = s.err := rfl

@[simp] theorem replyRead_cs (s : State) : (replyRead s).cs = .report := rfl

@[simp] theorem replyRead_pins (s : State) : (replyRead s).pins = s.pins := rfl

@[simp] theorem replyRead_sr (s : State) : (replyRead s).sr = s.sr := rfl

@[simp] theorem replyRead_led (s : State) : (replyRead s).led = s.led := rfl

@[simp] theorem replyRead_indicated (s : State) : (replyRead s).indicated = s.indicated := rfl

@[simp] theorem replyRead_rx (s : State) : (replyRead s).rx = s.rx := rfl

@[simp] theorem replyRead_dump (s : State) : (replyRead s).dump = s.dump := rfl

@[simp] theorem replyRead_load (s : State) : (replyRead s).load = s.load := rfl

@[simp] theorem replyRead_opd (s : State) : (replyRead s).opd = s.opd := rfl

@[simp] theorem replyRead_pend (s : State) : (replyRead s).pend = s.pend := rfl

@[simp] theorem replyRead_mem (s : State) : (replyRead s).mem = s.mem := rfl

@[simp] theorem replyRead_rxq (s : State) : (replyRead s).rxq = s.rxq := rfl

@[simp] theorem replyRead_txs (s : State) : (replyRead s).txs = s.txs ++ frame [s.opd.sampled] := rfl

@[simp] theorem replyRead_draws (s : State) : (replyRead s).draws = s.draws := rfl

@[simp] theorem replyRead_sched (s : State) : (replyRead s).sched = s.sched := rfl

@[simp] theorem replyWrite_cfg (s : State) : (replyWrite s).cfg = s.cfg := rfl

@[simp] theorem replyWrite_mode (s : State) : (replyWrite s).mode = s.mode := rfl

@[simp] theorem replyWrite_err (s : State) : (replyWrite s).err = s.err := rfl

@[simp] theorem replyWrite_cs (s : State) : (replyWrite s).cs = .report := rfl

@[simp] theorem replyWrite_pins (s : State) : (replyWrite s).pins = s.pins := rfl

@[simp] theorem replyWrite_sr (s : State) : (replyWrite s).sr = s.sr := rfl

@[simp] theorem replyWrite_led (s : State) : (replyWrite s).led = s.led := rfl

@[simp] theorem replyWrite_indicated (s : State) : (replyWrite s).indicated = s.indicated := rfl

@[simp] theorem replyWrite_rx (s : State) : (replyWrite s).rx = s.rx := rfl

@[simp] theorem replyWrite_dump (s : State) : (replyWrite s).dump = s.dump := rfl

@[simp] theorem replyWrite_load (s : State) : (replyWrite s).load = s.load := rfl

@[simp] theorem replyWrite_opd (s : State) : (replyWrite s).opd = s.opd := rfl

@[simp] theorem replyWrite_pend (s : State) : (replyWrite s).pend = s.pend := rfl

@[simp] theorem replyWrite_mem (s : State) : (replyWrite s).mem = s.mem := rfl

@[simp] theorem replyWrite_rxq (s : State) : (replyWrite s).rxq = s.rxq := rfl

@[simp] theorem replyWrite_txs (s : State) : (replyWrite s).txs = s.txs ++ frame [] := rfl

@[simp] theorem replyWrite_draws (s : State) : (replyWrite s).draws = s.draws := rfl

@[simp] theorem replyWrite_sched (s : State) : (replyWrite s).sched = s.sched := rfl

@[simp] theorem State.atMode_cfg (m : Mode) (s : State) : (State.atMode m s).cfg = s.cfg := rfl

@[simp] theorem State.atMode_mode (m : Mode) (s : State) : (State.atMode m s).mode = m := rfl

@[simp] theorem State.atMode_err (m : Mode) (s : State) : (State.atMode m s).err = s.err := rfl

@[simp] theorem State.atMode_cs (m : Mode) (s : State) : (State.atMode m s).cs = s.cs := rfl

@[simp] theorem State.atMode_pins (m : Mode) (s : State) :
    (State.atMode m s).pins =
      { ddir := m.ddir, dout := s.pins.dout, ce := m.ce, oe := m.oe, we := m.we } := rfl

@[simp] theorem State.atMode_sr (m : Mode) (s : State) : (State.atMode m s).sr = s.sr := rfl

@[simp] theorem State.atMode_led (m : Mode) (s : State) : (State.atMode m s).led = s.led := rfl

@[simp] theorem State.atMode_indicated (m : Mode) (s : State) : (State.atMode m s).indicated = s.indicated := rfl

@[simp] theorem State.atMode_rx (m : Mode) (s : State) : (State.atMode m s).rx = s.rx := rfl

@[simp] theorem State.atMode_dump (m : Mode) (s : State) : (State.atMode m s).dump = s.dump := rfl

@[simp] theorem State.atMode_load (m : Mode) (s : State) : (State.atMode m s).load = s.load := rfl

@[simp] theorem State.atMode_opd (m : Mode) (s : State) : (State.atMode m s).opd = s.opd := rfl

@[simp] theorem State.atMode_pend (m : Mode) (s : State) : (State.atMode m s).pend = s.pend := rfl

@[simp] theorem State.atMode_mem (m : Mode) (s : State) : (State.atMode m s).mem = s.mem := rfl

@[simp] theorem State.atMode_rxq (m : Mode) (s : State) : (State.atMode m s).rxq = s.rxq := rfl

@[simp] theorem State.atMode_txs (m : Mode) (s : State) : (State.atMode m s).txs = s.txs := rfl

@[simp] theorem State.atMode_draws (m : Mode) (s : State) : (State.atMode m s).draws = s.draws := rfl

@[simp] theorem State.atMode_sched (m : Mode) (s : State) : (State.atMode m s).sched = s.sched := rfl

/-- Two states with the same fields are the same. -/
theorem State.eq_of_fields {s t : State} (h_cfg : s.cfg = t.cfg)
    (h_mode : s.mode = t.mode)
    (h_err : s.err = t.err)
    (h_cs : s.cs = t.cs)
    (h_pins : s.pins = t.pins)
    (h_sr : s.sr = t.sr)
    (h_led : s.led = t.led)
    (h_indicated : s.indicated = t.indicated)
    (h_rx : s.rx = t.rx)
    (h_dump : s.dump = t.dump)
    (h_load : s.load = t.load)
    (h_opd : s.opd = t.opd)
    (h_pend : s.pend = t.pend)
    (h_mem : s.mem = t.mem)
    (h_rxq : s.rxq = t.rxq)
    (h_txs : s.txs = t.txs)
    (h_draws : s.draws = t.draws)
    (h_sched : s.sched = t.sched) : s = t := by
  cases s; cases t; simp_all

end Sys2Proof.Machine
end

