-- ==== Sys2Proof/Laws/Lines.lean ====
section
/-! SUPPORT. What the procedures of lines and shift register do, in closed form. -/

namespace Sys2Proof.Machine

@[simp] theorem runPrims_nil (s : State) : runPrims [] s = s := rfl

@[simp] theorem runPrims_cons (p : Prim) (ps : List Prim) (s : State) :
    runPrims (p :: ps) s = runPrims ps (p.run s) := rfl

@[simp] theorem runPrims_append (ps qs : List Prim) (s : State) :
    runPrims (ps ++ qs) s = runPrims qs (runPrims ps s) := by
  induction ps generalizing s with
  | nil => rfl
  | cons p ps ih => simp [ih]

/-- What loadAddress leaves: the address in both stages under P_SR, free values otherwise (40 R132, 70 R307). -/
def loaded (a : Addr) (s : State) : State :=
  if PSr s.cfg then { s with sr := ((s.sr.setSer (a.getLsbD 0)).setShift a).setOut a }
  else
    { s with
      sr := ((s.sr.setSer (a.getLsbD 0)).setShift (Config.freeWord (s.draws + 15))).setOut (Config.freeWord (s.draws + 16)),
      draws := s.draws + 17 }

theorem run_clockBit {s : State} (h : s.ClocksLow) (b : Bool) :
    runPrims (clockBit b) s = srclkRise { s with sr := s.sr.setSer b } := by
  by_cases hp : PSr s.cfg <;>
    simp [clockBit, Prim.run, driveSRCLK, srclkRise, runDelay, h.srclk, hp] <;> ext <;> simp [h.srclk]

theorem srclkRise_clocksLow {s : State} (h : s.ClocksLow) (b : Bool) :
    (srclkRise { s with sr := s.sr.setSer b }).ClocksLow := by
  by_cases hp : PSr s.cfg <;> exact ⟨by simp [srclkRise, hp, h.srclk], by simp [srclkRise, hp, h.rclk]⟩

theorem srclkRise_cfg (s : State) : (srclkRise s).cfg = s.cfg := by
  by_cases hp : PSr s.cfg <;> simp [srclkRise, hp]

theorem getLsbD_shiftIn (v : Addr) (b : Bool) (i : Nat) (hi : i < 16) :
    (shiftIn v b).getLsbD i = if i = 0 then b else v.getLsbD (i - 1) := by
  simp only [shiftIn, BitVec.getLsbD_concat]
  split
  · rfl
  · rw [BitVec.getLsbD_extractLsb']; simp; omega

theorem getElem_shiftIn (v : Addr) (b : Bool) (i : Nat) (hi : i < 16) :
    (shiftIn v b)[i] = if i = 0 then b else v[i - 1] := by
  rw [← BitVec.getLsbD_eq_getElem, getLsbD_shiftIn v b i hi, BitVec.getLsbD_eq_getElem (by omega)]

/-- Sixteen shifts of an address's bits, bit 15 first, leave the address (40 R132, R146). -/
theorem shift_address (a v : Addr) :
    [15, 14, 13, 12, 11, 10, 9, 8, 7, 6, 5, 4, 3, 2, 1, 0].foldl (fun acc i => shiftIn acc (a.getLsbD i)) v = a := by
  apply BitVec.eq_of_getLsbD_eq
  intro i hi
  interval_cases i <;> simp [getElem_shiftIn]

theorem run_clockBits (a : Addr) (is : List Nat) (s : State) (h : s.ClocksLow) (hp : PSr s.cfg) :
    runPrims (is.flatMap fun i => clockBit (a.getLsbD i)) s =
      { s with
        sr := (s.sr.setSer ((is.map a.getLsbD).getLastD s.sr.ser)).setShift
          (is.foldl (fun acc i => shiftIn acc (a.getLsbD i)) s.sr.shift) } := by
  induction is generalizing s with
  | nil => rfl
  | cons i is ih =>
    rw [List.flatMap_cons, runPrims_append, run_clockBit h, ih _ (srclkRise_clocksLow h _) (by rwa [srclkRise_cfg])]
    simp only [srclkRise, if_pos hp]
    cases is <;> simp [List.getLastD] <;> ext <;> simp

theorem run_clockBits_free (a : Addr) (is : List Nat) (s : State) (h : s.ClocksLow) (hp : ¬ PSr s.cfg) (i : Nat) :
    runPrims ((i :: is).flatMap fun i => clockBit (a.getLsbD i)) s =
      { s with
        sr := (s.sr.setSer (((i :: is).map a.getLsbD).getLastD s.sr.ser)).setShift (Config.freeWord (s.draws + is.length)),
        draws := s.draws + (is.length + 1) } := by
  induction is generalizing s i with
  | nil =>
    rw [List.flatMap_cons, runPrims_append, run_clockBit h, srclkRise, if_neg hp]
    rfl
  | cons j is ih =>
    rw [List.flatMap_cons, runPrims_append, run_clockBit h, ih _ (srclkRise_clocksLow h _) (by rwa [srclkRise_cfg])]
    simp only [srclkRise, if_neg hp]
    simp [List.getLastD, Nat.add_assoc, Nat.add_comm 1]
    ext <;> simp

/-- loadAddress in closed form (40 R130, R132; 70 R307). -/
theorem run_loadAddress (a : Addr) {s : State} (h : s.ClocksLow) : runPrims (loadAddress a) s = loaded a s := by
  by_cases hp : PSr s.cfg
  · rw [loadAddress, runPrims_append, run_clockBits _ _ _ h hp, shift_address]
    simp [Prim.run, driveRCLK, rclkRise, runDelay, h.rclk, hp, loaded]
    ext <;> simp [h.rclk]
  · rw [loadAddress, runPrims_append, run_clockBits_free _ _ _ h hp]
    simp [Prim.run, driveRCLK, rclkRise, runDelay, h.rclk, hp, loaded]
    ext <;> simp [h.rclk]

@[simp] theorem loaded_mode (a : Addr) (s : State) : (loaded a s).mode = s.mode := by
  simp only [loaded]; split <;> rfl

@[simp] theorem loaded_cfg (a : Addr) (s : State) : (loaded a s).cfg = s.cfg := by
  simp only [loaded]; split <;> rfl

@[simp] theorem loaded_pins (a : Addr) (s : State) : (loaded a s).pins = s.pins := by
  simp only [loaded]; split <;> rfl

@[simp] theorem loaded_pend (a : Addr) (s : State) : (loaded a s).pend = s.pend := by
  simp only [loaded]; split <;> rfl

@[simp] theorem loaded_mem (a : Addr) (s : State) : (loaded a s).mem = s.mem := by
  simp only [loaded]; split <;> rfl

theorem loaded_of_PSr {s : State} (hp : PSr s.cfg) (a : Addr) :
    loaded a s = { s with sr := ((s.sr.setSer (a.getLsbD 0)).setShift a).setOut a } := if_pos hp

theorem loaded_clocksLow (a : Addr) {s : State} (h : s.ClocksLow) : (loaded a s).ClocksLow := by
  by_cases hp : PSr s.cfg <;> exact ⟨by simp [loaded, hp, h.srclk], by simp [loaded, hp, h.rclk]⟩

theorem atMode_linesMatch (m : Mode) (s : State) : (s.atMode m).LinesMatch := ⟨rfl, rfl, rfl, rfl⟩

theorem atMode_clocksLow (m : Mode) {s : State} (h : s.ClocksLow) : (s.atMode m).ClocksLow := ⟨h.srclk, h.rclk⟩

theorem State.LinesMatch.we_deasserted {s : State} (h : s.LinesMatch) : s.pins.we = .deasserted := by
  rw [h.we]; cases s.mode <;> rfl

theorem atMode_self {s : State} (h : s.LinesMatch) : s.atMode s.mode = s := by
  simp only [State.atMode, ← h.ddir, ← h.ce, ← h.oe, ← h.we]

@[simp] theorem atMode_atMode (m n : Mode) (s : State) : (s.atMode n).atMode m = s.atMode m := rfl

/-- The four events of enterStandby from any levels with WE deasserted (40 R134). -/
theorem run_toStandbyEvents {s : State} (h : s.pins.we = .deasserted) :
    runPrims [.setDir .input, .setOE .deasserted, .setCE .deasserted, .setWE .deasserted, .delay .modeSettle,
      .setMode .standby] s = s.atMode .standby := by
  simp [Prim.run, driveWE, runDelay, h, State.atMode]
  ext <;> simp [Mode.ddir, Mode.ce, Mode.oe, Mode.we]

/-- enterStandby in closed form (40 R134, R137). -/
theorem run_enterStandby {s : State} (h : s.LinesMatch) : runPrims (enterStandby s.mode) s = s.atMode .standby := by
  cases hm : s.mode
  · rw [← hm, atMode_self h, hm]; rfl
  · exact run_toStandbyEvents h.we_deasserted
  · exact run_toStandbyEvents h.we_deasserted

theorem toStandby_eq {s : State} (h : s.LinesMatch) : toStandby s = s.atMode .standby := run_enterStandby h

theorem run_standbyToRead {s : State} (h : s.LinesMatch) : runPrims standbyToRead s = s.atMode .read := by
  simp [standbyToRead, Prim.run, driveWE, runDelay, h.we_deasserted, State.atMode]
  ext <;> simp [Mode.ddir, Mode.ce, Mode.oe, Mode.we]

theorem run_standbyToWrite {s : State} (h : s.LinesMatch) : runPrims standbyToWrite s = s.atMode .write := by
  simp [standbyToWrite, Prim.run, driveWE, runDelay, h.we_deasserted, State.atMode]
  ext <;> simp [Mode.ddir, Mode.ce, Mode.oe, Mode.we]

/-- enterRead in closed form (40 R135, R137, R138). -/
theorem run_enterRead {s : State} (h : s.LinesMatch) : runPrims (enterRead s.mode) s = s.atMode .read := by
  cases hm : s.mode
  · exact run_standbyToRead h
  · rw [← hm, atMode_self h, hm]; rfl
  · rw [enterRead, runPrims_append, ← hm, run_enterStandby h, run_standbyToRead (atMode_linesMatch _ _)]
    rfl

/-- enterWrite in closed form (40 R136, R137, R138). -/
theorem run_enterWrite {s : State} (h : s.LinesMatch) : runPrims (enterWrite s.mode) s = s.atMode .write := by
  cases hm : s.mode
  · exact run_standbyToWrite h
  · rw [enterWrite, runPrims_append, ← hm, run_enterStandby h, run_standbyToWrite (atMode_linesMatch _ _)]
    rfl
  · rw [← hm, atMode_self h, hm]; rfl

theorem toWrite_eq {s : State} (h : s.LinesMatch) : toWrite s = s.atMode .write := run_enterWrite h

/-- A sample in READ mode: the cell at the address lines, or any value (20_memory R68, R71; 70 R308). -/
def sampledCell (s : State) : State :=
  if s.pend = none ∧ PReadSettle s.cfg then { s with opd := s.opd.setSampled (Memory.read s.mem (idx s.sr.out)) }
  else { s with opd := s.opd.setSampled (Config.freeByte s.draws), draws := s.draws + 1 }

theorem sampleD_eq {s : State} (h : s.LinesMatch) (hm : s.mode = .read) : sampleD s = sampledCell s := by
  have h1 : s.devDrives = true := by simp [State.devDrives, h.ce, h.oe, h.we, hm, Mode.ce, Mode.oe, Mode.we]
  have h2 : s.ctrlDrives = false := by simp [State.ctrlDrives, h.ddir, hm, Mode.ddir]
  cases hp : s.pend <;> simp [sampleD, sampledCell, h1, h2, hp]

@[simp] theorem sampledCell_mode (s : State) : (sampledCell s).mode = s.mode := by
  simp only [sampledCell]; split <;> rfl

@[simp] theorem sampledCell_pins (s : State) : (sampledCell s).pins = s.pins := by
  simp only [sampledCell]; split <;> rfl

@[simp] theorem sampledCell_sr (s : State) : (sampledCell s).sr = s.sr := by
  simp only [sampledCell]; split <;> rfl

theorem loaded_linesMatch (a : Addr) {s : State} (h : s.LinesMatch) : (loaded a s).LinesMatch :=
  ⟨by simp [h.ddir], by simp [h.ce], by simp [h.oe], by simp [h.we]⟩

/-- read(addr) in closed form: the address, the sample, and the lines of STANDBY (40 R141). -/
theorem readByte_eq (a : Addr) {s : State} (h : s.LinesMatch) (hc : s.ClocksLow) :
    readByte a s = (sampledCell (loaded a (s.atMode .read))).atMode .standby := by
  have hl : (loaded a (s.atMode .read)).LinesMatch := loaded_linesMatch a (atMode_linesMatch _ _)
  rw [readByte, readEvents, runPrims_append, runPrims_append, runPrims_append, run_enterRead h,
    run_loadAddress a (atMode_clocksLow _ hc)]
  show runPrims (enterStandby .read) (sampleD (runDelay .readSettle (loaded a (s.atMode .read)))) = _
  rw [show runDelay .readSettle (loaded a (s.atMode .read)) = loaded a (s.atMode .read) from rfl,
    sampleD_eq hl (by simp)]
  exact run_toStandbyEvents (by simpa using hl.we_deasserted)

theorem readByte_linesMatch (a : Addr) {s : State} (h : s.LinesMatch) (hc : s.ClocksLow) : (readByte a s).LinesMatch := by
  rw [readByte_eq a h hc]; exact atMode_linesMatch _ _

theorem readByte_clocksLow (a : Addr) {s : State} (h : s.LinesMatch) (hc : s.ClocksLow) : (readByte a s).ClocksLow := by
  have := loaded_clocksLow a (atMode_clocksLow .read hc)
  rw [readByte_eq a h hc]
  exact ⟨by simpa using this.srclk, by simpa using this.rclk⟩

/-- The result of a read that the device can answer (40 R141, 20_memory R68). -/
theorem readByte_cell (a : Addr) {s : State} (h : s.LinesMatch) (hc : s.ClocksLow) (hp : PSr s.cfg)
    (hr : PReadSettle s.cfg) (hn : s.pend = none) :
    readByte a s =
      { s.atMode .standby with
        sr := ((s.sr.setSer (a.getLsbD 0)).setShift a).setOut a
        opd := s.opd.setSampled (Memory.read s.mem (idx a)) } := by
  rw [readByte_eq a h hc, loaded_of_PSr (by exact hp), sampledCell, if_pos ⟨by exact hn, by exact hr⟩]
  rfl

/-- The events of write() in closed form: the address, the data, one strobe (40 R142). -/
theorem run_writeEvents (a : Addr) (v : Byte) {s : State} (h : s.LinesMatch) (hc : s.ClocksLow) (hm : s.mode = .write) :
    runPrims (writeEvents a v) s = strobe { loaded a s with pins := s.pins.setDout v } := by
  have hl := loaded_linesMatch a h
  have hce : s.pins.ce = .asserted := by rw [h.ce, hm]; rfl
  have hoe : s.pins.oe = .deasserted := by rw [h.oe, hm]; rfl
  rw [writeEvents, runPrims_append, run_loadAddress a hc]
  simp only [runPrims_cons, runPrims_nil, Prim.run, runDelay]
  simp [driveWE, h.we_deasserted, hce, hoe]
  congr 2
  ext <;> simp [h.we_deasserted]

end Sys2Proof.Machine
end

