-- ==== Sys2Proof/Laws/Memory.lean ====
section
/-! SUPPORT. The EEPROM contents: reads after writes, and the canonical form, which every write keeps and which makes
equal contents equal lists (20_memory R61, R78). -/

namespace Sys2Proof.Machine

theorem wfFrom_cons {lo k : Nat} {b : Byte} {m : Memory} :
    Memory.wfFrom lo ((k, b) :: m) = true ↔
      lo ≤ k ∧ k < memSize ∧ b ≠ Memory.unlisted ∧ Memory.wfFrom (k + 1) m = true := by
  simp [Memory.wfFrom, and_assoc]

theorem wfFrom_mono {lo lo' : Nat} (h : lo ≤ lo') {m : Memory} (hw : Memory.wfFrom lo' m = true) :
    Memory.wfFrom lo m = true := by
  cases m with
  | nil => rfl
  | cons c m =>
    obtain ⟨k, b⟩ := c
    rw [wfFrom_cons] at hw ⊢
    exact ⟨by omega, hw.2⟩

/-- Below the first listed address nothing is listed. -/
theorem at_of_lt {lo k : Nat} {m : Memory} (hw : Memory.wfFrom lo m = true) (hk : k < lo) :
    Memory.at m k = Memory.unlisted := by
  induction m generalizing lo with
  | nil => rfl
  | cons c m ih =>
    obtain ⟨j, b⟩ := c
    rw [wfFrom_cons] at hw
    rw [Memory.at, if_neg (by omega)]
    exact ih hw.2.2.2 (by omega)

/-- A read after a put: the byte put at its cell, the old byte at every other. -/
theorem at_put {lo : Nat} {m : Memory} (hw : Memory.wfFrom lo m = true) (k j : Nat) (b : Byte) :
    Memory.at (Memory.put m k b) j = if j = k then b else Memory.at m j := by
  induction m generalizing lo with
  | nil =>
    by_cases hb : b = Memory.unlisted <;> by_cases hj : j = k <;> simp [Memory.put, Memory.at, hb, hj, eq_comm]
    exact fun h => absurd h.symm hj
  | cons c m ih =>
    obtain ⟨i, x⟩ := c
    rw [wfFrom_cons] at hw
    obtain ⟨-, -, -, hm⟩ := hw
    rw [Memory.put]
    by_cases h1 : k < i
    · rw [if_pos h1]
      by_cases hb : b = Memory.unlisted
      · rw [if_pos hb]
        by_cases hj : j = k
        · rw [if_pos hj, hj, hb, Memory.at, if_neg (by omega)]
          exact at_of_lt hm (by omega)
        · rw [if_neg hj]
      · rw [if_neg hb]
        by_cases hj : j = k
        · rw [if_pos hj, hj, Memory.at, if_pos rfl]
        · rw [if_neg hj, Memory.at, if_neg (by omega)]
    · rw [if_neg h1]
      by_cases h2 : k = i
      · rw [if_pos h2]
        by_cases hb : b = Memory.unlisted
        · rw [if_pos hb]
          by_cases hj : j = k
          · rw [if_pos hj, hj, hb, h2]; exact at_of_lt hm (by omega)
          · rw [if_neg hj, Memory.at, if_neg (by omega)]
        · rw [if_neg hb]
          by_cases hj : j = k
          · rw [if_pos hj, hj, Memory.at, if_pos rfl]
          · rw [if_neg hj, Memory.at, if_neg (by omega), Memory.at, if_neg (by omega)]
      · rw [if_neg h2, Memory.at, ih hm]
        by_cases hi : i = j
        · rw [if_pos hi, if_neg (by omega), Memory.at, if_pos hi]
        · rw [if_neg hi, Memory.at, if_neg hi]

theorem wfFrom_put {lo k : Nat} {m : Memory} (hw : Memory.wfFrom lo m = true) (hlo : lo ≤ k) (hk : k < memSize)
    (b : Byte) : Memory.wfFrom lo (Memory.put m k b) = true := by
  induction m generalizing lo with
  | nil =>
    by_cases hb : b = Memory.unlisted
    · simp [Memory.put, hb, Memory.wfFrom]
    · rw [Memory.put, if_neg hb, wfFrom_cons]; exact ⟨hlo, hk, hb, rfl⟩
  | cons c m ih =>
    obtain ⟨i, x⟩ := c
    have hw' := hw
    rw [wfFrom_cons] at hw
    obtain ⟨h0, hi, hx, hm⟩ := hw
    rw [Memory.put]
    by_cases h1 : k < i
    · rw [if_pos h1]
      by_cases hb : b = Memory.unlisted
      · rw [if_pos hb]; exact hw'
      · rw [if_neg hb, wfFrom_cons, wfFrom_cons]; exact ⟨hlo, hk, hb, by omega, hi, hx, hm⟩
    · rw [if_neg h1]
      by_cases h2 : k = i
      · rw [if_pos h2]
        by_cases hb : b = Memory.unlisted
        · rw [if_pos hb]; exact wfFrom_mono (by omega) hm
        · rw [if_neg hb, wfFrom_cons]; exact ⟨hlo, hk, hb, h2 ▸ hm⟩
      · rw [if_neg h2, wfFrom_cons]; exact ⟨h0, hi, hx, ih hm (by omega)⟩

/-- Every write keeps the canonical form. -/
theorem write_wf {m : Memory} (h : Memory.wf m = true) (i : CellIndex) (b : Byte) :
    Memory.wf (Memory.write m i b) = true :=
  wfFrom_put h (Nat.zero_le _) (by have := i.isLt; simp only [memSize]; omega) b

/-- A cell number after a write. -/
theorem at_write {m : Memory} (h : Memory.wf m = true) (i : CellIndex) (b : Byte) (k : Nat) :
    Memory.at (Memory.write m i b) k = if k = i.toNat then b else Memory.at m k := at_put h _ _ _

/-- A read after a write (20_memory R78). -/
theorem read_write {m : Memory} (h : Memory.wf m = true) (i j : CellIndex) (b : Byte) :
    Memory.read (Memory.write m i b) j = if j = i then b else Memory.read m j := by
  rw [Memory.read, at_write h, Memory.read]
  by_cases hj : j = i
  · simp [hj]
  · rw [if_neg hj, if_neg (fun h => hj (BitVec.eq_of_toNat_eq h))]

/-- Two memories in canonical form with the same bytes are the same list. -/
theorem wfFrom_ext {lo : Nat} {m n : Memory} (hm : Memory.wfFrom lo m = true) (hn : Memory.wfFrom lo n = true)
    (h : ∀ k, Memory.at m k = Memory.at n k) : m = n := by
  induction m generalizing lo n with
  | nil =>
    cases n with
    | nil => rfl
    | cons c n =>
      obtain ⟨k, b⟩ := c
      have := h k
      rw [wfFrom_cons] at hn
      simp [Memory.at] at this
      exact absurd this.symm hn.2.2.1
  | cons c m ih =>
    obtain ⟨i, x⟩ := c
    rw [wfFrom_cons] at hm
    obtain ⟨h1, h2, h3, hm'⟩ := hm
    cases n with
    | nil =>
      have := h i
      simp [Memory.at] at this
      exact absurd this h3
    | cons d n =>
      obtain ⟨j, y⟩ := d
      rw [wfFrom_cons] at hn
      obtain ⟨g1, g2, g3, hn'⟩ := hn
      have hij : i = j := by
        rcases Nat.lt_trichotomy i j with hlt | heq | hgt
        · have := h i
          rw [Memory.at, if_pos rfl, Memory.at, if_neg (by omega), at_of_lt hn' (by omega)] at this
          exact absurd this h3
        · exact heq
        · have := h j
          rw [Memory.at, if_neg (by omega), Memory.at, if_pos rfl, at_of_lt hm' (by omega)] at this
          exact absurd this.symm g3
      subst hij
      have hxy : x = y := by have := h i; simpa [Memory.at] using this
      subst hxy
      have : m = n := ih hm' hn' (fun k => by
        by_cases hk : k < i + 1
        · rw [at_of_lt hm' hk, at_of_lt hn' hk]
        · have := h k
          rwa [Memory.at, if_neg (by omega), Memory.at, if_neg (by omega)] at this)
      rw [this]

theorem wf_ext {m n : Memory} (hm : Memory.wf m = true) (hn : Memory.wf n = true)
    (h : ∀ k, Memory.at m k = Memory.at n k) : m = n := wfFrom_ext hm hn h

end Sys2Proof.Machine
end

