-- ==== Sys2Proof/Laws/Ops.lean ====
section
/-! SUPPORT. One lemma per shared operation: what the events of the bus may change at all (10_state section 2-4), the
strobe, the commit and the pacing delay (20_memory R69-R72), write (40 R142), raise and report (60 R274, R280). -/

namespace Sys2Proof.Machine

/-- Everything the events of the bus leave alone: the parameters, ERR, CS, the indicator, the buffers, the operands, the byte
streams and the optional lines. -/
structure BusOnly (s t : State) : Prop where
  cfg : t.cfg = s.cfg
  err : t.err = s.err
  cs : t.cs = s.cs
  led : t.led = s.led
  indicated : t.indicated = s.indicated
  rx : t.rx = s.rx
  dump : t.dump = s.dump
  load : t.load = s.load
  a : t.opd.a = s.opd.a
  v : t.opd.v = s.opd.v
  rxq : t.rxq = s.rxq
  txs : t.txs = s.txs
  sched : t.sched = s.sched
  srOe : t.sr.oe = s.sr.oe
  srClr : t.sr.clr = s.sr.clr

theorem BusOnly.refl (s : State) : BusOnly s s := ⟨rfl, rfl, rfl, rfl, rfl, rfl, rfl, rfl, rfl, rfl, rfl, rfl, rfl, rfl, rfl⟩

theorem BusOnly.trans {s t u : State} (h : BusOnly s t) (k : BusOnly t u) : BusOnly s u :=
  ⟨k.cfg.trans h.cfg, k.err.trans h.err, k.cs.trans h.cs, k.led.trans h.led, k.indicated.trans h.indicated,
    k.rx.trans h.rx, k.dump.trans h.dump, k.load.trans h.load, k.a.trans h.a, k.v.trans h.v, k.rxq.trans h.rxq,
    k.txs.trans h.txs, k.sched.trans h.sched, k.srOe.trans h.srOe, k.srClr.trans h.srClr⟩

/-- The frame of the bus events as one equation. -/
theorem BusOnly.eq {s t : State} (h : BusOnly s t) :
    t = { s with mode := t.mode, pins := t.pins, sr := t.sr, draws := t.draws, mem := t.mem, pend := t.pend
                 opd := { a := s.opd.a, v := s.opd.v, sampled := t.opd.sampled } } := by
  obtain ⟨h1, h2, h3, h4, h5, h6, h7, h8, h9, h10, h11, h12, h13, -, -⟩ := h
  simp only [← h1, ← h2, ← h3, ← h4, ← h5, ← h6, ← h7, ← h8, ← h9, ← h10, ← h11, ← h12, ← h13]

/-! ## The device -/

theorem strobe_busOnly (s : State) : BusOnly s (strobe s) := by
  rw [strobe]
  split
  · split <;> exact ⟨rfl, rfl, rfl, rfl, rfl, rfl, rfl, rfl, rfl, rfl, rfl, rfl, rfl, rfl, rfl⟩
  · exact ⟨rfl, rfl, rfl, rfl, rfl, rfl, rfl, rfl, rfl, rfl, rfl, rfl, rfl, rfl, rfl⟩

/-- A strobe changes MEM, the pending write and the draw counter, nothing else. -/
theorem strobe_eq (s : State) :
    strobe s = { s with pend := (strobe s).pend, mem := (strobe s).mem, draws := (strobe s).draws } := by
  rw [strobe]; split
  · split <;> rfl
  · rfl

@[simp] theorem strobe_mode (s : State) : (strobe s).mode = s.mode := by rw [strobe_eq]

@[simp] theorem strobe_pins (s : State) : (strobe s).pins = s.pins := by rw [strobe_eq]

@[simp] theorem strobe_sr (s : State) : (strobe s).sr = s.sr := by rw [strobe_eq]

@[simp] theorem strobe_cfg (s : State) : (strobe s).cfg = s.cfg := by rw [strobe_eq]

@[simp] theorem strobe_load (s : State) : (strobe s).load = s.load := by rw [strobe_eq]

@[simp] theorem strobe_opd (s : State) : (strobe s).opd = s.opd := by rw [strobe_eq]

/-- A strobe with no write cycle pending starts one and leaves MEM (20_memory R69). -/
theorem strobe_idle {s : State} (h : s.pend = none) :
    (strobe s).mem = s.mem ∧ ∃ w, (strobe s).pend = some (idx s.sr.out, w) ∧ (PWrite s.cfg → w = s.pins.dout) := by
  simp only [strobe, h]
  split
  · exact ⟨rfl, _, rfl, fun _ => rfl⟩
  · rename_i hp; exact ⟨rfl, _, rfl, fun hq => absurd hq hp⟩

theorem strobe_of_PWrite {s : State} (h : s.pend = none) (hp : PWrite s.cfg) :
    strobe s = { s with pend := some (idx s.sr.out, s.pins.dout) } := by simp [strobe, h, hp]

/-- A strobe during a write cycle (20_memory R72). -/
theorem strobe_busy {s : State} {i : CellIndex} {b : Byte} (h : s.pend = some (i, b)) :
    strobe s =
      { s with
        mem := Memory.write (Memory.write s.mem i (Config.freeByte s.draws)) (idx s.sr.out) (Config.freeByte (s.draws + 1)),
        pend := none, draws := s.draws + 2 } := by simp [strobe, h]

theorem strobe_wf {s : State} (h : Memory.wf s.mem = true) : Memory.wf (strobe s).mem = true := by
  cases hp : s.pend with
  | none => rwa [(strobe_idle hp).1]
  | some q => obtain ⟨i, b⟩ := q; rw [strobe_busy hp]; exact write_wf (write_wf h _ _) _ _

/-- The cells a strobe leaves: all but the one it addresses and a pending one. -/
theorem strobe_read {s : State} (h : Memory.wf s.mem = true) {j : CellIndex} (hj : j ≠ idx s.sr.out)
    (hp : ∀ b, s.pend ≠ some (j, b)) : Memory.read (strobe s).mem j = Memory.read s.mem j := by
  cases hq : s.pend with
  | none => rw [(strobe_idle hq).1]
  | some q =>
    obtain ⟨i, b⟩ := q
    have hi : j ≠ i := fun e => hp b (by rw [hq, e])
    rw [strobe_busy hq]
    show Memory.read (Memory.write (Memory.write s.mem i _) _ _) j = _
    rw [read_write (write_wf h _ _), if_neg hj, read_write h, if_neg hi]

/-- What may be pending after a strobe: nothing, or the cell it addresses. -/
theorem strobe_pend {s : State} {j : CellIndex} {b : Byte} (h : (strobe s).pend = some (j, b)) : j = idx s.sr.out := by
  cases hq : s.pend with
  | none => obtain ⟨-, w, hw, -⟩ := strobe_idle hq; rw [hw] at h; simpa using (congrArg (Option.map Prod.fst) h).symm
  | some q => obtain ⟨i, c⟩ := q; rw [strobe_busy hq] at h; simp at h

theorem commit_none {s : State} (h : s.pend = none) : commit s = s := by simp [commit, h]

theorem commit_some {s : State} {i : CellIndex} {b : Byte} (h : s.pend = some (i, b)) :
    commit s = { s with mem := Memory.write s.mem i b, pend := none } := by simp [commit, h]

/-- A commit changes MEM and leaves no write pending, nothing else (20_memory R70). -/
theorem commit_eq (s : State) : commit s = { s with pend := none, mem := (commit s).mem } := by
  cases h : s.pend with
  | none => rw [commit_none h, ← h]
  | some q => rw [commit_some h]

theorem commit_wf {s : State} (h : Memory.wf s.mem = true) : Memory.wf (commit s).mem = true := by
  cases hp : s.pend with
  | none => rwa [commit_none hp]
  | some q => obtain ⟨i, b⟩ := q; rw [commit_some hp]; exact write_wf h _ _

theorem commit_read {s : State} (h : Memory.wf s.mem = true) {j : CellIndex} (hp : ∀ b, s.pend ≠ some (j, b)) :
    Memory.read (commit s).mem j = Memory.read s.mem j := by
  cases hq : s.pend with
  | none => rw [commit_none hq]
  | some q =>
    obtain ⟨i, b⟩ := q
    rw [commit_some hq]
    exact (read_write h i j b).trans (if_neg fun e => hp b (by rw [hq, e]))

/-- The pacing delay changes MEM, the pending write and the draw counter, nothing else. -/
theorem pacingDelay_eq (s : State) :
    pacingDelay s =
      { s with pend := (pacingDelay s).pend, mem := (pacingDelay s).mem, draws := (pacingDelay s).draws } := by
  rw [pacingDelay]
  split
  · rfl
  · split
    · rw [commit_eq]
    · split
      · rw [commit_eq]; rfl
      · rfl

theorem pacingDelay_busOnly (s : State) : BusOnly s (pacingDelay s) := by
  rw [pacingDelay_eq]; exact ⟨rfl, rfl, rfl, rfl, rfl, rfl, rfl, rfl, rfl, rfl, rfl, rfl, rfl, rfl, rfl⟩

/-- What the pacing delay does to the device: it commits, or leaves it (70 R310). -/
theorem pacingDelay_device (s : State) :
    ((pacingDelay s).mem = (commit s).mem ∧ (pacingDelay s).pend = none) ∨
      ((pacingDelay s).mem = s.mem ∧ (pacingDelay s).pend = s.pend) := by
  rw [pacingDelay]
  split
  · exact .inr ⟨rfl, rfl⟩
  · rename_i i b h
    split
    · rw [commit_eq]; exact .inl ⟨rfl, rfl⟩
    · split
      · rw [commit_eq]; exact .inl ⟨by simp [commit, State.drawn, h], rfl⟩
      · exact .inr ⟨rfl, rfl⟩

theorem pacingDelay_of_PPacing {s : State} (hp : PPacing s.cfg) : pacingDelay s = commit s := by
  rw [pacingDelay]
  split
  · rename_i h; rw [commit_none h]
  · rw [if_pos hp]

theorem pacingDelay_wf {s : State} (h : Memory.wf s.mem = true) : Memory.wf (pacingDelay s).mem = true := by
  rcases pacingDelay_device s with ⟨e, -⟩ | ⟨e, -⟩ <;> rw [e]
  · exact commit_wf h
  · exact h

theorem pacingDelay_read {s : State} (h : Memory.wf s.mem = true) {j : CellIndex} (hp : ∀ b, s.pend ≠ some (j, b)) :
    Memory.read (pacingDelay s).mem j = Memory.read s.mem j := by
  rcases pacingDelay_device s with ⟨e, -⟩ | ⟨e, -⟩ <;> rw [e]
  exact commit_read h hp

theorem pacingDelay_pend {s : State} {q : CellIndex × Byte} (h : (pacingDelay s).pend = some q) : s.pend = some q := by
  rcases pacingDelay_device s with ⟨-, e⟩ | ⟨-, e⟩ <;> rw [e] at h
  · cases h
  · exact h

/-! ## Events -/

theorem srclkRise_busOnly (s : State) : BusOnly s (srclkRise s) := by
  rw [srclkRise]; split <;> exact ⟨rfl, rfl, rfl, rfl, rfl, rfl, rfl, rfl, rfl, rfl, rfl, rfl, rfl, rfl, rfl⟩

theorem rclkRise_busOnly (s : State) : BusOnly s (rclkRise s) := by
  rw [rclkRise]; split <;> exact ⟨rfl, rfl, rfl, rfl, rfl, rfl, rfl, rfl, rfl, rfl, rfl, rfl, rfl, rfl, rfl⟩

theorem sampleD_busOnly (s : State) : BusOnly s (sampleD s) := by
  rw [sampleD]; split
  · exact ⟨rfl, rfl, rfl, rfl, rfl, rfl, rfl, rfl, rfl, rfl, rfl, rfl, rfl, rfl, rfl⟩
  · split <;> exact ⟨rfl, rfl, rfl, rfl, rfl, rfl, rfl, rfl, rfl, rfl, rfl, rfl, rfl, rfl, rfl⟩

/-- What any event of the bus may change (00_scope R13). -/
theorem Prim.run_busOnly (p : Prim) (s : State) : BusOnly s (p.run s) := by
  cases p with
  | setWE l =>
    rw [Prim.run, driveWE]
    split
    · exact BusOnly.trans (t := { s with pins := s.pins.setWE l })
        ⟨rfl, rfl, rfl, rfl, rfl, rfl, rfl, rfl, rfl, rfl, rfl, rfl, rfl, rfl, rfl⟩ (strobe_busOnly _)
    · exact ⟨rfl, rfl, rfl, rfl, rfl, rfl, rfl, rfl, rfl, rfl, rfl, rfl, rfl, rfl, rfl⟩
  | setSRCLK b =>
    rw [Prim.run, driveSRCLK]
    split
    · exact BusOnly.trans (t := { s with sr := s.sr.setSrclk b })
        ⟨rfl, rfl, rfl, rfl, rfl, rfl, rfl, rfl, rfl, rfl, rfl, rfl, rfl, rfl, rfl⟩ (srclkRise_busOnly _)
    · exact ⟨rfl, rfl, rfl, rfl, rfl, rfl, rfl, rfl, rfl, rfl, rfl, rfl, rfl, rfl, rfl⟩
  | setRCLK b =>
    rw [Prim.run, driveRCLK]
    split
    · exact BusOnly.trans (t := { s with sr := s.sr.setRclk b })
        ⟨rfl, rfl, rfl, rfl, rfl, rfl, rfl, rfl, rfl, rfl, rfl, rfl, rfl, rfl, rfl⟩ (rclkRise_busOnly _)
    · exact ⟨rfl, rfl, rfl, rfl, rfl, rfl, rfl, rfl, rfl, rfl, rfl, rfl, rfl, rfl, rfl⟩
  | delay t => cases t <;> first | exact pacingDelay_busOnly s | exact BusOnly.refl s
  | sampleD => exact sampleD_busOnly s
  | setDir d => exact ⟨rfl, rfl, rfl, rfl, rfl, rfl, rfl, rfl, rfl, rfl, rfl, rfl, rfl, rfl, rfl⟩
  | setD v => exact ⟨rfl, rfl, rfl, rfl, rfl, rfl, rfl, rfl, rfl, rfl, rfl, rfl, rfl, rfl, rfl⟩
  | setCE l => exact ⟨rfl, rfl, rfl, rfl, rfl, rfl, rfl, rfl, rfl, rfl, rfl, rfl, rfl, rfl, rfl⟩
  | setOE l => exact ⟨rfl, rfl, rfl, rfl, rfl, rfl, rfl, rfl, rfl, rfl, rfl, rfl, rfl, rfl, rfl⟩
  | setSER b => exact ⟨rfl, rfl, rfl, rfl, rfl, rfl, rfl, rfl, rfl, rfl, rfl, rfl, rfl, rfl, rfl⟩
  | setMode m => exact ⟨rfl, rfl, rfl, rfl, rfl, rfl, rfl, rfl, rfl, rfl, rfl, rfl, rfl, rfl, rfl⟩

theorem runPrims_busOnly (ps : List Prim) (s : State) : BusOnly s (runPrims ps s) := by
  induction ps generalizing s with
  | nil => exact BusOnly.refl s
  | cons p ps ih => exact (p.run_busOnly s).trans (ih _)

theorem Prim.run_wf (p : Prim) {s : State} (h : Memory.wf s.mem = true) : Memory.wf (p.run s).mem = true := by
  cases p with
  | setWE l =>
    rw [Prim.run, driveWE]
    split
    · exact strobe_wf h
    · exact h
  | setSRCLK b =>
    rw [Prim.run, driveSRCLK]
    split
    · rw [srclkRise]; split <;> exact h
    · exact h
  | setRCLK b =>
    rw [Prim.run, driveRCLK]
    split
    · rw [rclkRise]; split <;> exact h
    · exact h
  | delay t => cases t <;> first | exact pacingDelay_wf h | exact h
  | sampleD =>
    rw [Prim.run, Sys2Proof.Machine.sampleD]
    split
    · exact h
    · split <;> exact h
  | setDir d => exact h
  | setD v => exact h
  | setCE l => exact h
  | setOE l => exact h
  | setSER b => exact h
  | setMode m => exact h

/-- Every procedure of the bus keeps the canonical form of MEM. -/
theorem runPrims_wf (ps : List Prim) {s : State} (h : Memory.wf s.mem = true) :
    Memory.wf (runPrims ps s).mem = true := by
  induction ps generalizing s with
  | nil => exact h
  | cons p ps ih => exact ih (p.run_wf h)

/-- While WE never rises and no pacing delay runs, the device is left alone. -/
def Prim.keepsDevice : Prim → Bool
  | .setDir _ => true
  | .setD _ => true
  | .setCE _ => true
  | .setOE _ => true
  | .setWE l => l == .deasserted
  | .setSER _ => true
  | .setSRCLK _ => true
  | .setRCLK _ => true
  | .delay t => t != .interWrite
  | .sampleD => true
  | .setMode _ => true

theorem Prim.run_keepsDevice {p : Prim} (hp : p.keepsDevice = true) {s : State} (h : s.pins.we = .deasserted) :
    (p.run s).pins.we = .deasserted ∧ (p.run s).mem = s.mem ∧ (p.run s).pend = s.pend := by
  cases p with
  | setWE l =>
    cases l with
    | asserted => cases hp
    | deasserted => simp [Prim.run, driveWE, h]
  | setSRCLK b =>
    rw [Prim.run, driveSRCLK]
    split
    · rw [srclkRise]; split <;> exact ⟨h, rfl, rfl⟩
    · exact ⟨h, rfl, rfl⟩
  | setRCLK b =>
    rw [Prim.run, driveRCLK]
    split
    · rw [rclkRise]; split <;> exact ⟨h, rfl, rfl⟩
    · exact ⟨h, rfl, rfl⟩
  | delay t => cases t <;> first | exact ⟨h, rfl, rfl⟩ | cases hp
  | sampleD =>
    rw [Prim.run, Sys2Proof.Machine.sampleD]
    split
    · exact ⟨h, rfl, rfl⟩
    · split <;> exact ⟨h, rfl, rfl⟩
  | setDir d => exact ⟨h, rfl, rfl⟩
  | setD v => exact ⟨h, rfl, rfl⟩
  | setCE l => exact ⟨h, rfl, rfl⟩
  | setOE l => exact ⟨h, rfl, rfl⟩
  | setSER b => exact ⟨h, rfl, rfl⟩
  | setMode m => exact ⟨h, rfl, rfl⟩

theorem runPrims_keepsDevice {ps : List Prim} (hp : ∀ p ∈ ps, p.keepsDevice = true) {s : State}
    (h : s.pins.we = .deasserted) :
    (runPrims ps s).pins.we = .deasserted ∧ (runPrims ps s).mem = s.mem ∧ (runPrims ps s).pend = s.pend := by
  induction ps generalizing s with
  | nil => exact ⟨h, rfl, rfl⟩
  | cons p ps ih =>
    obtain ⟨h1, h2, h3⟩ := Prim.run_keepsDevice (hp p (by simp)) h
    obtain ⟨g1, g2, g3⟩ := ih (fun q hq => hp q (by simp [hq])) h1
    exact ⟨g1, g2.trans h2, g3.trans h3⟩

/-! ## Procedures -/

theorem readByte_busOnly (a : Addr) (s : State) : BusOnly s (readByte a s) := runPrims_busOnly _ _

theorem readByte_wf (a : Addr) {s : State} (h : Memory.wf s.mem = true) : Memory.wf (readByte a s).mem = true :=
  runPrims_wf _ h

theorem toStandby_busOnly (s : State) : BusOnly s (toStandby s) := runPrims_busOnly _ _

theorem toWrite_busOnly (s : State) : BusOnly s (toWrite s) := runPrims_busOnly _ _

theorem clockBit_keepsDevice (b : Bool) : ∀ p ∈ clockBit b, p.keepsDevice = true := by cases b <;> decide

theorem loadAddress_keepsDevice (a : Addr) : ∀ p ∈ loadAddress a, p.keepsDevice = true := by
  intro p hp
  rcases List.mem_append.1 hp with h | h
  · obtain ⟨i, -, hi⟩ := List.mem_flatMap.1 h
    exact clockBit_keepsDevice _ p hi
  · exact (by decide : ∀ p ∈ [Prim.setRCLK true, .delay .srHalf, .setRCLK false, .delay .srHalf],
      p.keepsDevice = true) p h

theorem enterStandby_keepsDevice (m : Mode) : ∀ p ∈ enterStandby m, p.keepsDevice = true := by cases m <;> decide

theorem enterRead_keepsDevice (m : Mode) : ∀ p ∈ enterRead m, p.keepsDevice = true := by cases m <;> decide

theorem enterWrite_keepsDevice (m : Mode) : ∀ p ∈ enterWrite m, p.keepsDevice = true := by cases m <;> decide

theorem readEvents_keepsDevice (m : Mode) (a : Addr) : ∀ p ∈ readEvents m a, p.keepsDevice = true := by
  intro p hp
  simp only [readEvents, List.mem_append] at hp
  rcases hp with ((h | h) | h) | h
  · exact enterRead_keepsDevice m p h
  · exact loadAddress_keepsDevice a p h
  · exact (by decide : ∀ p ∈ [Prim.delay .readSettle, .sampleD], p.keepsDevice = true) p h
  · exact enterStandby_keepsDevice .read p h

/-- read() whatever the premises: the register loaded, one byte sampled, the lines of STANDBY; the address and the cell
under the premises (40 R141; 20_memory R68, R71). -/
theorem readByte_shape (a : Addr) {s : State} (h : s.LinesMatch) (hc : s.ClocksLow) :
    ∃ (b : Byte) (x y : Addr) (d : Nat),
      readByte a s =
        { s.atMode .standby with
          sr := ((s.sr.setSer (a.getLsbD 0)).setShift x).setOut y
          opd := s.opd.setSampled b
          draws := d } ∧
      (PSr s.cfg → x = a ∧ y = a) ∧
      (PSr s.cfg → PReadSettle s.cfg → s.pend = none → b = Memory.read s.mem (idx a) ∧ d = s.draws) ∧
      (PSr s.cfg → s.pend ≠ none → b = Config.freeByte s.draws ∧ d = s.draws + 1) := by
  rw [readByte_eq a h hc]
  by_cases hp : PSr s.cfg
  · rw [loaded_of_PSr (s := s.atMode .read) hp]
    by_cases hq : s.pend = none ∧ PReadSettle s.cfg
    · refine ⟨Memory.read s.mem (idx a), a, a, s.draws, ?_, fun _ => ⟨rfl, rfl⟩, fun _ _ _ => ⟨rfl, rfl⟩,
        fun _ k => absurd hq.1 k⟩
      rw [sampledCell, if_pos ⟨hq.1, hq.2⟩]
      rfl
    · refine ⟨Config.freeByte s.draws, a, a, s.draws + 1, ?_, fun _ => ⟨rfl, rfl⟩,
        fun _ h2 h3 => absurd ⟨h3, h2⟩ hq, fun _ _ => ⟨rfl, rfl⟩⟩
      rw [sampledCell, if_neg (fun k => hq ⟨k.1, k.2⟩)]
      rfl
  · have e : loaded a (s.atMode .read) =
        { s.atMode .read with
          sr := ((s.sr.setSer (a.getLsbD 0)).setShift (Config.freeWord (s.draws + 15))).setOut
            (Config.freeWord (s.draws + 16)),
          draws := s.draws + 17 } := if_neg hp
    rw [e]
    by_cases hq : s.pend = none ∧ PReadSettle s.cfg
    · refine ⟨Memory.read s.mem (idx (Config.freeWord (s.draws + 16))), Config.freeWord (s.draws + 15),
        Config.freeWord (s.draws + 16), s.draws + 17, ?_, fun k => absurd k hp, fun k => absurd k hp, fun k => absurd k hp⟩
      rw [sampledCell, if_pos ⟨hq.1, hq.2⟩]
      rfl
    · refine ⟨Config.freeByte (s.draws + 17), Config.freeWord (s.draws + 15), Config.freeWord (s.draws + 16),
        s.draws + 17 + 1, ?_, fun k => absurd k hp, fun k => absurd k hp, fun k => absurd k hp⟩
      rw [sampledCell, if_neg (fun k => hq ⟨k.1, k.2⟩)]
      rfl

/-- read() has no side effect on the device (20_memory R75). -/
theorem readByte_device (a : Addr) {s : State} (h : s.pins.we = .deasserted) :
    (readByte a s).pins.we = .deasserted ∧ (readByte a s).mem = s.mem ∧ (readByte a s).pend = s.pend :=
  runPrims_keepsDevice (readEvents_keepsDevice _ _) h

theorem toStandby_device {s : State} (h : s.pins.we = .deasserted) :
    (toStandby s).pins.we = .deasserted ∧ (toStandby s).mem = s.mem ∧ (toStandby s).pend = s.pend :=
  runPrims_keepsDevice (enterStandby_keepsDevice _) h

theorem toWrite_device {s : State} (h : s.pins.we = .deasserted) :
    (toWrite s).pins.we = .deasserted ∧ (toWrite s).mem = s.mem ∧ (toWrite s).pend = s.pend :=
  runPrims_keepsDevice (enterWrite_keepsDevice _) h

/-- The ways write() can end (40 R142, R143; 20_memory R62). -/
theorem writeByte_cases (a : Addr) (v : Byte) (s : State) :
    (s.mode ≠ .write ∧ writeByte a v s = .fault .writeOutsideWriteMode) ∨
      (s.mode = .write ∧ addrRefused s.cfg a = true ∧ writeByte a v s = .refused .refusedAddr15) ∨
      (s.mode = .write ∧ addrRefused s.cfg a = false ∧ writeByte a v s = .next (runPrims (writeEvents a v) s)) := by
  by_cases hm : s.mode = .write
  · cases hr : addrRefused s.cfg a <;> simp [writeByte, hm, hr]
  · simp [writeByte, hm]

theorem writeByte_next {a : Addr} {v : Byte} {s t : State} (h : writeByte a v s = .next t) :
    t = runPrims (writeEvents a v) s := by
  rcases writeByte_cases a v s with ⟨-, e⟩ | ⟨-, -, e⟩ | ⟨-, -, e⟩
  · exact absurd (e.symm.trans h) (by simp)
  · exact absurd (e.symm.trans h) (by simp)
  · exact (Host.Outcome.next.inj (e.symm.trans h)).symm

/-- write() in WRITE mode in closed form: the address, the data, one strobe (40 R142). -/
theorem writeByte_eq {a : Addr} {v : Byte} {s : State} (h : s.LinesMatch) (hc : s.ClocksLow) (hm : s.mode = .write)
    (hr : addrRefused s.cfg a = false) :
    writeByte a v s = .next (strobe { loaded a s with pins := s.pins.setDout v }) := by
  rcases writeByte_cases a v s with ⟨h1, -⟩ | ⟨-, h1, -⟩ | ⟨-, -, e⟩
  · exact absurd hm h1
  · rw [hr] at h1; cases h1
  · exact e.trans (congrArg Host.Outcome.next (run_writeEvents a v h hc hm))

@[simp] theorem andThen_next (s : State) (f : State → Host.Outcome State Fault Refusal) :
    andThen (.next s) f = f s := rfl

@[simp] theorem andThen_fault (r : Fault) (f : State → Host.Outcome State Fault Refusal) :
    andThen (.fault r) f = .fault r := rfl

@[simp] theorem andThen_refused (r : Refusal) (f : State → Host.Outcome State Fault Refusal) :
    andThen (.refused r) f = .refused r := rfl

/-- A sequence that answers a next state has passed through one. -/
theorem andThen_eq_next {o : Host.Outcome State Fault Refusal} {f : State → Host.Outcome State Fault Refusal} {t : State}
    (h : andThen o f = .next t) : ∃ s, o = .next s ∧ f s = .next t := by
  cases o with
  | next s => exact ⟨s, rfl, h⟩
  | fault r => cases h
  | refused r => cases h

/-- raise Err(e) with the lines of MODE: the latch, the bus in STANDBY, the report next (60 R274, R275). -/
theorem raiseErr_eq (e : Err) {s : State} (h : s.LinesMatch) :
    raiseErr e s = { s.atMode .standby with err := e, cs := .report } := by
  rw [raiseErr, toStandby_eq (s := { s with err := e }) ⟨h.ddir, h.ce, h.oe, h.we⟩]
  rfl

/-- In STANDBY the cleanup makes no event (60 R275). -/
theorem raiseErr_standby (e : Err) {s : State} (h : s.mode = .standby) :
    raiseErr e s = { s with err := e, cs := .report } := by
  simp only [raiseErr, toStandby, h]; rfl

/-- The report (60 R280). -/
theorem report_eq (s : State) :
    report s =
      { s with
        err := .ok, cs := .len .idle
        led := if s.err = .ok then s.led else (Config.blinkPattern s.err.code).getLastD s.led
        indicated := if s.err = .ok then s.indicated else s.indicated ++ [s.err] } := by
  by_cases h : s.err = .ok <;> simp [report, h, indicate]

end Sys2Proof.Machine
end

