-- ==== Sys2Proof/Laws/Bulk.lean ====
section
/-! SUPPORT. The loops of the bulk transfers: dump() from one send to the next (43_bulk R240, R241), and the bytes of a
LOAD chunk (43_bulk R243, R244). -/

namespace Sys2Proof.Machine

/-! ## dump -/

theorem take_set_push {α : Type} {n : Nat} (v : Vector α n) (k : Nat) (h : k < n) (x : α) :
    ((v.setIfInBounds k x).toList.take (k + 1)) = v.toList.take k ++ [x] := by
  rw [List.take_add_one]
  congr 1
  · apply List.ext_getElem
    · simp
    · intro i h1 h2
      simp only [List.length_take] at h1
      have : i ≠ k := by omega
      simp [Ne.symm this]
  · simp [h]

theorem chunkBytes_pushChunk {s : State} (h : s.dump.chlen < 63) (b : Byte) :
    (pushChunk b s).chunkBytes = s.chunkBytes ++ [b] := take_set_push _ _ h _

/-- The register with an address loaded into both stages (40 R132). -/
def ShiftReg.holding (a : Addr) (r : ShiftReg) : ShiftReg := ((r.setSer (a.getLsbD 0)).setShift a).setOut a

theorem ShiftReg.holding_holding (a b : Addr) (r : ShiftReg) : (r.holding a).holding b = r.holding b := rfl

/-- The state after one read of the dump: the bus back in STANDBY, one more byte in the chunk (43 R240). -/
theorem dumpRead_eq {s : State} (h : s.LinesMatch) (hc : s.ClocksLow) :
    ∃ (b : Byte) (x y : Addr) (d : Nat),
      dumpRead s =
        { s.atMode .standby with
          sr := ((s.sr.setSer (s.dump.daddr.getLsbD 0)).setShift x).setOut y
          opd := s.opd.setSampled b
          draws := d
          dump := { chunk := s.dump.chunk.setIfInBounds s.dump.chlen b, chlen := s.dump.chlen + 1, daddr := s.dump.daddr } } ∧
      (PSr s.cfg → x = s.dump.daddr ∧ y = s.dump.daddr) ∧
      (PSr s.cfg → PReadSettle s.cfg → s.pend = none → b = Memory.read s.mem (idx s.dump.daddr) ∧ d = s.draws) := by
  obtain ⟨b, x, y, d, e, h1, h2, -⟩ := readByte_shape s.dump.daddr h hc
  refine ⟨b, x, y, d, ?_, h1, h2⟩
  show pushChunk (readByte s.dump.daddr s).opd.sampled (readByte s.dump.daddr s) = _
  rw [e]
  rfl

theorem slice_succ (m : Memory) (a n : Nat) : Memory.slice m a (n + 1) = Memory.at m a :: Memory.slice m (a + 1) n := by
  simp only [Memory.slice, List.range_succ_eq_map, List.map_cons, List.map_map]
  congr 1
  apply List.map_congr_left
  intro j _
  simp only [Function.comp_apply]
  congr 1
  omega

@[simp] theorem slice_length (m : Memory) (a n : Nat) : (Memory.slice m a n).length = n := by simp [Memory.slice]

theorem idx_toNat (a : Addr) : (idx a).toNat = a.toNat % 32768 := by
  simp [idx, BitVec.extractLsb'_toNat]

theorem read_idx (m : Memory) {a : Addr} (h : a.toNat < memSize) : Memory.read m (idx a) = Memory.at m a.toNat := by
  rw [Memory.read, idx_toNat, Nat.mod_eq_of_lt h]

theorem addr_succ {a : Addr} (h : a.toNat < memSize) : (a + 1).toNat = a.toNat + 1 := by
  rw [BitVec.toNat_add]; simp [memSize] at *; omega

/-- The stretch of dump() from an iteration of its loop to its next send or its end (43 R240): its frame, where it
stops, and what it reads and sends. -/
structure DumpRun (s t : State) : Prop where
  eq : t = { s with
    cs := t.cs, mode := t.mode, pins := t.pins, sr := t.sr, dump := t.dump, draws := t.draws, txs := t.txs
    opd := { a := s.opd.a, v := s.opd.v, sampled := t.opd.sampled } }
  lines : t.LinesMatch
  clocks : t.ClocksLow
  dout : t.pins.dout = s.pins.dout
  optional : t.sr.oe = s.sr.oe ∧ t.sr.clr = s.sr.clr
  sent : ∃ p, t.txs = s.txs ++ p
  cs : t.cs = .len .ackWait ∨ t.cs = .report
  full : s.dump.daddr.toNat + 63 ≤ 32768 + s.dump.chlen →
    t.cs = .len .ackWait ∧ t.mode = .standby ∧ t.dump.chlen = 63 ∧
      t.dump.daddr.toNat + s.dump.chlen = s.dump.daddr.toNat + 62 ∧
      (PSr s.cfg → PReadSettle s.cfg → s.pend = none →
        t.draws = s.draws ∧ t.opd.sampled = Memory.at s.mem t.dump.daddr.toNat ∧
        t.sr = ((s.sr.setSer (t.dump.daddr.getLsbD 0)).setShift t.dump.daddr).setOut t.dump.daddr ∧
        t.chunkBytes = s.chunkBytes ++ Memory.slice s.mem s.dump.daddr.toNat (63 - s.dump.chlen) ∧
        t.txs = s.txs ++ frame t.chunkBytes)
  final : s.dump.daddr.toNat ≤ 32768 → 32768 + s.dump.chlen < s.dump.daddr.toNat + 63 →
    t.dump.daddr.toNat = 32768 ∧ t.dump.chlen + s.dump.daddr.toNat = s.dump.chlen + 32768 ∧
      (s.dump.daddr.toNat < 32768 → t.mode = .standby) ∧
      (PSr s.cfg → s.dump.daddr.toNat < 32768 → t.sr = s.sr.holding 32767) ∧
      (0 < t.dump.chlen → t.cs = .len .ackWait) ∧
      (PSr s.cfg → PReadSettle s.cfg → s.pend = none → s.dump.daddr.toNat < 32768 →
        t.opd.sampled = Memory.at s.mem 32767) ∧
      (PSr s.cfg → PReadSettle s.cfg → s.pend = none → 0 < t.dump.chlen →
        t.draws = s.draws ∧
        t.chunkBytes = s.chunkBytes ++ Memory.slice s.mem s.dump.daddr.toNat (32768 - s.dump.daddr.toNat) ∧
        t.txs = s.txs ++ frame t.chunkBytes)

theorem dumpRun_tail {s : State} (h : s.LinesMatch) (hc : s.ClocksLow) (hl : s.dump.chlen < 63)
    (hd : memSize ≤ s.dump.daddr.toNat) : DumpRun s (dumpTail s) := by
  have key : s.dump.daddr.toNat ≤ 32768 → s.dump.daddr.toNat = 32768 := by simp only [memSize] at hd; omega
  have hs : s.dump.daddr.toNat = 32768 → Memory.slice s.mem s.dump.daddr.toNat (32768 - s.dump.daddr.toNat) = [] := by
    intro e; rw [e]; rfl
  by_cases h0 : 0 < s.dump.chlen
  · have e : dumpTail s = sendAndWait s.chunkBytes s := if_pos h0
    rw [e]
    exact
      { eq := rfl, lines := ⟨h.ddir, h.ce, h.oe, h.we⟩, clocks := ⟨hc.srclk, hc.rclk⟩, dout := rfl
        optional := ⟨rfl, rfl⟩, sent := ⟨_, rfl⟩, cs := .inl rfl
        full := fun k => by simp only [memSize] at hd; omega
        final := fun k _ => ⟨key k, by simp [key k], fun k2 => absurd k2 (by have := key k; omega),
          fun _ k2 => absurd k2 (by have := key k; omega), fun _ => rfl,
          fun _ _ _ k2 => absurd k2 (by have := key k; omega),
          fun _ _ _ _ => ⟨rfl, by rw [hs (key k), List.append_nil]; rfl, rfl⟩⟩ }
  · have e : dumpTail s = { s with cs := .report } := if_neg h0
    rw [e]
    exact
      { eq := rfl, lines := ⟨h.ddir, h.ce, h.oe, h.we⟩, clocks := ⟨hc.srclk, hc.rclk⟩, dout := rfl
        optional := ⟨rfl, rfl⟩, sent := ⟨[], by simp⟩, cs := .inr rfl
        full := fun k => by simp only [memSize] at hd; omega
        final := fun k _ => ⟨key k, by simp [key k], fun k2 => absurd k2 (by have := key k; omega),
          fun _ k2 => absurd k2 (by have := key k; omega), fun k2 => absurd k2 h0,
          fun _ _ _ k2 => absurd k2 (by have := key k; omega), fun _ _ _ k2 => absurd k2 h0⟩ }

theorem dumpRun_loop (fuel : Nat) : ∀ s : State, s.LinesMatch → s.ClocksLow → s.dump.chlen < 63 →
    63 - s.dump.chlen < fuel → DumpRun s (dumpLoop fuel s) := by
  induction fuel with
  | zero => intro s _ _ _ hf; omega
  | succ fuel ih =>
    intro s h hc hl hf
    rw [dumpLoop]
    by_cases hd : memSize ≤ s.dump.daddr.toNat
    · rw [if_pos hd]; exact dumpRun_tail h hc hl hd
    rw [if_neg hd]
    have hd' : s.dump.daddr.toNat < memSize := by omega
    obtain ⟨b, x, y, d, e, hx, hb⟩ := dumpRead_eq h hc
    have hcb : (dumpRead s).chunkBytes = s.chunkBytes ++ [b] := by
      rw [e]; exact take_set_push s.dump.chunk s.dump.chlen hl b
    have hlm : (dumpRead s).LinesMatch := by rw [e]; exact ⟨rfl, rfl, rfl, rfl⟩
    have hcl : (dumpRead s).ClocksLow := by rw [e]; exact ⟨hc.srclk, hc.rclk⟩
    have hlen : (dumpRead s).dump.chlen = s.dump.chlen + 1 := by rw [e]
    have hda : (dumpRead s).dump.daddr = s.dump.daddr := by rw [e]
    have hcell : PSr s.cfg → PReadSettle s.cfg → s.pend = none → b = Memory.at s.mem s.dump.daddr.toNat := by
      intro k1 k2 k3; rw [(hb k1 k2 k3).1, read_idx _ hd']
    by_cases h63 : s.dump.chlen + 1 = maxPayload
    · show DumpRun s (if (dumpRead s).dump.chlen = maxPayload then _ else _)
      rw [if_pos (hlen.trans h63)]
      have h62 : s.dump.chlen = 62 := by simpa [maxPayload] using h63
      have hw : (sendAndWait (dumpRead s).chunkBytes (dumpRead s)).chunkBytes = (dumpRead s).chunkBytes := rfl
      refine
        { eq := by rw [e]; rfl, lines := ⟨hlm.ddir, hlm.ce, hlm.oe, hlm.we⟩, clocks := ⟨hcl.srclk, hcl.rclk⟩,
          dout := by rw [e]; rfl, optional := by rw [e]; exact ⟨rfl, rfl⟩, sent := ?_, cs := .inl rfl, full := ?_
          final := fun _ k => by simp only [memSize] at hd; omega }
      · exact ⟨frame (dumpRead s).chunkBytes, by simp only [sendAndWait_txs]; rw [e]; rfl⟩
      · intro k
        refine ⟨rfl, by rw [e]; rfl, by rw [sendAndWait_dump, hlen, h62], by rw [sendAndWait_dump, hda, h62], ?_⟩
        intro k1 k2 k3
        refine ⟨by rw [sendAndWait_draws, e, (hb k1 k2 k3).2], ?_, ?_, ?_, ?_⟩
        · rw [sendAndWait_dump, hda, ← hcell k1 k2 k3, sendAndWait_opd, e]; rfl
        · rw [sendAndWait_dump, hda, sendAndWait_sr, e, (hx k1).1, (hx k1).2]
        · rw [hw, hcb, h62, hcell k1 k2 k3]; rfl
        · rw [hw, sendAndWait_txs, e]; rfl
    · show DumpRun s (if (dumpRead s).dump.chlen = maxPayload then _ else _)
      rw [if_neg (fun k => h63 (hlen ▸ k))]
      have hlt : s.dump.chlen + 1 < 63 := by simp only [maxPayload] at h63; omega
      set u : State := nextAddress (dumpRead s) with hu
      have r := ih u ⟨hlm.ddir, hlm.ce, hlm.oe, hlm.we⟩ ⟨hcl.srclk, hcl.rclk⟩ (by rw [hu]; simpa [hlen] using hlt)
        (by rw [hu]; simp only [nextAddress_dump, hlen]; omega)
      have u1 : u.dump.chlen = s.dump.chlen + 1 := hlen
      have u2 : u.dump.daddr.toNat = s.dump.daddr.toNat + 1 := by
        show ((dumpRead s).dump.daddr + 1).toNat = _; rw [hda, addr_succ hd']
      have u3 : u.chunkBytes = s.chunkBytes ++ [b] := hcb
      have u4 : u.cfg = s.cfg := by rw [hu, e]; rfl
      have u5 : u.pend = s.pend := by rw [hu, e]; rfl
      have u6 : u.mem = s.mem := by rw [hu, e]; rfl
      have u7 : u.txs = s.txs := by rw [hu, e]; rfl
      have u8 : u.sr = ((s.sr.setSer (s.dump.daddr.getLsbD 0)).setShift x).setOut y := by rw [hu, e]; rfl
      have u9 : u = { s with mode := u.mode, pins := u.pins, sr := u.sr, dump := u.dump, draws := u.draws
                             opd := { a := s.opd.a, v := s.opd.v, sampled := u.opd.sampled } } := by rw [hu, e]; rfl
      refine
        { eq := ?_, lines := r.lines, clocks := r.clocks, dout := ?_, optional := ?_, sent := ?_, cs := r.cs
          full := ?_, final := ?_ }
      · have key : ∀ t : State, t = { u with
            cs := t.cs, mode := t.mode, pins := t.pins, sr := t.sr, dump := t.dump, draws := t.draws, txs := t.txs
            opd := { a := u.opd.a, v := u.opd.v, sampled := t.opd.sampled } } →
          t = { s with
            cs := t.cs, mode := t.mode, pins := t.pins, sr := t.sr, dump := t.dump, draws := t.draws, txs := t.txs
            opd := { a := s.opd.a, v := s.opd.v, sampled := t.opd.sampled } } := by
          intro t ht; rw [u9] at ht; exact ht
        exact key _ r.eq
      · rw [r.dout, hu, e]; rfl
      · rw [r.optional.1, r.optional.2, u8]; exact ⟨rfl, rfl⟩
      · rw [← u7]; exact r.sent
      · intro k
        obtain ⟨r1, r2, r3, r4, r5⟩ := r.full (by omega)
        refine ⟨r1, r2, r3, by omega, ?_⟩
        rw [u4, u5, u6, u7, u8, u1, u2, u3] at r5
        intro k1 k2 k3
        obtain ⟨s1, s2, s3, s4, s5⟩ := r5 k1 k2 k3
        refine ⟨s1.trans ?_, s2, s3, ?_, s5⟩
        · rw [hu, e]; exact (hb k1 k2 k3).2
        · rw [s4, show 63 - s.dump.chlen = (63 - (s.dump.chlen + 1)) + 1 by omega, slice_succ, ← hcell k1 k2 k3]
          simp
      · intro k k'
        obtain ⟨r1, r2, r3, r6, r4, r7, r5⟩ := r.final (by simp only [memSize] at hd'; omega) (by omega)
        have hlast : ¬ u.dump.daddr.toNat < 32768 → dumpLoop fuel u = dumpTail u ∧ 0 < u.dump.chlen := by
          intro hlast
          refine ⟨?_, by omega⟩
          cases fuel with
          | zero => omega
          | succ f => rw [dumpLoop, if_pos (by simp only [memSize]; omega)]
        refine ⟨r1, by omega, fun _ => ?_, fun hp _ => ?_, r4, fun k1 k2 k3 _ => ?_, ?_⟩
        · by_cases hl' : u.dump.daddr.toNat < 32768
          · exact r3 hl'
          · rw [(hlast hl').1, dumpTail, if_pos (hlast hl').2, sendAndWait_mode, hu, e]; rfl
        · by_cases hl' : u.dump.daddr.toNat < 32768
          · rw [r6 (u4 ▸ hp) hl', u8]; rfl
          · have hx' := hx hp
            have h7 : s.dump.daddr = 32767 :=
              BitVec.eq_of_toNat_eq (by simp only [memSize] at hd'; simp; omega)
            rw [(hlast hl').1, dumpTail, if_pos (hlast hl').2, sendAndWait_sr, u8, hx'.1, hx'.2, h7]; rfl
        · by_cases hl' : u.dump.daddr.toNat < 32768
          · rw [r7 (u4 ▸ k1) (u4 ▸ k2) (u5 ▸ k3) hl', u6]
          · rw [(hlast hl').1, dumpTail, if_pos (hlast hl').2, sendAndWait_opd, hu, e]
            exact (hcell k1 k2 k3).trans (congrArg _ (by simp only [memSize] at hd'; omega))
        · rw [u4, u5, u6, u7, u2, u3] at r5
          intro k1 k2 k3 k4
          obtain ⟨s1, s4, s5⟩ := r5 k1 k2 k3 k4
          refine ⟨s1.trans ?_, ?_, s5⟩
          · rw [hu, e]; exact (hb k1 k2 k3).2
          · rw [s4, show 32768 - s.dump.daddr.toNat = (32768 - (s.dump.daddr.toNat + 1)) + 1 by
              simp only [memSize] at hd'; omega, slice_succ, ← hcell k1 k2 k3]
            simp

/-! ## load -/

theorem addrRefused_of_load {c : Config} {total a : Addr} (h : loadRefused c total = false) (ha : a.toNat < total.toNat) :
    addrRefused c a = false := by
  unfold loadRefused at h
  unfold addrRefused
  split at h
  · rfl
  simp only [decide_eq_false_iff_not, memSize] at h
  simp only [BitVec.getLsbD, Nat.testBit_lt_two_pow (show a.toNat < 2 ^ 15 by omega)]

theorem addr_add_toNat {a : Addr} {n : Nat} (h : a.toNat + n < 65536) : (a + BitVec.ofNat 16 n).toNat = a.toNat + n := by
  rw [BitVec.toNat_add, BitVec.toNat_ofNat]; omega

theorem done_add_toNat {a : BitVec 32} {n : Nat} (h : a.toNat + n < 4294967296) :
    (a + BitVec.ofNat 32 n).toNat = a.toNat + n := by
  rw [BitVec.toNat_add, BitVec.toNat_ofNat]; omega

/-- Programming a list changes no cell but those it addresses, and keeps the canonical form. -/
theorem program_wf (bs : List Byte) : ∀ (a : Addr) (m : Memory), Memory.wf m = true →
    Memory.wf (Memory.program bs a m) = true := by
  induction bs with
  | nil => intro a m h; exact h
  | cons b bs ih => intro a m h; exact ih _ _ (write_wf h _ _)

theorem add_ofNat_succ (a : Addr) (j : Nat) : a + BitVec.ofNat 16 (j + 1) = a + 1 + BitVec.ofNat 16 j := by
  rw [BitVec.add_assoc, Nat.add_comm j 1, BitVec.ofNat_add]
  rfl

/-- The program loop over a chunk's bytes, started where a load waits in WRITE mode (43 R243, R244): how far it counts,
its frame, the cells it can touch, and what it programs under the premises. -/
structure ProgramRun (data : List Byte) (n : Nat) (s t : State) : Prop where
  eq : t = { s with
    pins := { ddir := s.pins.ddir, dout := t.pins.dout, ce := s.pins.ce, oe := s.pins.oe, we := s.pins.we }, sr := t.sr
    load := { laddr := s.load.laddr + BitVec.ofNat 16 n, ltotal := s.load.ltotal, ldone := s.load.ldone + BitVec.ofNat 32 n }
    mem := t.mem, pend := t.pend, draws := t.draws }
  clocks : t.ClocksLow
  dout : t.pins.dout = (data.take n).getLastD s.pins.dout
  optional : t.sr.oe = s.sr.oe ∧ t.sr.clr = s.sr.clr
  wf : Memory.wf s.mem = true → Memory.wf t.mem = true
  cells : PSr s.cfg → Memory.wf s.mem = true → ∀ i : CellIndex,
    (∀ j : Nat, j < n → idx (s.load.laddr + BitVec.ofNat 16 j) ≠ i) → (∀ b : Byte, s.pend ≠ some (i, b)) →
    Memory.read t.mem i = Memory.read s.mem i
  pending : PSr s.cfg → ∀ (i : CellIndex) (b : Byte), t.pend = some (i, b) →
    s.pend = some (i, b) ∨ ∃ j : Nat, j < n ∧ idx (s.load.laddr + BitVec.ofNat 16 j) = i
  data : PSr s.cfg → PWrite s.cfg → PPacing s.cfg → s.pend = none →
    t.mem = Memory.program (data.take n) s.load.laddr s.mem ∧ t.pend = none ∧ t.draws = s.draws
  idle : n = 0 → t.sr = s.sr
  register : PSr s.cfg → 0 < n → t.sr = s.sr.holding (s.load.laddr + BitVec.ofNat 16 (n - 1))

/-- One turn of the loop: a byte programmed, the pacing delay, the counters. -/
def programOne (b : Byte) (s : State) : State :=
  countByte (pacingDelay (strobe { loaded s.load.laddr s with pins := s.pins.setDout b }))

theorem programBytes_cons {b : Byte} {bs : List Byte} {s : State} (h : s.LinesMatch) (hc : s.ClocksLow)
    (hm : s.mode = .write) (hr : addrRefused s.cfg s.load.laddr = false)
    (hd : s.load.ldone.toNat ≠ s.load.ltotal.toNat) : programBytes (b :: bs) s = programBytes bs (programOne b s) := by
  rw [programBytes, if_neg hd, writeByte_eq h hc hm hr]
  rfl

theorem loaded_eq (a : Addr) (s : State) :
    loaded a s = { s with sr := (loaded a s).sr, draws := (loaded a s).draws } := by
  by_cases hp : PSr s.cfg <;> simp [loaded, hp]

theorem loaded_optional (a : Addr) (s : State) :
    (loaded a s).sr.oe = s.sr.oe ∧ (loaded a s).sr.clr = s.sr.clr := by
  by_cases hp : PSr s.cfg <;> simp [loaded, hp]

theorem programOne_run (b : Byte) {s : State} (hc : s.ClocksLow) : ProgramRun [b] 1 s (programOne b s) := by
  have hq : ∀ q : State, q = { s with
        pins := s.pins.setDout b, sr := (loaded s.load.laddr s).sr, draws := (loaded s.load.laddr s).draws } →
      programOne b s = { pacingDelay (strobe q) with load :=
        { laddr := s.load.laddr + 1, ltotal := s.load.ltotal, ldone := s.load.ldone + 1 } } ∧
      pacingDelay (strobe q) = { q with
        mem := (pacingDelay (strobe q)).mem, pend := (pacingDelay (strobe q)).pend
        draws := (pacingDelay (strobe q)).draws } := by
    intro q hq
    have e2 : pacingDelay (strobe q) = { q with
        mem := (pacingDelay (strobe q)).mem, pend := (pacingDelay (strobe q)).pend
        draws := (pacingDelay (strobe q)).draws } := by
      have key : ∀ t : State, t = { strobe q with pend := t.pend, mem := t.mem, draws := t.draws } →
          t = { q with mem := t.mem, pend := t.pend, draws := t.draws } := by
        intro t ht; rw [strobe_eq q] at ht; exact ht
      exact key _ (pacingDelay_eq _)
    refine ⟨?_, e2⟩
    have e1 : programOne b s = { pacingDelay (strobe q) with load :=
        { laddr := (pacingDelay (strobe q)).load.laddr + 1, ltotal := (pacingDelay (strobe q)).load.ltotal
          ldone := (pacingDelay (strobe q)).load.ldone + 1 } } := by
      rw [hq, programOne, countByte]
      conv_lhs => rw [loaded_eq]
    have e3 : (pacingDelay (strobe q)).load = s.load := by rw [e2, hq]
    rw [e1, e3]
  set q : State := { s with
    pins := s.pins.setDout b, sr := (loaded s.load.laddr s).sr, draws := (loaded s.load.laddr s).draws } with hqd
  obtain ⟨e, f⟩ := hq q rfl
  have ho : PSr s.cfg → q.sr.out = s.load.laddr ∧ q.draws = s.draws := by
    intro hp; rw [hqd]; simp only [loaded_of_PSr hp]; exact ⟨rfl, trivial⟩
  have hcl := loaded_clocksLow s.load.laddr hc
  refine { eq := ?_, clocks := ?_, optional := ?_, wf := ?_, cells := ?_, pending := ?_, data := ?_
           dout := ?_, idle := fun k => by omega, register := ?_ }
  · rw [e]
    have key : ∀ t : State, t = { q with mem := t.mem, pend := t.pend, draws := t.draws } →
        ({ t with load := { laddr := s.load.laddr + 1, ltotal := s.load.ltotal, ldone := s.load.ldone + 1 } } : State) =
          { s with
            pins := { ddir := s.pins.ddir, dout := t.pins.dout, ce := s.pins.ce, oe := s.pins.oe, we := s.pins.we }
            sr := t.sr
            load := { laddr := s.load.laddr + BitVec.ofNat 16 1, ltotal := s.load.ltotal
                      ldone := s.load.ldone + BitVec.ofNat 32 1 }
            mem := t.mem, pend := t.pend, draws := t.draws } := by
      intro t ht; rw [ht]; rfl
    exact key _ f
  · rw [e]; exact ⟨by show (pacingDelay (strobe q)).sr.srclk = _; rw [f]; exact hcl.srclk,
      by show (pacingDelay (strobe q)).sr.rclk = _; rw [f]; exact hcl.rclk⟩
  · rw [e]; show (pacingDelay (strobe q)).pins.dout = _; rw [f]; rfl
  · rw [e]; show (pacingDelay (strobe q)).sr.oe = _ ∧ (pacingDelay (strobe q)).sr.clr = _
    rw [f]; exact loaded_optional _ _
  · intro hw; rw [e]; exact pacingDelay_wf (strobe_wf (s := q) hw)
  · intro hp hw i hi hn
    rw [e]
    have hi0 : i ≠ idx q.sr.out := by
      rw [(ho hp).1]; intro k; exact hi 0 (by omega) (by rw [k]; simp)
    refine (pacingDelay_read (strobe_wf (s := q) hw) (fun b' k => ?_)).trans (strobe_read (s := q) hw hi0 hn)
    exact hi0 (strobe_pend k)
  · intro hp i b' hb
    rw [e] at hb
    have hs := strobe_pend (pacingDelay_pend (s := strobe q) hb)
    exact .inr ⟨0, by omega, by rw [hs, (ho hp).1]; simp⟩
  · intro hp hwr hpa hn
    rw [e]
    have e4 : strobe q = { q with pend := some (idx q.sr.out, q.pins.dout) } := strobe_of_PWrite (s := q) hn hwr
    have e5 : pacingDelay (strobe q) = commit (strobe q) := pacingDelay_of_PPacing (by rw [strobe_cfg]; exact hpa)
    rw [e5, e4, commit_some (s := { q with pend := some (idx q.sr.out, q.pins.dout) }) rfl, (ho hp).1, (ho hp).2]
    exact ⟨rfl, rfl, rfl⟩
  · intro hp _
    rw [e]; show (pacingDelay (strobe q)).sr = _
    rw [f]; show (loaded s.load.laddr s).sr = _
    rw [loaded_of_PSr hp]; simp [ShiftReg.holding]

theorem ProgramRun.nil {bs : List Byte} {s : State} (hc : s.ClocksLow) : ProgramRun bs 0 s s :=
  { eq := by simp, clocks := hc, optional := ⟨rfl, rfl⟩, wf := id, cells := fun _ _ _ _ _ => rfl, pending := fun _ _ _ h => .inl h
    data := fun _ _ _ h => ⟨rfl, h, rfl⟩
    dout := rfl, idle := fun _ => rfl, register := fun _ h => by omega }

theorem ProgramRun.cons {b : Byte} {bs : List Byte} {n : Nat} {s t u : State} (h : ProgramRun [b] 1 s t)
    (k : ProgramRun bs n t u) : ProgramRun (b :: bs) (n + 1) s u := by
  have c1 : t.cfg = s.cfg := by rw [h.eq]
  have c2 : t.load.laddr = s.load.laddr + 1 := by rw [h.eq]; rfl
  refine { eq := ?_, clocks := k.clocks, optional := ?_, wf := fun hw => k.wf (h.wf hw), cells := ?_,
           pending := ?_, data := ?_, dout := ?_, idle := fun k => by omega, register := ?_ }
  · have key : ∀ v : State, v = { t with
          pins := { ddir := t.pins.ddir, dout := v.pins.dout, ce := t.pins.ce, oe := t.pins.oe, we := t.pins.we }
          sr := v.sr
          load := { laddr := t.load.laddr + BitVec.ofNat 16 n, ltotal := t.load.ltotal
                    ldone := t.load.ldone + BitVec.ofNat 32 n }
          mem := v.mem, pend := v.pend, draws := v.draws } →
        v = { s with
          pins := { ddir := s.pins.ddir, dout := v.pins.dout, ce := s.pins.ce, oe := s.pins.oe, we := s.pins.we }
          sr := v.sr
          load := { laddr := s.load.laddr + BitVec.ofNat 16 1 + BitVec.ofNat 16 n, ltotal := s.load.ltotal
                    ldone := s.load.ldone + BitVec.ofNat 32 1 + BitVec.ofNat 32 n }
          mem := v.mem, pend := v.pend, draws := v.draws } := by
      intro v hv; rw [h.eq] at hv; exact hv
    have e := key _ k.eq
    rwa [BitVec.add_assoc, BitVec.add_assoc, ← BitVec.ofNat_add, ← BitVec.ofNat_add, Nat.add_comm 1 n] at e
  · rw [k.dout, h.dout]; cases hl : bs.take n <;> simp [hl, List.getLast?_cons]
  · rw [k.optional.1, k.optional.2]; exact h.optional
  · intro hp hw i hi hn
    have h1 : Memory.read t.mem i = Memory.read s.mem i :=
      h.cells hp hw i (fun j hj => by have : j = 0 := by omega
                                      subst this; exact hi 0 (by omega)) hn
    by_cases hpt : ∀ b' : Byte, t.pend ≠ some (i, b')
    · refine (k.cells (c1 ▸ hp) (h.wf hw) i (fun j hj => ?_) hpt).trans h1
      rw [c2, ← add_ofNat_succ]; exact hi (j + 1) (by omega)
    · simp only [ne_eq, not_forall, not_not] at hpt
      obtain ⟨b', hb⟩ := hpt
      rcases h.pending hp i b' hb with h2 | ⟨j, hj, h2⟩
      · exact absurd h2 (hn b')
      · exact absurd h2 (hi j (by omega))
  · intro hp i b' hb
    rcases k.pending (c1 ▸ hp) i b' hb with h2 | ⟨j, hj, h2⟩
    · rcases h.pending hp i b' h2 with h3 | ⟨j, hj, h3⟩
      · exact .inl h3
      · exact .inr ⟨j, by omega, h3⟩
    · exact .inr ⟨j + 1, by omega, by rw [add_ofNat_succ, ← c2]; exact h2⟩
  · intro hp hwr hpa hn
    obtain ⟨m1, p1, d1⟩ := h.data hp hwr hpa hn
    obtain ⟨m2, p2, d2⟩ := k.data (c1 ▸ hp) (c1 ▸ hwr) (c1 ▸ hpa) p1
    refine ⟨?_, p2, d2.trans d1⟩
    rw [m2, c2, m1]; rfl
  · intro hp _
    have hs := h.register hp (by omega)
    rcases Nat.eq_zero_or_pos n with h0 | h0
    · subst h0; rw [k.idle rfl, hs]
    · rw [k.register (c1 ▸ hp) h0, hs, ShiftReg.holding_holding, c2, ← add_ofNat_succ]
      congr 3; omega

/-- The whole loop over a chunk. -/
theorem programRun_bytes (data : List Byte) : ∀ s : State, s.LinesMatch → s.ClocksLow → s.mode = .write →
    s.load.laddr.toNat = s.load.ldone.toNat → s.load.ldone.toNat ≤ s.load.ltotal.toNat →
    loadRefused s.cfg s.load.ltotal = false →
    ∃ t, programBytes data s = .next t ∧
      ProgramRun data (min data.length (s.load.ltotal.toNat - s.load.ldone.toNat)) s t := by
  induction data with
  | nil => intro s _ hc _ _ _ _; exact ⟨s, rfl, by simpa using ProgramRun.nil hc⟩
  | cons b bs ih =>
    intro s h hc hm ha hd hr
    by_cases he : s.load.ldone.toNat = s.load.ltotal.toNat
    · exact ⟨s, if_pos he, by rw [he]; simpa using ProgramRun.nil hc⟩
    have hlt : s.load.ldone.toNat < s.load.ltotal.toNat := by omega
    have hb := s.load.ltotal.isLt
    have r := programOne_run b hc
    have c1 : (programOne b s).cfg = s.cfg := by rw [r.eq]
    have c2 : (programOne b s).load.laddr.toNat = s.load.laddr.toNat + 1 := by
      rw [r.eq]; exact addr_add_toNat (by omega)
    have c3 : (programOne b s).load.ldone.toNat = s.load.ldone.toNat + 1 := by
      rw [r.eq]; exact done_add_toNat (by omega)
    have c4 : (programOne b s).load.ltotal = s.load.ltotal := by rw [r.eq]
    have c5 : (programOne b s).LinesMatch := by rw [r.eq]; exact ⟨h.ddir, h.ce, h.oe, h.we⟩
    obtain ⟨t, e, k⟩ := ih (programOne b s) c5 r.clocks (by rw [r.eq]; exact hm) (by omega) (by rw [c4]; omega)
      (by rw [c1, c4]; exact hr)
    refine ⟨t, ?_, ?_⟩
    · rw [programBytes_cons h hc hm (addrRefused_of_load hr (by omega)) he]; exact e
    · have hn : min (b :: bs).length (s.load.ltotal.toNat - s.load.ldone.toNat) =
          min bs.length ((programOne b s).load.ltotal.toNat - (programOne b s).load.ldone.toNat) + 1 := by
        rw [c4, c3, List.length_cons]; omega
      rw [hn]; exact r.cons k

end Sys2Proof.Machine
end

