-- ==== Sys2Proof/Laws/Decode.lean ====
section
/-! SUPPORT. The decoder on one frame: legal frames in each context, illegal lengths, and the big-endian fields
(30_encoding R90-R108). -/

namespace Sys2Proof

theorem be16_hi_lo (a : Addr) : be16 (hiByte a) (loByte a) = a := by
  apply BitVec.eq_of_toNat_eq
  have := a.isLt
  simp only [be16, hiByte, loByte, BitVec.toNat_append, BitVec.extractLsb'_toNat, Nat.shiftRight_eq_div_pow]
  rw [← Nat.shiftLeft_add_eq_or_of_lt (by omega), Nat.shiftLeft_eq]
  omega

theorem be16_toNat (hi lo : Byte) : (be16 hi lo).toNat = hi.toNat * 256 + lo.toNat := by
  have := lo.isLt
  rw [be16, BitVec.toNat_append, ← Nat.shiftLeft_add_eq_or_of_lt (by omega), Nat.shiftLeft_eq]

theorem hiByte_be16 (hi lo : Byte) : hiByte (be16 hi lo) = hi := by
  apply BitVec.eq_of_toNat_eq
  have := lo.isLt
  have := hi.isLt
  rw [hiByte, BitVec.extractLsb'_toNat, be16_toNat, Nat.shiftRight_eq_div_pow]
  omega

theorem loByte_be16 (hi lo : Byte) : loByte (be16 hi lo) = lo := by
  apply BitVec.eq_of_toNat_eq
  have := lo.isLt
  rw [loByte, BitVec.extractLsb'_toNat, be16_toNat, Nat.shiftRight_eq_div_pow]
  omega

theorem lengthByte_toNat {p : List Byte} (h : p.length ≤ 63) : (BitVec.ofNat 8 p.length).toNat = p.length := by
  rw [BitVec.toNat_ofNat]; omega

/-- The first byte alone gives the length of a legal frame the block receives (30_encoding R104, R106). -/
theorem decode_rx_frame (c : RxContext) {p : List Byte} (h : p.length ≤ 63) (rest : List Byte) :
    decode (.rx c) (frame p ++ rest) = .ok (classify c p, rest) := by
  have hl := lengthByte_toNat h
  simp only [frame, List.cons_append, decode, hl]
  rw [if_neg (by omega), if_neg (by simp)]
  simp

/-- The same for a frame the host reads (30_encoding R105). -/
theorem decode_tx_frame {p : List Byte} (h : p.length ≤ 63) (rest : List Byte) :
    decode .tx (frame p ++ rest) =
      match classifyTx p with
      | .ok i => .ok (i, rest)
      | .error e => .error e := by
  have hl := lengthByte_toNat h
  simp only [frame, List.cons_append, decode, hl]
  rw [if_neg (by omega), if_neg (by simp), List.take_left, List.drop_left]
  all_goals rfl

/-- An illegal length is one byte, whatever follows (30_encoding R91). -/
theorem decode_rx_illegal (c : RxContext) {n : Byte} (h : 64 ≤ n.toNat) (rest : List Byte) :
    decode (.rx c) (n :: rest) = .ok (classifyIllegal n, rest) := by
  rw [decode, if_pos (by omega)]

/-- A length byte that is legal stands in front of a whole frame, or the bytes are cut short. -/
theorem frame_of_length {n : Byte} {rest : List Byte} (hl : n.toNat ≤ rest.length) :
    n :: rest = frame (rest.take n.toNat) ++ rest.drop n.toNat := by
  have e : BitVec.ofNat 8 n.toNat = n := by simp
  have hm : (rest.take n.toNat).length = n.toNat := by rw [List.length_take]; omega
  rw [frame, hm, e, List.cons_append, List.take_append_drop]

theorem frame_length (p : List Byte) : (frame p).length = p.length + 1 := rfl

/-- Which payload gives which command in idle context (30_encoding R97). -/
theorem classifyIdle_cases (p : List Byte) :
    (p = [0x64] ∧ classifyIdle p = .dump) ∨ (p = [0x72] ∧ classifyIdle p = .reset) ∨
    (∃ x y, p = [0x72, x, y] ∧ classifyIdle p = .read (be16 x y)) ∨
    (∃ x y, p = [0x6C, x, y] ∧ classifyIdle p = .load (be16 x y)) ∨
    (∃ x y v, p = [0x77, x, y, v] ∧ classifyIdle p = .write (be16 x y) v) ∨
    (isCommandPayload p = false ∧ classifyIdle p = .unknown p) := by
  rcases p with _ | ⟨op, _ | ⟨x, _ | ⟨y, _ | ⟨v, _ | ⟨w, r⟩⟩⟩⟩⟩
  · simp [classifyIdle, isCommandPayload]
  · by_cases h1 : op = 100#8
    · simp [classifyIdle, h1]
    · by_cases h2 : op = 114#8 <;> simp [classifyIdle, isCommandPayload, h1, h2]
  · simp [classifyIdle, isCommandPayload]
  · by_cases h1 : op = 114#8
    · simp [classifyIdle, h1]
    · by_cases h2 : op = 108#8 <;> simp [classifyIdle, isCommandPayload, h1, h2]
  · by_cases h1 : op = 119#8 <;> simp [classifyIdle, isCommandPayload, h1]
  · simp [classifyIdle, isCommandPayload]

/-- A payload that is no command is UNKNOWN (30_encoding R103). -/
theorem classifyIdle_unknown {p : List Byte} (h : isCommandPayload p = false) : classifyIdle p = .unknown p := by
  rcases classifyIdle_cases p with ⟨e, -⟩ | ⟨e, -⟩ | ⟨x, y, e, -⟩ | ⟨x, y, e, -⟩ | ⟨x, y, v, e, -⟩ | ⟨-, e⟩
  · subst e; simp [isCommandPayload] at h
  · subst e; simp [isCommandPayload] at h
  · subst e; simp [isCommandPayload] at h
  · subst e; simp [isCommandPayload] at h
  · subst e; simp [isCommandPayload] at h
  · exact e

/-- The reply frames of an ack-wait (41_transport R189). -/
theorem classifyAckWait_eq (p : List Byte) :
    classifyAckWait p = if p = [] then .ack else if p = [resetSentinel] then .resetSentinel else .ackwaitUnexpected p := by
  rcases p with _ | ⟨b, _ | ⟨c, r⟩⟩
  · rfl
  · by_cases h : b = 0x72 <;> simp [classifyAckWait, h]
  · simp [classifyAckWait]

end Sys2Proof
end

