-- ==== Sys2Proof/Laws/Step.lean ====
section
/-! SUPPORT. What an instruction and a step can do at all, from any state: the parameters, the byte streams, the
indicator, the canonical form of MEM; and what a decoded frame makes a step do. -/

namespace Sys2Proof.Machine

/-- What executing an instruction may do at most: the parameters, RXQ, RXBUF, the indicator, the optional lines and the
schedule stay, TXS grows, MEM keeps its canonical form. -/
structure Ran (s t : State) : Prop where
  cfg : t.cfg = s.cfg
  led : t.led = s.led
  indicated : t.indicated = s.indicated
  rx : t.rx = s.rx
  rxq : t.rxq = s.rxq
  sched : t.sched = s.sched
  txs : ∃ sent, t.txs = s.txs ++ sent
  mem : Memory.wf s.mem = true → Memory.wf t.mem = true
  srOe : t.sr.oe = s.sr.oe
  srClr : t.sr.clr = s.sr.clr

theorem Ran.refl (s : State) : Ran s s := ⟨rfl, rfl, rfl, rfl, rfl, rfl, ⟨[], by simp⟩, id, rfl, rfl⟩

theorem Ran.trans {s t u : State} (h : Ran s t) (k : Ran t u) : Ran s u := by
  obtain ⟨p, hp⟩ := h.txs
  obtain ⟨q, hq⟩ := k.txs
  exact ⟨k.cfg.trans h.cfg, k.led.trans h.led, k.indicated.trans h.indicated, k.rx.trans h.rx, k.rxq.trans h.rxq,
    k.sched.trans h.sched, ⟨p ++ q, by rw [hq, hp, List.append_assoc]⟩, fun w => k.mem (h.mem w),
    k.srOe.trans h.srOe, k.srClr.trans h.srClr⟩

theorem BusOnly.ran {s t : State} (h : BusOnly s t) (w : Memory.wf s.mem = true → Memory.wf t.mem = true) : Ran s t :=
  ⟨h.cfg, h.led, h.indicated, h.rx, h.rxq, h.sched, ⟨[], by rw [h.txs, List.append_nil]⟩, w, h.srOe, h.srClr⟩

theorem runPrims_ran (ps : List Prim) (s : State) : Ran s (runPrims ps s) :=
  (runPrims_busOnly ps s).ran (runPrims_wf ps)

theorem raiseErr_ran (e : Err) (s : State) : Ran s (raiseErr e s) := by
  have h := runPrims_ran (enterStandby s.mode) { s with err := e }
  exact ⟨h.cfg, h.led, h.indicated, h.rx, h.rxq, h.sched, h.txs, h.mem, h.srOe, h.srClr⟩

theorem dumpRead_ran (s : State) : Ran s (dumpRead s) := by
  have h := runPrims_ran (readEvents s.mode s.dump.daddr) s
  exact ⟨h.cfg, h.led, h.indicated, h.rx, h.rxq, h.sched, h.txs, h.mem, h.srOe, h.srClr⟩

theorem dumpTail_ran (s : State) : Ran s (dumpTail s) := by
  rw [dumpTail]; split
  · exact ⟨rfl, rfl, rfl, rfl, rfl, rfl, ⟨_, rfl⟩, id, rfl, rfl⟩
  · exact ⟨rfl, rfl, rfl, rfl, rfl, rfl, ⟨[], by simp⟩, id, rfl, rfl⟩

theorem dumpLoop_ran (fuel : Nat) (s : State) : Ran s (dumpLoop fuel s) := by
  induction fuel generalizing s with
  | zero => exact Ran.refl s
  | succ fuel ih =>
    rw [dumpLoop]
    split
    · exact dumpTail_ran s
    · have h := dumpRead_ran s
      show Ran s (if (dumpRead s).dump.chlen = maxPayload then _ else _)
      split
      · exact h.trans ⟨rfl, rfl, rfl, rfl, rfl, rfl, ⟨_, rfl⟩, id, rfl, rfl⟩
      · refine h.trans (Ran.trans ?_ (ih _))
        exact ⟨rfl, rfl, rfl, rfl, rfl, rfl, ⟨[], by simp⟩, id, rfl, rfl⟩

theorem writeByte_ran {a : Addr} {v : Byte} {s t : State} (h : writeByte a v s = .next t) : Ran s t := by
  rw [writeByte_next h]; exact runPrims_ran _ _

theorem programBytes_ran {data : List Byte} {s t : State} (h : programBytes data s = .next t) : Ran s t := by
  induction data generalizing s with
  | nil => rw [programBytes] at h; injection h with h; subst h; exact Ran.refl _
  | cons b bs ih =>
    rw [programBytes] at h
    split at h
    · injection h with h; subst h; exact Ran.refl _
    · obtain ⟨u, hu, hk⟩ := andThen_eq_next h
      have w : Ran u (runDelay .interWrite u) := (pacingDelay_busOnly u).ran pacingDelay_wf
      have k := ih hk
      exact (writeByte_ran hu).trans (w.trans ⟨k.cfg, k.led, k.indicated, k.rx, k.rxq, k.sched, k.txs, k.mem, k.srOe, k.srClr⟩)

theorem loadContinue_ran (s : State) : Ran s (loadContinue s) := by
  rw [loadContinue]; split
  · exact ⟨rfl, rfl, rfl, rfl, rfl, rfl, ⟨[], by simp⟩, id, rfl, rfl⟩
  · have h := runPrims_ran (enterStandby s.mode) s
    exact ⟨h.cfg, h.led, h.indicated, h.rx, h.rxq, h.sched, h.txs, h.mem, h.srOe, h.srClr⟩

theorem sendFrame_ran (p : List Byte) (s : State) : Ran s (sendFrame p s) :=
  ⟨rfl, rfl, rfl, rfl, rfl, rfl, ⟨_, rfl⟩, id, rfl, rfl⟩

theorem Ran.withCs {s t : State} (h : Ran s t) (c : CS) : Ran s { t with cs := c } :=
  ⟨h.cfg, h.led, h.indicated, h.rx, h.rxq, h.sched, h.txs, h.mem, h.srOe, h.srClr⟩

theorem overlong_ran (s : State) : Ran s (overlong s) := by
  rw [overlong]; split
  · exact raiseErr_ran _ s
  · exact (Ran.refl s).withCs _

/-- What any instruction can do at most, from any state. -/
theorem exec_ran {i : Instr} {s t : State} (h : exec i s = .next t) : Ran s t := by
  cases i with
  | read a =>
    simp only [exec, execRead] at h
    split at h
    · cases h
    · injection h with h
      subst h
      have k := runPrims_ran (readEvents s.mode a) { s with opd := s.opd.setA a }
      exact (Ran.trans (s := s) ⟨k.cfg, k.led, k.indicated, k.rx, k.rxq, k.sched, k.txs, k.mem, k.srOe, k.srClr⟩
        (sendFrame_ran _ _)).withCs _
  | write a v =>
    simp only [exec, execWrite] at h
    split at h
    · cases h
    · obtain ⟨u, hu, hk⟩ := andThen_eq_next h
      injection hk with hk
      subst hk
      have k := runPrims_ran (enterWrite s.mode) { s with opd := (s.opd.setA a).setV v }
      have k' : Ran s (toWrite { s with opd := (s.opd.setA a).setV v }) :=
        ⟨k.cfg, k.led, k.indicated, k.rx, k.rxq, k.sched, k.txs, k.mem, k.srOe, k.srClr⟩
      exact ((k'.trans (writeByte_ran hu)).trans
        ((runPrims_ran (enterStandby u.mode) u).trans (sendFrame_ran _ _))).withCs _
  | dump =>
    simp only [exec, execDump] at h
    injection h with h
    subst h
    have k := dumpLoop_ran (maxPayload + 1) { s with dump := { chunk := s.dump.chunk, chlen := 0, daddr := 0 } }
    exact ⟨k.cfg, k.led, k.indicated, k.rx, k.rxq, k.sched, k.txs, k.mem, k.srOe, k.srClr⟩
  | load total =>
    simp only [exec, execLoad] at h
    split at h
    · cases h
    · injection h with h
      subst h
      have k0 : Ran s (sendFrame [] { s with load := { laddr := s.load.laddr, ltotal := total, ldone := s.load.ldone } }) :=
        ⟨rfl, rfl, rfl, rfl, rfl, rfl, ⟨_, rfl⟩, id, rfl, rfl⟩
      have k1 := k0.trans (runPrims_ran (enterWrite s.mode) _)
      refine Ran.trans ?_ (loadContinue_ran _)
      exact ⟨k1.cfg, k1.led, k1.indicated, k1.rx, k1.rxq, k1.sched, k1.txs, k1.mem, k1.srOe, k1.srClr⟩
  | reset => injection h with h; subst h; exact (Ran.refl s).withCs _
  | unknown p => injection h with h; subst h; exact raiseErr_ran _ _
  | illegalLen64 n => injection h with h; subst h; exact overlong_ran _
  | illegalLen128 n => injection h with h; subst h; exact overlong_ran _
  | ack =>
    simp only [exec, execAck] at h
    injection h with h
    subst h
    split
    · have k := dumpLoop_ran (maxPayload + 1)
        { s with dump := { chunk := s.dump.chunk, chlen := 0, daddr := s.dump.daddr + 1 } }
      exact ⟨k.cfg, k.led, k.indicated, k.rx, k.rxq, k.sched, k.txs, k.mem, k.srOe, k.srClr⟩
    · exact (Ran.refl s).withCs _
  | resetSentinel => injection h with h; subst h; exact raiseErr_ran _ _
  | ackwaitUnexpected p => injection h with h; subst h; exact raiseErr_ran _ _
  | loadChunk data =>
    simp only [exec, execLoadChunk] at h
    obtain ⟨u, hu, hk⟩ := andThen_eq_next h
    injection hk with hk
    subst hk
    have k0 : Ran s (txByte 0x00 s) := ⟨rfl, rfl, rfl, rfl, rfl, rfl, ⟨_, rfl⟩, id, rfl, rfl⟩
    exact (k0.trans (programBytes_ran hu)).trans (loadContinue_ran _)
  | readReply v => injection h with h; subst h; exact sendFrame_ran _ _
  | ackOut => injection h with h; subst h; exact ⟨rfl, rfl, rfl, rfl, rfl, rfl, ⟨_, rfl⟩, id, rfl, rfl⟩
  | dumpChunk data => injection h with h; subst h; exact (sendFrame_ran data s).withCs _
  | dumpLast data => injection h with h; subst h; exact (sendFrame_ran data s).withCs _

theorem countByte_ran (s : State) : Ran s (countByte s) := ⟨rfl, rfl, rfl, rfl, rfl, rfl, ⟨[], by simp⟩, id, rfl, rfl⟩

/-- What the block may do at most in one stretch, reset and report included: the parameters, RXQ and the schedule stay, TXS
grows, MEM keeps its canonical form, the optional lines stay held. -/
structure Passed (s t : State) : Prop where
  cfg : t.cfg = s.cfg
  rxq : t.rxq = s.rxq
  sched : t.sched = s.sched
  txs : ∃ sent, t.txs = s.txs ++ sent
  mem : Memory.wf s.mem = true → Memory.wf t.mem = true
  srOe : s.sr.oe ≠ some .deasserted → t.sr.oe ≠ some .deasserted
  srClr : s.sr.clr ≠ some .asserted → t.sr.clr ≠ some .asserted

theorem Ran.passed {s t : State} (h : Ran s t) : Passed s t :=
  ⟨h.cfg, h.rxq, h.sched, h.txs, h.mem, by rw [h.srOe]; exact id, by rw [h.srClr]; exact id⟩

theorem Passed.trans {s t u : State} (h : Passed s t) (k : Passed t u) : Passed s u := by
  obtain ⟨p, hp⟩ := h.txs
  obtain ⟨q, hq⟩ := k.txs
  exact ⟨k.cfg.trans h.cfg, k.rxq.trans h.rxq, k.sched.trans h.sched, ⟨p ++ q, by rw [hq, hp, List.append_assoc]⟩,
    fun w => k.mem (h.mem w), fun w => k.srOe (h.srOe w), fun w => k.srClr (h.srClr w)⟩

theorem Passed.withCs {s t : State} (h : Passed s t) (c : CS) : Passed s { t with cs := c } :=
  ⟨h.cfg, h.rxq, h.sched, h.txs, h.mem, h.srOe, h.srClr⟩

theorem Passed.refl (s : State) : Passed s s := (Ran.refl s).passed

theorem report_passed (s : State) : Passed s (report s) := by
  rw [report_eq]; exact ⟨rfl, rfl, rfl, ⟨[], by simp⟩, id, id, id⟩

/-- The end of an iteration is folded into the step that reaches it (00_scope R14). -/
theorem conclude_cases (s : State) : (s.cs = .report ∧ conclude s = report s) ∨ (s.cs ≠ .report ∧ conclude s = s) := by
  rw [conclude]; split <;> simp [*]

theorem conclude_passed (s : State) : Passed s (conclude s) := by
  rcases conclude_cases s with ⟨-, e⟩ | ⟨-, e⟩ <;> rw [e]
  · exact report_passed s
  · exact Passed.refl s

theorem concluded_eq_next {o : Host.Outcome State Fault Refusal} {t : State} (h : concluded o = .next t) :
    ∃ u, o = .next u ∧ t = conclude u := by
  obtain ⟨u, h1, h2⟩ := andThen_eq_next h
  exact ⟨u, h1, (Host.Outcome.next.inj h2).symm⟩

@[simp] theorem concluded_next (s : State) : concluded (.next s) = .next (conclude s) := rfl

@[simp] theorem concluded_fault (r : Fault) : concluded (.fault r) = .fault r := rfl

@[simp] theorem concluded_refused (r : Refusal) : concluded (.refused r) = .refused r := rfl

/-- An outcome whose next states have all passed. -/
def Passes (s : State) (o : Host.Outcome State Fault Refusal) : Prop := ∀ t, o = .next t → Passed s t

theorem Passed.passes {s t : State} (h : Passed s t) : Passes s (.next t) := by
  intro u e; rw [← Host.Outcome.next.inj e]; exact h

theorem Passes.of {s t : State} {o : Host.Outcome State Fault Refusal} (h : Passed s t) (k : Passes t o) : Passes s o :=
  fun _ e => h.trans (k _ e)

theorem concluded_passes {s : State} {o : Host.Outcome State Fault Refusal} (h : ∀ u, o = .next u → Ran s u) :
    Passes s (concluded o) := by
  intro t e
  obtain ⟨u, h1, rfl⟩ := concluded_eq_next e
  exact (h u h1).passed.trans (conclude_passed u)

/-! ## The block between two waits -/

theorem runToDelay_ran (ps : List Prim) : ∀ s : State, Ran s (runToDelay ps s).1 := by
  induction ps with
  | nil => exact Ran.refl
  | cons p ps ih =>
    intro s
    rw [runToDelay]
    split
    · exact Ran.refl s
    · exact ((p.run_busOnly s).ran p.run_wf).trans (ih _)

theorem advance_passes {ps : List Prim} {k : Task} {last : State → Host.Outcome State Fault Refusal} {s : State}
    (h : ∀ u, Passes u (last u)) : Passes s (advance ps k last s) := by
  have r := runToDelay_ran ps s
  rw [advance]
  split
  · rename_i e; rw [e] at r; exact (r.passed.withCs _).passes
  · rename_i e; rw [e] at r; exact Passes.of r.passed (h _)

theorem pushChunk_ran (b : Byte) (s : State) : Ran s (pushChunk b s) :=
  ⟨rfl, rfl, rfl, rfl, rfl, rfl, ⟨[], by simp⟩, id, rfl, rfl⟩

theorem sendAndWait_ran (p : List Byte) (s : State) : Ran s (sendAndWait p s) :=
  ⟨rfl, rfl, rfl, rfl, rfl, rfl, ⟨_, rfl⟩, id, rfl, rfl⟩

theorem nextAddress_ran (s : State) : Ran s (nextAddress s) :=
  ⟨rfl, rfl, rfl, rfl, rfl, rfl, ⟨[], by simp⟩, id, rfl, rfl⟩

theorem openLoad_ran (s : State) : Ran s (openLoad s) :=
  ⟨rfl, rfl, rfl, rfl, rfl, rfl, ⟨[], by simp⟩, id, rfl, rfl⟩

theorem finish_passes (k : Task) (s : State) : Passes s (finish k s) := by
  cases k with
  | boot => exact ((Passed.refl s).withCs _).passes
  | readReply => exact (((sendFrame_ran _ s).withCs .report).passed.trans (report_passed _)).passes
  | writeReply => exact (((sendFrame_ran _ s).withCs .report).passed.trans (report_passed _)).passes
  | dumpByte =>
    refine Passed.passes (Passed.trans ?_ (conclude_passed _))
    have h := pushChunk_ran s.opd.sampled s
    apply Ran.passed
    split
    · exact h.trans (sendAndWait_ran _ _)
    · exact h.trans ((nextAddress_ran _).trans (dumpLoop_ran _ _))
  | loadOpen => exact (((openLoad_ran s).trans (loadContinue_ran _)).passed.trans (conclude_passed _)).passes
  | loadByte bs =>
    refine concluded_passes fun u h => ?_
    obtain ⟨v, h1, h2⟩ := andThen_eq_next h
    rw [← Host.Outcome.next.inj h2]
    exact (countByte_ran s).trans ((programBytes_ran h1).trans (loadContinue_ran v))
  | close => exact (((Passed.refl s).withCs .report).trans (report_passed _)).passes

theorem suspend_passes (ps : List Prim) (k : Task) (s : State) : Passes s (suspend ps k s) :=
  advance_passes (finish_passes k)

theorem dumpOn_passes (s : State) : Passes s (dumpOn s) := by
  rw [dumpOn]; split
  · exact ((dumpTail_ran s).passed.trans (conclude_passed _)).passes
  · exact suspend_passes _ _ s

theorem loadOn_passes (s : State) : Passes s (loadOn s) := by
  rw [loadOn]; split
  · exact ((Passed.refl s).withCs _).passes
  · exact suspend_passes _ _ s

theorem programOn_passes (bs : List Byte) (s : State) : Passes s (programOn bs s) := by
  cases bs with
  | nil => exact loadOn_passes s
  | cons b bs =>
    rw [programOn]
    split
    · exact loadOn_passes s
    · split
      · intro t e; cases e
      · split
        · intro t e; cases e
        · exact suspend_passes _ _ s

theorem resume_passes (k : Task) (s : State) : Passes s (resume k s) := by
  cases k with
  | boot => exact finish_passes .boot s
  | readReply => exact finish_passes .readReply s
  | writeReply => exact finish_passes .writeReply s
  | dumpByte =>
    have h := pushChunk_ran s.opd.sampled s
    show Passes s (if _ then _ else _)
    split
    · exact (h.trans (sendAndWait_ran _ _)).passed.passes
    · exact Passes.of (h.trans (nextAddress_ran _)).passed (dumpOn_passes _)
  | loadOpen => exact Passes.of (openLoad_ran s).passed (loadOn_passes _)
  | loadByte bs => exact Passes.of (countByte_ran s).passed (programOn_passes bs _)
  | close => exact finish_passes .close s

theorem suspendRaise_passes (e : Err) (s : State) : Passes s (suspendRaise e s) := by
  refine Passes.of (t := { s with err := e }) ?_ (suspend_passes _ _ _)
  exact ⟨rfl, rfl, rfl, ⟨[], by simp⟩, id, id, id⟩

theorem start_passes (i : Instr) (s : State) : Passes s (start i s) := by
  have plain : ∀ i, Passes s (concluded (exec i s)) := fun i => concluded_passes fun _ h => exec_ran h
  have set : ∀ t : State, t.cfg = s.cfg ∧ t.rxq = s.rxq ∧ t.sched = s.sched ∧ t.txs = s.txs ∧ t.mem = s.mem ∧
      t.sr = s.sr → Passed s t := by
    rintro t ⟨h1, h2, h3, h4, h5, h6⟩
    exact ⟨h1, h2, h3, ⟨[], by simp [h4]⟩, by rw [h5]; exact id, by rw [h6]; exact id, by rw [h6]; exact id⟩
  have hov : Passes s (startOverlong s) := by
    rw [startOverlong]; split
    · exact suspendRaise_passes _ s
    · exact (overlong_ran s).passed.passes
  cases i with
  | read a =>
    rw [start, startRead]; split
    · intro t e; cases e
    · refine Passes.of ?_ (suspend_passes _ _ _)
      exact set _ ⟨rfl, rfl, rfl, rfl, rfl, rfl⟩
  | write a v =>
    rw [start, startWrite]; split
    · intro t e; cases e
    · refine Passes.of ?_ (suspend_passes _ _ _)
      exact set _ ⟨rfl, rfl, rfl, rfl, rfl, rfl⟩
  | dump => exact Passes.of (set (firstChunk s) ⟨rfl, rfl, rfl, rfl, rfl, rfl⟩) (dumpOn_passes _)
  | load total =>
    rw [start, startLoad]; split
    · intro t e; cases e
    · exact Passes.of ((set (setTotal total s) ⟨rfl, rfl, rfl, rfl, rfl, rfl⟩).trans (sendFrame_ran [] _).passed)
        (suspend_passes _ _ _)
  | reset => exact plain .reset
  | unknown p => exact suspendRaise_passes _ s
  | illegalLen64 n => exact hov
  | illegalLen128 n => exact hov
  | ack =>
    rw [start, startAck]; split
    · exact Passes.of (set (nextChunk s) ⟨rfl, rfl, rfl, rfl, rfl, rfl⟩) (dumpOn_passes _)
    · exact plain .ack
  | resetSentinel => exact suspendRaise_passes _ s
  | ackwaitUnexpected p => exact suspendRaise_passes _ s
  | loadChunk data =>
    exact Passes.of (t := txByte 0x00 s) ⟨rfl, rfl, rfl, ⟨_, rfl⟩, id, id, id⟩ (programOn_passes data _)
  | readReply v => exact plain (.readReply v)
  | ackOut => exact plain .ackOut
  | dumpChunk data => exact plain (.dumpChunk data)
  | dumpLast data => exact plain (.dumpLast data)

/-! ## Moves -/

theorem perform_passes (p : Pace) (i : Instr) (s : State) : Passes s (perform p i s) := by
  cases p with
  | toByte => exact concluded_passes fun _ h => exec_ran h
  | toWait => exact start_passes i s

theorem raiseOn_passes (p : Pace) (e : Err) (s : State) : Passes s (raiseOn p e s) := by
  cases p with
  | toByte => exact ((raiseErr_ran e s).passed.trans (conclude_passed _)).passes
  | toWait => exact suspendRaise_passes e s

theorem runDelay_ran (t : DelayName) (s : State) : Ran s (runDelay t s) :=
  (Prim.run_busOnly (.delay t) s).ran (Prim.run_wf (.delay t))

theorem proceed_passes (p : Pace) (t : DelayName) (rest : List Prim) (k : Task) (s : State) :
    Passes s (proceed p t rest k s) := by
  cases p with
  | toByte => exact Passes.of ((runDelay_ran t s).trans (runPrims_ran rest _)).passed (finish_passes k _)
  | toWait => exact Passes.of (runDelay_ran t s).passed (advance_passes (resume_passes k))

theorem bootSequence_passed (s : State) : Passed s (bootSequence s) := by
  have h := runPrims_ran bootLines s
  refine ⟨h.cfg, h.rxq, h.sched, h.txs, h.mem, fun _ => ?_, fun _ => ?_⟩
  · show ((runPrims bootLines s).sr.hold).oe ≠ _
    cases e : (runPrims bootLines s).sr.oe <;> simp [ShiftReg.hold, e]
  · show ((runPrims bootLines s).sr.hold).clr ≠ _
    cases e : (runPrims bootLines s).sr.clr <;> simp [ShiftReg.hold, e]

theorem takeLength_passes (p : Pace) (c : RxContext) (n : Byte) (s : State) : Passes s (takeLength p c n s) := by
  rw [takeLength]
  split
  · split
    · refine Passes.of ?_ (perform_passes _ _ _)
      exact ⟨rfl, rfl, rfl, ⟨[], by simp⟩, id, id, id⟩
    · exact ((Passed.refl s).withCs _).passes
  · exact perform_passes _ _ s

theorem takePayload_passes (p : Pace) (c : RxContext) (n : Fin 64) (k : Nat) (d : Bool) (b : Byte) (s : State) :
    Passes s (takePayload p c n k d b s) := by
  rw [takePayload]
  split
  · split
    · exact raiseOn_passes _ _ s
    · exact ((Passed.refl s).withCs _).passes
  · split
    · refine Passes.of ?_ (perform_passes _ _ _)
      exact ⟨rfl, rfl, rfl, ⟨[], (List.append_nil s.txs).symm⟩, id, id, id⟩
    · exact Passed.passes ⟨rfl, rfl, rfl, ⟨[], by simp⟩, id, id, id⟩

/-- What the block's own move can do at most: it takes at most one byte from the head of RXQ. -/
theorem blockMove_passes (p : Pace) (s : State) :
    Passes s (blockMove p s) ∨ ∃ b q, s.rxq = b :: q ∧ Passes { s with rxq := q } (blockMove p s) := by
  unfold blockMove
  split
  · refine .inl ?_
    split
    · exact Passes.of (bootSequence_passed s) (proceed_passes _ _ _ _ _)
    · exact (bootSequence_passed s).passes
  · exact .inl (proceed_passes _ _ _ _ _)
  · split
    · exact .inl (Passed.refl s).passes
    · rename_i n q hq; exact .inr ⟨n, q, hq, takeLength_passes _ _ _ _⟩
  · split
    · exact .inl (Passed.refl s).passes
    · rename_i b q hq; exact .inr ⟨b, q, hq, takePayload_passes _ _ _ _ _ _ _⟩
  · exact .inl (perform_passes _ _ s)
  · exact .inl (report_passed s).passes

theorem commit_ran (s : State) : Ran s (commit s) := by
  refine ⟨?_, ?_, ?_, ?_, ?_, ?_, ⟨[], ?_⟩, commit_wf, ?_, ?_⟩
  all_goals rw [commit_eq]
  simp

theorem timeout_passes (p : Pace) (s : State) : Passes s (timeout p s) := by
  rw [timeout]
  split
  · split
    · split
      · exact (Passed.refl s).passes
      · exact raiseOn_passes _ _ s
    · exact raiseOn_passes _ _ s
    all_goals exact (Passed.refl s).passes
  · exact (Passed.refl s).passes

theorem powerCycle_wf {s : State} (h : Memory.wf s.mem = true) : Memory.wf (powerCycle s).mem = true := by
  rw [powerCycle]; split
  · exact h
  · exact write_wf h _ _

/-- A step with a scheduled move is that move; with none, it is the move at rest. -/
theorem step_cons {m : Move} {ms : List Move} {s : State} (h : s.sched = m :: ms) :
    step s = runMove m { s with sched := ms } := by rw [step, h]

theorem step_nil {s : State} (h : s.sched = []) : step s = restMove s := by rw [step, h]

/-- At rest a block that does not wait moves; so does one with nothing pending. -/
theorem restMove_block {s : State} (h : s.waiting = false ∨ s.pend = none) : restMove s = blockMove .toByte s := by
  rw [restMove, if_neg]
  rcases h with h | h <;> simp [h]

theorem waiting_of_cons {s : State} {b : Byte} {q : List Byte} (h : s.rxq = b :: q) : s.waiting = false := by
  simp [State.waiting, h]

theorem waiting_exec {s : State} {c : RxContext} (h : s.cs = .exec c) : s.waiting = false := by
  simp [State.waiting, h]

theorem waiting_report {s : State} (h : s.cs = .report) : s.waiting = false := by simp [State.waiting, h]

/-- At rest, the block executes the frame it holds, and reports where that ends the iteration. -/
theorem step_exec {s : State} {c : RxContext} (h : s.sched = []) (hc : s.cs = .exec c) :
    step s = concluded (exec (classify c s.rxPayload) s) := by
  rw [step_nil h, restMove_block (.inl (waiting_exec hc)), blockMove, hc]
  rfl

/-- At rest, a block that waits for a length byte takes the one at the head of RXQ. -/
theorem step_len {s : State} {c : RxContext} {n : Byte} {q : List Byte} (h : s.sched = []) (hc : s.cs = .len c)
    (hq : s.rxq = n :: q) : step s = takeLength .toByte c n { s with rxq := q } := by
  rw [step_nil h, restMove_block (.inl (waiting_of_cons hq)), blockMove, hc]
  simp only [hq]

/-- At rest, a block that waits for a payload byte takes the one at the head of RXQ. -/
theorem step_payload {s : State} {c : RxContext} {n : Fin 64} {k : Nat} {d : Bool} {b : Byte} {q : List Byte}
    (h : s.sched = []) (hc : s.cs = .payload c n k d) (hq : s.rxq = b :: q) :
    step s = takePayload .toByte c n k d b { s with rxq := q } := by
  rw [step_nil h, restMove_block (.inl (waiting_of_cons hq)), blockMove, hc]
  simp only [hq]

theorem run_zero (s : State) : Host.Core.run Sys2Proof.core 0 s = .next s := rfl

theorem run_succ (n : Nat) (s : State) :
    Host.Core.run Sys2Proof.core (n + 1) s =
      match step s with
      | .next t => Host.Core.run Sys2Proof.core n t
      | .fault r => .fault r
      | .refused r => .refused r := by
  refine (Host.Core.run.eq_2 Sys2Proof.core s n).trans ?_
  generalize hx : Sys2Proof.core.step s = o
  rw [show step s = o from hx]
  cases o <;> rfl

theorem run_succ_of {n : Nat} {s t : State} (h : step s = .next t) :
    Host.Core.run Sys2Proof.core (n + 1) s = Host.Core.run Sys2Proof.core n t := by rw [run_succ, h]

/-- Runs compose. -/
theorem run_add {m n : Nat} {s t : State} (h : Host.Core.run Sys2Proof.core m s = .next t) :
    Host.Core.run Sys2Proof.core (m + n) s = Host.Core.run Sys2Proof.core n t := by
  induction m generalizing s with
  | zero => rw [run_zero] at h; injection h with h; rw [h, Nat.zero_add]
  | succ m ih =>
    rw [Nat.add_right_comm, run_succ]
    rw [run_succ] at h
    cases hs : step s with
    | next u => rw [hs] at h; exact ih h
    | fault r => rw [hs] at h; cases h
    | refused r => rw [hs] at h; cases h

end Sys2Proof.Machine
end

