-- ==== Sys2Proof/Laws/Exec.lean ====
section
/-! SUPPORT. The meanings in closed form, for states with the lines of MODE and the clocks low, and the lines every
instruction leaves (42_commands, 43_bulk). -/

namespace Sys2Proof.Machine

/-- What keeps the lines of MODE and the clocks low. -/
structure State.Settled (s : State) : Prop where
  lines : s.LinesMatch
  clocks : s.ClocksLow

theorem settled_of_eq {s t : State} (h : s.Settled) (h1 : t.mode = s.mode) (h2 : t.pins.ddir = s.pins.ddir)
    (h3 : t.pins.ce = s.pins.ce) (h4 : t.pins.oe = s.pins.oe) (h5 : t.pins.we = s.pins.we)
    (h6 : t.sr.srclk = s.sr.srclk) (h7 : t.sr.rclk = s.sr.rclk) : t.Settled :=
  ⟨⟨by rw [h2, h1, h.lines.ddir], by rw [h3, h1, h.lines.ce], by rw [h4, h1, h.lines.oe], by rw [h5, h1, h.lines.we]⟩,
    ⟨h6.trans h.clocks.srclk, h7.trans h.clocks.rclk⟩⟩

theorem atMode_settled (m : Mode) {s : State} (h : s.ClocksLow) : (s.atMode m).Settled :=
  ⟨atMode_linesMatch _ _, atMode_clocksLow _ h⟩

theorem toStandby_settled {s : State} (h : s.Settled) : (toStandby s).Settled := by
  rw [toStandby_eq h.lines]; exact atMode_settled _ h.clocks

theorem toWrite_settled {s : State} (h : s.Settled) : (toWrite s).Settled := by
  rw [toWrite_eq h.lines]; exact atMode_settled _ h.clocks

theorem raiseErr_settled (e : Err) {s : State} (h : s.Settled) : (raiseErr e s).Settled := by
  rw [raiseErr_eq e h.lines]
  exact settled_of_eq (atMode_settled .standby h.clocks) rfl rfl rfl rfl rfl rfl rfl

theorem writeByte_settled {a : Addr} {v : Byte} {s t : State} (h : s.Settled) (ht : writeByte a v s = .next t) :
    t.Settled ∧ t.mode = .write := by
  rcases writeByte_cases a v s with ⟨-, e⟩ | ⟨-, -, e⟩ | ⟨hm, hr, -⟩
  · exact absurd (e.symm.trans ht) (by simp)
  · exact absurd (e.symm.trans ht) (by simp)
  · have e := Host.Outcome.next.inj ((writeByte_eq h.lines h.clocks hm hr).symm.trans ht)
    have hc := loaded_clocksLow a h.clocks
    subst e
    exact ⟨settled_of_eq h (by simp) (by simp) (by simp) (by simp) (by simp)
      (by simp [hc.srclk, h.clocks.srclk]) (by simp [hc.rclk, h.clocks.rclk]), by simp [hm]⟩

theorem pacingDelay_settled {s : State} (h : s.Settled) : (pacingDelay s).Settled ∧ (pacingDelay s).mode = s.mode := by
  rw [pacingDelay_eq]; exact ⟨settled_of_eq h rfl rfl rfl rfl rfl rfl rfl, rfl⟩

/-- The program loop keeps MODE and its lines. -/
theorem programBytes_settled {data : List Byte} {s t : State} (h : s.Settled) (ht : programBytes data s = .next t) :
    t.Settled ∧ t.mode = s.mode := by
  induction data generalizing s with
  | nil => have := Host.Outcome.next.inj ht; subst this; exact ⟨h, rfl⟩
  | cons b bs ih =>
    rw [programBytes] at ht
    split at ht
    · have := Host.Outcome.next.inj ht; subst this; exact ⟨h, rfl⟩
    · obtain ⟨u, hu, hk⟩ := andThen_eq_next ht
      have hs : s.mode = .write := by
        rcases writeByte_cases s.load.laddr b s with ⟨-, e⟩ | ⟨hm, -⟩ | ⟨hm, -⟩
        · exact absurd (e.symm.trans hu) (by simp)
        · exact hm
        · exact hm
      obtain ⟨h1, h2⟩ := writeByte_settled h hu
      obtain ⟨h3, h4⟩ := pacingDelay_settled h1
      obtain ⟨h5, h6⟩ := ih (s := countByte (pacingDelay u)) (settled_of_eq h3 rfl rfl rfl rfl rfl rfl rfl) hk
      exact ⟨h5, h6.trans (h4.trans (h2.trans hs.symm))⟩

theorem loadContinue_settled {s : State} (h : s.Settled) : (loadContinue s).Settled := by
  rw [loadContinue]; split
  · exact settled_of_eq h rfl rfl rfl rfl rfl rfl rfl
  · exact settled_of_eq (toStandby_settled h) rfl rfl rfl rfl rfl rfl rfl

/-- The stretch of dump() that DUMP runs (42 R215, 43 R240). -/
theorem execDump_run {s t : State} (h : s.Settled) (ht : exec .dump s = .next t) :
    DumpRun (firstChunk s) t := by
  have e := Host.Outcome.next.inj ht
  subst e
  exact dumpRun_loop _ _ ⟨h.lines.ddir, h.lines.ce, h.lines.oe, h.lines.we⟩ ⟨h.clocks.srclk, h.clocks.rclk⟩
    (by simp) (by simp [maxPayload])

/-- The stretch of dump() that an ack after a full chunk runs (43 R240). -/
theorem execAck_run {s t : State} (h : s.Settled) (hl : s.dump.chlen = 63) (ht : exec .ack s = .next t) :
    DumpRun (nextChunk s) t := by
  have e := Host.Outcome.next.inj ht
  rw [if_pos (by exact hl)] at e
  subst e
  exact dumpRun_loop _ _ ⟨h.lines.ddir, h.lines.ce, h.lines.oe, h.lines.we⟩ ⟨h.clocks.srclk, h.clocks.rclk⟩
    (by simp) (by simp [maxPayload])

/-- An ack after any other chunk ends the dump (43 R240). -/
theorem execAck_end {s : State} (hl : s.dump.chlen ≠ 63) : exec .ack s = .next { s with cs := .report } := by
  rw [exec, execAck, if_neg (by exact hl)]

/-- READ in closed form (42 R213). -/
theorem execRead_shape (a : Addr) {s : State} (h : s.Settled) (ha : addrRefused s.cfg a = false) :
    ∃ (b : Byte) (x y : Addr) (d : Nat),
      exec (.read a) s =
        .next { s.atMode .standby with
          cs := .report
          sr := ((s.sr.setSer (a.getLsbD 0)).setShift x).setOut y
          opd := { a := a, v := s.opd.v, sampled := b }
          txs := s.txs ++ frame [b]
          draws := d } ∧
      (PSr s.cfg → x = a ∧ y = a) ∧
      (PSr s.cfg → PReadSettle s.cfg → s.pend = none → b = Memory.read s.mem (idx a) ∧ d = s.draws) ∧
      (PSr s.cfg → s.pend ≠ none → b = Config.freeByte s.draws ∧ d = s.draws + 1) := by
  obtain ⟨b, x, y, d, e, h1, h2, h3⟩ := readByte_shape (s := { s with opd := s.opd.setA a }) a
    ⟨h.lines.ddir, h.lines.ce, h.lines.oe, h.lines.we⟩ ⟨h.clocks.srclk, h.clocks.rclk⟩
  refine ⟨b, x, y, d, ?_, h1, h2, h3⟩
  rw [exec, execRead, if_neg (by simp [ha])]
  simp only [e]
  rfl

/-- WRITE in closed form: the lines of WRITE around one strobe (42 R214). -/
theorem execWrite_eq (a : Addr) (v : Byte) {s : State} (h : s.Settled) (ha : addrRefused s.cfg a = false) :
    exec (.write a v) s =
      .next { sendFrame [] ((strobe { loaded a (({ s with opd := (s.opd.setA a).setV v } : State).atMode .write) with
        pins := { ddir := .output, dout := v, ce := .asserted, oe := .deasserted, we := .deasserted } }).atMode .standby)
        with cs := .report } := by
  have hl : ({ s with opd := (s.opd.setA a).setV v } : State).LinesMatch :=
    ⟨h.lines.ddir, h.lines.ce, h.lines.oe, h.lines.we⟩
  have hq : ({ s with opd := (s.opd.setA a).setV v } : State).ClocksLow := ⟨h.clocks.srclk, h.clocks.rclk⟩
  rw [exec, execWrite, if_neg (by simp [ha]), toWrite_eq hl,
    writeByte_eq (s := ({ s with opd := (s.opd.setA a).setV v } : State).atMode .write) (atMode_linesMatch _ _)
      (atMode_clocksLow _ hq) rfl ha, andThen_next, toStandby_eq]
  · rfl
  · exact ⟨by simp [Mode.ddir], by simp [Mode.ce], by simp [Mode.oe], by simp [Mode.we]⟩

/-- LOAD of at least one byte waits in WRITE mode; LOAD 0 is over (42 R216, 43 R243, R246). -/
theorem execLoad_eq (total : Addr) {s : State} (h : s.Settled) (hr : loadRefused s.cfg total = false) :
    exec (.load total) s =
      .next { (if 0 < total.toNat then s.atMode .write else s.atMode .standby) with
        cs := if 0 < total.toNat then .len .load else .report
        load := { laddr := 0, ltotal := total, ldone := 0 }
        txs := s.txs ++ [0x00] } := by
  have hl : (sendFrame [] (setTotal total s)).LinesMatch :=
    ⟨h.lines.ddir, h.lines.ce, h.lines.oe, h.lines.we⟩
  rw [exec, execLoad, if_neg (by simp [hr])]
  simp only [toWrite_eq hl]
  by_cases h0 : 0 < total.toNat
  · rw [loadContinue, if_pos (by exact h0), if_pos h0, if_pos h0]; rfl
  · rw [loadContinue, if_neg (by exact h0), if_neg h0, if_neg h0, toStandby_eq ⟨rfl, rfl, rfl, rfl⟩]; rfl

/-- What every instruction leaves: the lines of its MODE and the clocks low (10_state R38, 40 R132). -/
theorem exec_settled {i : Instr} {s t : State} (h : s.Settled) (ht : exec i s = .next t) : t.Settled := by
  cases i with
  | read a =>
    cases ha : addrRefused s.cfg a with
    | true => simp [exec, execRead, ha] at ht
    | false =>
      obtain ⟨b, x, y, d, e, -⟩ := execRead_shape a h ha
      have := Host.Outcome.next.inj (e.symm.trans ht)
      subst this
      exact settled_of_eq (atMode_settled .standby h.clocks) rfl rfl rfl rfl rfl rfl rfl
  | write a v =>
    cases ha : addrRefused s.cfg a with
    | true => simp [exec, execWrite, ha] at ht
    | false =>
      have := Host.Outcome.next.inj ((execWrite_eq a v h ha).symm.trans ht)
      subst this
      have hc := loaded_clocksLow a (atMode_clocksLow .write (s := ({ s with opd := (s.opd.setA a).setV v } : State))
        ⟨h.clocks.srclk, h.clocks.rclk⟩)
      exact ⟨⟨rfl, rfl, rfl, rfl⟩, ⟨by simp [hc.srclk], by simp [hc.rclk]⟩⟩
  | dump => have r := execDump_run h ht; exact ⟨r.lines, r.clocks⟩
  | load total =>
    cases hr : loadRefused s.cfg total with
    | true => simp [exec, execLoad, hr] at ht
    | false =>
      have := Host.Outcome.next.inj ((execLoad_eq total h hr).symm.trans ht)
      subst this
      split
      · exact settled_of_eq (atMode_settled .write h.clocks) rfl rfl rfl rfl rfl rfl rfl
      · exact settled_of_eq (atMode_settled .standby h.clocks) rfl rfl rfl rfl rfl rfl rfl
  | reset => have := Host.Outcome.next.inj ht; subst this; exact settled_of_eq h rfl rfl rfl rfl rfl rfl rfl
  | unknown p => have := Host.Outcome.next.inj ht; subst this; exact raiseErr_settled _ h
  | illegalLen64 n =>
    have := Host.Outcome.next.inj ht; subst this
    rw [overlong]; split
    · exact raiseErr_settled _ h
    · exact settled_of_eq h rfl rfl rfl rfl rfl rfl rfl
  | illegalLen128 n =>
    have := Host.Outcome.next.inj ht; subst this
    rw [overlong]; split
    · exact raiseErr_settled _ h
    · exact settled_of_eq h rfl rfl rfl rfl rfl rfl rfl
  | ack =>
    by_cases hl : s.dump.chlen = 63
    · have r := execAck_run h hl ht; exact ⟨r.lines, r.clocks⟩
    · have := Host.Outcome.next.inj ((execAck_end hl).symm.trans ht); subst this
      exact settled_of_eq h rfl rfl rfl rfl rfl rfl rfl
  | resetSentinel => have := Host.Outcome.next.inj ht; subst this; exact raiseErr_settled _ h
  | ackwaitUnexpected p => have := Host.Outcome.next.inj ht; subst this; exact raiseErr_settled _ h
  | loadChunk data =>
    obtain ⟨u, hu, hk⟩ := andThen_eq_next (show andThen (programBytes data (txByte 0x00 s)) _ = _ from ht)
    have := Host.Outcome.next.inj hk; subst this
    exact loadContinue_settled
      (programBytes_settled (s := txByte 0x00 s) (settled_of_eq h rfl rfl rfl rfl rfl rfl rfl) hu).1
  | readReply v => have := Host.Outcome.next.inj ht; subst this; exact settled_of_eq h rfl rfl rfl rfl rfl rfl rfl
  | ackOut => have := Host.Outcome.next.inj ht; subst this; exact settled_of_eq h rfl rfl rfl rfl rfl rfl rfl
  | dumpChunk data => have := Host.Outcome.next.inj ht; subst this; exact settled_of_eq h rfl rfl rfl rfl rfl rfl rfl
  | dumpLast data => have := Host.Outcome.next.inj ht; subst this; exact settled_of_eq h rfl rfl rfl rfl rfl rfl rfl

end Sys2Proof.Machine
end

