-- ==== Sys2Proof/Laws/PerInstr.lean ====
section
/-! SUPPORT. Statements about every instruction as syntax, one lemma per constructor. The family EncodeLen: the first byte
of a well-formed instruction's encoding gives its length (30_encoding R91, R106). -/

namespace Sys2Proof.Laws.EncodeLen

/-- The encoding is a length byte n ≤ 63 and n more bytes, or one illegal length byte. -/
def Statement (i : Instr) : Prop :=
  WellFormed i → ∃ (n : Byte) (p : List Byte), encode i = n :: p ∧
    (n.toNat ≤ 63 ∧ p.length = n.toNat ∨ 64 ≤ n.toNat ∧ p = [])

theorem frame_statement {p : List Byte} (h : p.length ≤ 63) : ∃ (n : Byte) (q : List Byte), frame p = n :: q ∧
    (n.toNat ≤ 63 ∧ q.length = n.toNat ∨ 64 ≤ n.toNat ∧ q = []) :=
  ⟨_, _, rfl, .inl (by rw [lengthByte_toNat h]; exact ⟨h, rfl⟩)⟩

theorem read (a : Addr) : Statement (.read a) := fun _ => frame_statement (by simp)

theorem write (a : Addr) (v : Byte) : Statement (.write a v) := fun _ => frame_statement (by simp)

theorem dump : Statement .dump := fun _ => frame_statement (by simp)

theorem load (total : Addr) : Statement (.load total) := fun _ => frame_statement (by simp)

theorem reset : Statement .reset := fun _ => frame_statement (by simp)

theorem unknown (payload : List Byte) : Statement (.unknown payload) := fun h =>
  frame_statement (by simp [WellFormed, Instr.wf] at h; exact h.1)

theorem illegalLen64 (n : Byte) : Statement (.illegalLen64 n) := fun h =>
  ⟨n, [], rfl, .inr ⟨by simp [WellFormed, Instr.wf] at h; exact h.1, rfl⟩⟩

theorem illegalLen128 (n : Byte) : Statement (.illegalLen128 n) := fun h =>
  ⟨n, [], rfl, .inr ⟨by simp [WellFormed, Instr.wf] at h; omega, rfl⟩⟩

theorem ack : Statement .ack := fun _ => frame_statement (by simp)

theorem resetSentinel : Statement .resetSentinel := fun _ => frame_statement (by simp)

theorem ackwaitUnexpected (payload : List Byte) : Statement (.ackwaitUnexpected payload) := fun h =>
  frame_statement (by simp [WellFormed, Instr.wf] at h; exact h.1.2)

theorem loadChunk (data : List Byte) : Statement (.loadChunk data) := fun h =>
  frame_statement (by simpa [WellFormed, Instr.wf] using h)

theorem readReply (v : Byte) : Statement (.readReply v) := fun _ => frame_statement (by simp)

theorem ackOut : Statement .ackOut := fun _ => frame_statement (by simp)

theorem dumpChunk (data : List Byte) : Statement (.dumpChunk data) := fun h =>
  frame_statement (by simp [WellFormed, Instr.wf, maxPayload] at h; omega)

theorem dumpLast (data : List Byte) : Statement (.dumpLast data) := fun h =>
  frame_statement (by simp [WellFormed, Instr.wf] at h; omega)

end Sys2Proof.Laws.EncodeLen
end

