-- ==== Sys2Proof/Laws/Suspend.lean ====
section
/-! SUPPORT. The block between two waits: where events rest (10_state R23), what the lines depend on, and the invariant in
the middle of a procedure (00_scope R14). -/

namespace Sys2Proof.Machine

/-! ## Events and CS -/

/-- An event neither reads nor writes CS. -/
theorem Prim.run_withCs (p : Prim) (c : CS) (s : State) : p.run { s with cs := c } = { p.run s with cs := c } := by
  cases p with
  | setWE l =>
    simp only [Prim.run, driveWE, strobe]
    split
    · split
      · split <;> rfl
      · rfl
    · rfl
  | setSRCLK b =>
    simp only [Prim.run, driveSRCLK, srclkRise]
    split
    · split <;> rfl
    · rfl
  | setRCLK b =>
    simp only [Prim.run, driveRCLK, rclkRise]
    split
    · split <;> rfl
    · rfl
  | delay t =>
    cases t
    case interWrite =>
      rcases s with ⟨_, _, _, _, _, _, _, _, _, _, _, _, _ | _, _, _, _, _, _⟩
      · rfl
      · simp only [Prim.run, runDelay, pacingDelay, State.drawn, commit]
        split
        · rfl
        · split <;> rfl
    all_goals rfl
  | sampleD =>
    simp only [Prim.run, Sys2Proof.Machine.sampleD]
    by_cases h : (s.devDrives && !s.ctrlDrives && s.pend.isNone && decide (PReadSettle s.cfg)) = true
    · rw [if_pos h]; exact if_pos h
    · rw [if_neg h]
      refine (if_neg h).trans ?_
      by_cases h' : (s.ctrlDrives && !s.devDrives) = true
      · rw [if_pos h']; exact if_pos h'
      · rw [if_neg h']; exact if_neg h'
  | setDir d => rfl
  | setD v => rfl
  | setCE l => rfl
  | setOE l => rfl
  | setSER b => rfl
  | setMode m => rfl

theorem runPrims_withCs (ps : List Prim) (c : CS) : ∀ s : State,
    runPrims ps { s with cs := c } = { runPrims ps s with cs := c } := by
  induction ps with
  | nil => exact fun _ => rfl
  | cons p ps ih => intro s; rw [runPrims_cons, p.run_withCs, ih]; rfl

/-! ## What the lines depend on -/

/-- The same MODE, pins and clocks. -/
structure SameLines (s t : State) : Prop where
  mode : t.mode = s.mode
  pins : t.pins = s.pins
  srclk : t.sr.srclk = s.sr.srclk
  rclk : t.sr.rclk = s.sr.rclk

theorem SameLines.refl (s : State) : SameLines s s := ⟨rfl, rfl, rfl, rfl⟩

theorem SameLines.symm {s t : State} (h : SameLines s t) : SameLines t s :=
  ⟨h.mode.symm, h.pins.symm, h.srclk.symm, h.rclk.symm⟩

theorem SameLines.trans {s t u : State} (h : SameLines s t) (k : SameLines t u) : SameLines s u :=
  ⟨k.mode.trans h.mode, k.pins.trans h.pins, k.srclk.trans h.srclk, k.rclk.trans h.rclk⟩

theorem SameLines.linesMatch {s t : State} (h : SameLines s t) (k : s.LinesMatch) : t.LinesMatch :=
  ⟨by rw [h.pins, h.mode, k.ddir], by rw [h.pins, h.mode, k.ce], by rw [h.pins, h.mode, k.oe],
    by rw [h.pins, h.mode, k.we]⟩

theorem SameLines.clocksLow {s t : State} (h : SameLines s t) (k : s.ClocksLow) : t.ClocksLow :=
  ⟨h.srclk.trans k.srclk, h.rclk.trans k.rclk⟩

theorem SameLines.contention {s t : State} (h : SameLines s t) : t.contention = s.contention := by
  simp only [State.contention, State.ctrlDrives, State.devDrives, h.pins]

theorem strobe_sameLines (s : State) : SameLines s (strobe s) := ⟨by simp, by simp, by simp, by simp⟩

theorem srclkRise_sameLines (s : State) : SameLines s (srclkRise s) := by
  rw [srclkRise]; split <;> exact ⟨rfl, rfl, rfl, rfl⟩

theorem rclkRise_sameLines (s : State) : SameLines s (rclkRise s) := by
  rw [rclkRise]; split <;> exact ⟨rfl, rfl, rfl, rfl⟩

theorem sampleD_sameLines (s : State) : SameLines s (sampleD s) := by
  rw [sampleD]; split
  · exact ⟨rfl, rfl, rfl, rfl⟩
  · split <;> exact ⟨rfl, rfl, rfl, rfl⟩

theorem commit_sameLines (s : State) : SameLines s (commit s) := by rw [commit_eq]; exact ⟨rfl, rfl, rfl, rfl⟩

theorem runDelay_sameLines (t : DelayName) (s : State) : SameLines s (runDelay t s) := by
  cases t <;> first | exact SameLines.refl s | (rw [runDelay, pacingDelay_eq]; exact ⟨rfl, rfl, rfl, rfl⟩)

/-- What an event does to MODE, the pins and the clocks depends on these alone. -/
theorem Prim.run_sameLines (p : Prim) {s t : State} (h : SameLines s t) : SameLines (p.run s) (p.run t) := by
  obtain ⟨h1, h2, h3, h4⟩ := h
  cases p with
  | setWE l =>
    have k : SameLines { s with pins := s.pins.setWE l } { t with pins := t.pins.setWE l } :=
      ⟨h1, by rw [h2], h3, h4⟩
    simp only [Prim.run, driveWE, h2]
    rw [h2] at k
    split
    · exact (strobe_sameLines _).symm.trans (k.trans (strobe_sameLines _))
    · exact k
  | setSRCLK b =>
    have k : SameLines { s with sr := s.sr.setSrclk b } { t with sr := t.sr.setSrclk b } := ⟨h1, h2, rfl, h4⟩
    simp only [Prim.run, driveSRCLK, h3]
    split
    · exact (srclkRise_sameLines _).symm.trans (k.trans (srclkRise_sameLines _))
    · exact k
  | setRCLK b =>
    have k : SameLines { s with sr := s.sr.setRclk b } { t with sr := t.sr.setRclk b } := ⟨h1, h2, h3, rfl⟩
    simp only [Prim.run, driveRCLK, h4]
    split
    · exact (rclkRise_sameLines _).symm.trans (k.trans (rclkRise_sameLines _))
    · exact k
  | delay d => exact (runDelay_sameLines d s).symm.trans (SameLines.trans ⟨h1, h2, h3, h4⟩ (runDelay_sameLines d t))
  | sampleD => exact (sampleD_sameLines s).symm.trans (SameLines.trans ⟨h1, h2, h3, h4⟩ (sampleD_sameLines t))
  | setDir d => exact ⟨h1, by simp only [Prim.run, h2], h3, h4⟩
  | setD v => exact ⟨h1, by simp only [Prim.run, h2], h3, h4⟩
  | setCE l => exact ⟨h1, by simp only [Prim.run, h2], h3, h4⟩
  | setOE l => exact ⟨h1, by simp only [Prim.run, h2], h3, h4⟩
  | setSER b => exact ⟨h1, h2, h3, h4⟩
  | setMode m => exact ⟨rfl, h2, h3, h4⟩

theorem runPrims_sameLines (ps : List Prim) : ∀ {s t : State}, SameLines s t →
    SameLines (runPrims ps s) (runPrims ps t) := by
  induction ps with
  | nil => exact id
  | cons p ps ih => exact fun h => ih (p.run_sameLines h)

/-! ## Where events rest -/

theorem Prim.asDelay_eq_some {p : Prim} {t : DelayName} (h : p.asDelay = some t) : p = .delay t := by
  cases p <;> simp_all [Prim.asDelay]

/-- Events run to their end, or to a delay with the events after it. -/
theorem runToDelay_cases (ps : List Prim) : ∀ s : State,
    runToDelay ps s = (runPrims ps s, none) ∨
      ∃ (pre rest : List Prim) (t : DelayName), ps = pre ++ .delay t :: rest ∧
        runToDelay ps s = (runPrims pre s, some (t, rest)) := by
  induction ps with
  | nil => exact fun _ => .inl rfl
  | cons p ps ih =>
    intro s
    cases h : p.asDelay with
    | some t => exact .inr ⟨[], ps, t, by rw [Prim.asDelay_eq_some h]; rfl, by simp [runToDelay, h]⟩
    | none =>
      rcases ih (p.run s) with e | ⟨pre, rest, t, e1, e2⟩
      · exact .inl (by simp only [runToDelay, h, e]; rfl)
      · exact .inr ⟨p :: pre, rest, t, by rw [e1]; rfl, by simp only [runToDelay, h, e2]; rfl⟩

/-- A procedure rests in one of its delays, with the events after it and its task, or has reached its end. -/
theorem advance_cases (ps : List Prim) (k : Task) (last : State → Host.Outcome State Fault Refusal) (s : State) :
    advance ps k last s = last (runPrims ps s) ∨
      ∃ (pre rest : List Prim) (t : DelayName), ps = pre ++ .delay t :: rest ∧
        advance ps k last s = .next { runPrims pre s with cs := .delay t rest k } := by
  rcases runToDelay_cases ps s with e | ⟨pre, rest, t, e1, e2⟩
  · exact .inl (by rw [advance, e])
  · exact .inr ⟨pre, rest, t, e1, by rw [advance, e2]⟩

/-! ## The loop of dump() does not depend on its fuel -/

theorem dumpLoop_fuel (n : Nat) : ∀ (m : Nat) (s : State), 63 - s.dump.chlen < n → 63 - s.dump.chlen < m →
    s.dump.chlen < 63 → dumpLoop n s = dumpLoop m s := by
  induction n with
  | zero => intro m s h; omega
  | succ n ih =>
    intro m s hn hm hl
    cases m with
    | zero => omega
    | succ m =>
      have e : (dumpRead s).dump.chlen = s.dump.chlen + 1 := by
        show (readByte s.dump.daddr s).dump.chlen + 1 = _
        rw [(readByte_busOnly _ s).dump]
      simp only [dumpLoop]
      split
      · rfl
      · split
        · rfl
        · rename_i h
          have e' : (nextAddress (dumpRead s)).dump.chlen = s.dump.chlen + 1 := e
          simp only [maxPayload] at h
          exact ih m _ (by omega) (by omega) (by omega)

end Sys2Proof.Machine
end

