-- ==== Sys2Proof/Laws/Sched.lean ====
section
/-! SUPPORT. The coming moves steer nothing but which move is next: every operation of the block commutes with another
schedule (log 5). -/

namespace Sys2Proof.Machine

/-- The state with another schedule. -/
def State.withSched (s : State) (ms : List Move) : State := { s with sched := ms }

/-- An outcome with another schedule in its next state. -/
def schedOf (ms : List Move) (o : Host.Outcome State Fault Refusal) : Host.Outcome State Fault Refusal :=
  andThen o fun s => .next (s.withSched ms)

@[simp] theorem schedOf_next (ms : List Move) (s : State) : schedOf ms (.next s) = .next (s.withSched ms) := rfl

@[simp] theorem schedOf_fault (ms : List Move) (r : Fault) : schedOf ms (.fault r) = .fault r := rfl

@[simp] theorem schedOf_refused (ms : List Move) (r : Refusal) : schedOf ms (.refused r) = .refused r := rfl

theorem schedOf_ite (ms : List Move) (p : Prop) [Decidable p] (o o' : Host.Outcome State Fault Refusal) :
    schedOf ms (if p then o else o') = if p then schedOf ms o else schedOf ms o' := by split <;> rfl

theorem withSched_ite (ms : List Move) (p : Prop) [Decidable p] (s t : State) :
    (if p then s else t).withSched ms = if p then s.withSched ms else t.withSched ms := by split <;> rfl

theorem andThen_withSched {o o' : Host.Outcome State Fault Refusal} {f : State → Host.Outcome State Fault Refusal}
    {ms : List Move} (h : o' = schedOf ms o) (k : ∀ s, f (s.withSched ms) = schedOf ms (f s)) :
    andThen o' f = schedOf ms (andThen o f) := by
  subst h
  cases o with
  | next s => exact k s
  | fault r => rfl
  | refused r => rfl

/-! ## Events -/

theorem commit_withSched (ms : List Move) (s : State) : commit (s.withSched ms) = (commit s).withSched ms := by
  rcases s with ⟨_, _, _, _, _, _, _, _, _, _, _, _, _ | _, _, _, _, _, _⟩ <;> rfl

theorem Prim.run_withSched (p : Prim) (ms : List Move) (s : State) : p.run (s.withSched ms) = (p.run s).withSched ms := by
  have strobe' : ∀ s : State, strobe (s.withSched ms) = (strobe s).withSched ms := by
    intro s
    rcases s with ⟨_, _, _, _, _, _, _, _, _, _, _, _, _ | _, _, _, _, _, _⟩
    · refine Eq.trans ?_ (withSched_ite ms _ _ _).symm; rfl
    · rfl
  have srclk' : ∀ s : State, srclkRise (s.withSched ms) = (srclkRise s).withSched ms := by
    intro s; simp only [srclkRise, withSched_ite]; rfl
  have rclk' : ∀ s : State, rclkRise (s.withSched ms) = (rclkRise s).withSched ms := by
    intro s; simp only [rclkRise, withSched_ite]; rfl
  cases p with
  | setWE l =>
    refine Eq.trans ?_ (withSched_ite ms _ _ _).symm
    rw [← strobe']; rfl
  | setSRCLK b =>
    refine Eq.trans ?_ (withSched_ite ms _ _ _).symm
    rw [← srclk']; rfl
  | setRCLK b =>
    refine Eq.trans ?_ (withSched_ite ms _ _ _).symm
    rw [← rclk']; rfl
  | delay t =>
    cases t
    case interWrite =>
      rcases s with ⟨_, _, _, _, _, _, _, _, _, _, _, _, _ | _, _, _, _, _, _⟩
      · rfl
      · refine Eq.trans ?_ (withSched_ite ms _ _ _).symm
        rw [withSched_ite, ← commit_withSched, ← commit_withSched]; rfl
    all_goals rfl
  | sampleD =>
    refine Eq.trans ?_ (withSched_ite ms _ _ _).symm
    rw [withSched_ite]; rfl
  | setDir d => rfl
  | setD v => rfl
  | setCE l => rfl
  | setOE l => rfl
  | setSER b => rfl
  | setMode m => rfl

theorem runPrims_withSched (ps : List Prim) (ms : List Move) : ∀ s : State,
    runPrims ps (s.withSched ms) = (runPrims ps s).withSched ms := by
  induction ps with
  | nil => exact fun _ => rfl
  | cons p ps ih => intro s; rw [runPrims_cons, p.run_withSched, ih]; rfl

theorem toStandby_withSched (ms : List Move) (s : State) :
    toStandby (s.withSched ms) = (toStandby s).withSched ms := runPrims_withSched _ ms s

theorem raiseErr_withSched (e : Err) (ms : List Move) (s : State) :
    raiseErr e (s.withSched ms) = (raiseErr e s).withSched ms := by
  rw [raiseErr, raiseErr]
  exact congrArg (fun t : State => { t with cs := CS.report }) (toStandby_withSched ms { s with err := e })

theorem report_withSched (ms : List Move) (s : State) : report (s.withSched ms) = (report s).withSched ms := by
  rw [report_eq, report_eq]; rfl

theorem conclude_withSched (ms : List Move) (s : State) : conclude (s.withSched ms) = (conclude s).withSched ms := by
  rcases conclude_cases s with ⟨h, e⟩ | ⟨h, e⟩ <;> rw [e]
  · rw [← report_withSched, conclude]; simp only [State.withSched, h]
  · rcases conclude_cases (s.withSched ms) with ⟨h', -⟩ | ⟨-, e'⟩
    · exact absurd h' h
    · exact e'

theorem concluded_withSched {o o' : Host.Outcome State Fault Refusal} {ms : List Move} (h : o' = schedOf ms o) :
    concluded o' = schedOf ms (concluded o) :=
  andThen_withSched h fun s => by rw [conclude_withSched]; rfl

/-! ## The loops -/

theorem dumpTail_withSched (ms : List Move) (s : State) : dumpTail (s.withSched ms) = (dumpTail s).withSched ms := by
  simp only [dumpTail, withSched_ite]; rfl

theorem dumpRead_withSched (ms : List Move) (s : State) : dumpRead (s.withSched ms) = (dumpRead s).withSched ms := by
  show pushChunk (readByte s.dump.daddr (s.withSched ms)).opd.sampled (readByte s.dump.daddr (s.withSched ms)) = _
  rw [show readByte s.dump.daddr (s.withSched ms) = _ from runPrims_withSched _ ms s]; rfl

theorem dumpLoop_withSched (n : Nat) (ms : List Move) : ∀ s : State,
    dumpLoop n (s.withSched ms) = (dumpLoop n s).withSched ms := by
  induction n with
  | zero => exact fun _ => rfl
  | succ n ih =>
    intro s
    simp only [dumpLoop, dumpRead_withSched, dumpTail_withSched, withSched_ite]
    rw [← ih]; rfl

theorem writeByte_withSched (a : Addr) (v : Byte) (ms : List Move) (s : State) :
    writeByte a v (s.withSched ms) = schedOf ms (writeByte a v s) := by
  simp only [writeByte, schedOf_ite, runPrims_withSched]; rfl

theorem programBytes_withSched (bs : List Byte) (ms : List Move) : ∀ s : State,
    programBytes bs (s.withSched ms) = schedOf ms (programBytes bs s) := by
  induction bs with
  | nil => exact fun _ => rfl
  | cons b bs ih =>
    intro s
    simp only [programBytes, schedOf_ite]
    refine if_congr Iff.rfl rfl (andThen_withSched (writeByte_withSched _ _ ms s) fun t => ?_)
    rw [← ih, show runDelay .interWrite (t.withSched ms) = _ from Prim.run_withSched (.delay .interWrite) ms t]; rfl

theorem loadContinue_withSched (ms : List Move) (s : State) :
    loadContinue (s.withSched ms) = (loadContinue s).withSched ms := by
  simp only [loadContinue, withSched_ite, toStandby_withSched]; rfl

theorem overlong_withSched (ms : List Move) (s : State) : overlong (s.withSched ms) = (overlong s).withSched ms := by
  have e : (s.withSched ms).cfg.overlong = s.cfg.overlong := rfl
  cases h : s.cfg.overlong with
  | lengthOnly => simp only [overlong, e, h, raiseErr_withSched]
  | capacity => simp only [overlong, e, h]; rfl

/-! ## Instructions -/

theorem exec_withSched (i : Instr) (ms : List Move) (s : State) : exec i (s.withSched ms) = schedOf ms (exec i s) := by
  cases i with
  | read a =>
    simp only [exec, execRead, schedOf_ite, schedOf_next]
    refine if_congr Iff.rfl rfl (congrArg Host.Outcome.next ?_)
    rw [show readByte a { s.withSched ms with opd := (s.withSched ms).opd.setA a } = _ from
      runPrims_withSched _ ms { s with opd := s.opd.setA a }]; rfl
  | write a v =>
    simp only [exec, execWrite, schedOf_ite]
    refine if_congr Iff.rfl rfl (andThen_withSched ?_ fun t => ?_)
    · rw [← writeByte_withSched, show toWrite { s.withSched ms with opd := ((s.withSched ms).opd.setA a).setV v } = _ from
        runPrims_withSched _ ms { s with opd := (s.opd.setA a).setV v }]; rfl
    · rw [toStandby_withSched]; rfl
  | dump => exact congrArg Host.Outcome.next (dumpLoop_withSched _ ms (firstChunk s))
  | load total =>
    simp only [exec, execLoad, schedOf_ite, schedOf_next]
    refine if_congr Iff.rfl rfl (congrArg Host.Outcome.next ?_)
    rw [← loadContinue_withSched, show toWrite (sendFrame [] (setTotal total (s.withSched ms))) = _ from
      runPrims_withSched _ ms (sendFrame [] (setTotal total s))]; rfl
  | reset => rfl
  | unknown p => exact congrArg Host.Outcome.next (raiseErr_withSched _ ms s)
  | illegalLen64 n => exact congrArg Host.Outcome.next (overlong_withSched ms s)
  | illegalLen128 n => exact congrArg Host.Outcome.next (overlong_withSched ms s)
  | ack =>
    simp only [exec, execAck, schedOf_next, withSched_ite]
    rw [← dumpLoop_withSched]; rfl
  | resetSentinel => exact congrArg Host.Outcome.next (raiseErr_withSched _ ms s)
  | ackwaitUnexpected p => exact congrArg Host.Outcome.next (raiseErr_withSched _ ms s)
  | loadChunk data =>
    exact andThen_withSched (programBytes_withSched data ms (txByte 0x00 s)) fun t => by rw [loadContinue_withSched]; rfl
  | readReply v => rfl
  | ackOut => rfl
  | dumpChunk data => rfl
  | dumpLast data => rfl

theorem finish_withSched (k : Task) (ms : List Move) (s : State) : finish k (s.withSched ms) = schedOf ms (finish k s) := by
  cases k with
  | boot => rfl
  | readReply => exact congrArg Host.Outcome.next (report_withSched ms (replyRead s))
  | writeReply => exact congrArg Host.Outcome.next (report_withSched ms (replyWrite s))
  | dumpByte =>
    simp only [finish, schedOf_next, ← conclude_withSched, withSched_ite]
    rw [← dumpLoop_withSched]; rfl
  | loadOpen =>
    simp only [finish, schedOf_next, ← conclude_withSched, ← loadContinue_withSched]; rfl
  | loadByte bs =>
    exact concluded_withSched (andThen_withSched (programBytes_withSched bs ms (countByte s)) fun t => by
      rw [loadContinue_withSched]; rfl)
  | close => exact congrArg Host.Outcome.next (report_withSched ms { s with cs := .report })

theorem runToDelay_withSched (ps : List Prim) (ms : List Move) : ∀ s : State,
    runToDelay ps (s.withSched ms) = ((runToDelay ps s).1.withSched ms, (runToDelay ps s).2) := by
  induction ps with
  | nil => exact fun _ => rfl
  | cons p ps ih =>
    intro s
    simp only [runToDelay]
    cases p.asDelay with
    | none => rw [p.run_withSched]; exact ih _
    | some t => rfl

theorem advance_withSched {last : State → Host.Outcome State Fault Refusal} {ms : List Move}
    (h : ∀ u, last (u.withSched ms) = schedOf ms (last u)) (ps : List Prim) (k : Task) (s : State) :
    advance ps k last (s.withSched ms) = schedOf ms (advance ps k last s) := by
  rw [advance, advance, runToDelay_withSched]
  rcases runToDelay ps s with ⟨u, _ | ⟨t, rest⟩⟩
  · exact h u
  · rfl

theorem suspend_withSched (ps : List Prim) (k : Task) (ms : List Move) (s : State) :
    suspend ps k (s.withSched ms) = schedOf ms (suspend ps k s) := advance_withSched (finish_withSched k ms) ps k s

theorem dumpOn_withSched (ms : List Move) (s : State) : dumpOn (s.withSched ms) = schedOf ms (dumpOn s) := by
  simp only [dumpOn, schedOf_ite, schedOf_next, ← conclude_withSched, ← dumpTail_withSched, ← suspend_withSched]; rfl

theorem loadOn_withSched (ms : List Move) (s : State) : loadOn (s.withSched ms) = schedOf ms (loadOn s) := by
  simp only [loadOn, schedOf_ite, ← suspend_withSched]; rfl

theorem programOn_withSched (bs : List Byte) (ms : List Move) (s : State) :
    programOn bs (s.withSched ms) = schedOf ms (programOn bs s) := by
  cases bs with
  | nil => exact loadOn_withSched ms s
  | cons b bs => simp only [programOn, schedOf_ite, ← suspend_withSched, loadOn_withSched]; rfl

theorem resume_withSched (k : Task) (ms : List Move) (s : State) : resume k (s.withSched ms) = schedOf ms (resume k s) := by
  cases k with
  | boot => exact finish_withSched .boot ms s
  | readReply => exact finish_withSched .readReply ms s
  | writeReply => exact finish_withSched .writeReply ms s
  | dumpByte => simp only [resume, schedOf_ite, ← dumpOn_withSched]; rfl
  | loadOpen => exact loadOn_withSched ms (openLoad s)
  | loadByte bs => exact programOn_withSched bs ms (countByte s)
  | close => exact finish_withSched .close ms s

theorem suspendRaise_withSched (e : Err) (ms : List Move) (s : State) :
    suspendRaise e (s.withSched ms) = schedOf ms (suspendRaise e s) := suspend_withSched _ _ ms { s with err := e }

theorem start_withSched (i : Instr) (ms : List Move) (s : State) : start i (s.withSched ms) = schedOf ms (start i s) := by
  have plain : ∀ i, concluded (exec i (s.withSched ms)) = schedOf ms (concluded (exec i s)) :=
    fun i => concluded_withSched (exec_withSched i ms s)
  have long : startOverlong (s.withSched ms) = schedOf ms (startOverlong s) := by
    have e : (s.withSched ms).cfg.overlong = s.cfg.overlong := rfl
    cases h : s.cfg.overlong with
    | lengthOnly => simp only [startOverlong, e, h, suspendRaise_withSched]
    | capacity => simp only [startOverlong, e, h, overlong_withSched]; rfl
  cases i with
  | read a => simp only [start, startRead, schedOf_ite, ← suspend_withSched]; rfl
  | write a v => simp only [start, startWrite, schedOf_ite, ← suspend_withSched]; rfl
  | dump => exact dumpOn_withSched ms (firstChunk s)
  | load total => simp only [start, startLoad, schedOf_ite, ← suspend_withSched]; rfl
  | reset => exact plain .reset
  | unknown p => exact suspendRaise_withSched _ ms s
  | illegalLen64 n => exact long
  | illegalLen128 n => exact long
  | ack =>
    simp only [start, startAck, schedOf_ite, ← dumpOn_withSched]
    exact if_congr Iff.rfl rfl (plain .ack)
  | resetSentinel => exact suspendRaise_withSched _ ms s
  | ackwaitUnexpected p => exact suspendRaise_withSched _ ms s
  | loadChunk data => exact programOn_withSched data ms (txByte 0x00 s)
  | readReply v => exact plain (.readReply v)
  | ackOut => exact plain .ackOut
  | dumpChunk data => exact plain (.dumpChunk data)
  | dumpLast data => exact plain (.dumpLast data)

/-! ## Moves -/

theorem perform_withSched (p : Pace) (i : Instr) (ms : List Move) (s : State) :
    perform p i (s.withSched ms) = schedOf ms (perform p i s) := by
  cases p with
  | toByte => exact concluded_withSched (exec_withSched i ms s)
  | toWait => exact start_withSched i ms s

theorem raiseOn_withSched (p : Pace) (e : Err) (ms : List Move) (s : State) :
    raiseOn p e (s.withSched ms) = schedOf ms (raiseOn p e s) := by
  cases p with
  | toByte => exact concluded_withSched (congrArg Host.Outcome.next (raiseErr_withSched e ms s))
  | toWait => exact suspendRaise_withSched e ms s

theorem proceed_withSched (p : Pace) (t : DelayName) (rest : List Prim) (k : Task) (ms : List Move) (s : State) :
    proceed p t rest k (s.withSched ms) = schedOf ms (proceed p t rest k s) := by
  have e : runDelay t (s.withSched ms) = (runDelay t s).withSched ms := Prim.run_withSched (.delay t) ms s
  cases p with
  | toByte => simp only [proceed, e, runPrims_withSched, finish_withSched]
  | toWait => simp only [proceed, e]; exact advance_withSched (resume_withSched k ms) rest k _

/-- The block's move neither reads the coming moves nor changes them. -/
theorem blockMove_withSched (p : Pace) (ms : List Move) (s : State) :
    blockMove p (s.withSched ms) = schedOf ms (blockMove p s) := by
  have boot : bootSequence (s.withSched ms) = (bootSequence s).withSched ms := by
    simp only [bootSequence, runPrims_withSched]; rfl
  have hcs : (s.withSched ms).cs = s.cs := rfl
  have hrxq : (s.withSched ms).rxq = s.rxq := rfl
  cases hc : s.cs with
  | boot =>
    simp only [blockMove, hcs, hc, boot]
    cases p with
    | toByte => exact proceed_withSched _ _ _ _ ms _
    | toWait => rfl
  | delay t rest k => simp only [blockMove, hcs, hc]; exact proceed_withSched _ _ _ _ ms s
  | len c =>
    cases hq : s.rxq with
    | nil => simp only [blockMove, hcs, hc, hrxq, hq]; rfl
    | cons n q =>
      simp only [blockMove, hcs, hc, hrxq, hq, takeLength]
      split
      · rw [schedOf_ite]
        exact if_congr Iff.rfl
          (perform_withSched p _ ms { s with rxq := q, rx := { buf := s.rx.buf, len := 0 }, cs := .exec c }) rfl
      · exact perform_withSched p _ ms { s with rxq := q, cs := .len c }
  | payload c n k d =>
    cases hq : s.rxq with
    | nil => simp only [blockMove, hcs, hc, hrxq, hq]; rfl
    | cons b q =>
      simp only [blockMove, hcs, hc, hrxq, hq, takePayload, schedOf_ite]
      exact if_congr Iff.rfl (if_congr Iff.rfl (raiseOn_withSched p _ ms { s with rxq := q, cs := .payload c n k d }) rfl)
        (if_congr Iff.rfl (perform_withSched p _ ms (frameDone c n k b { s with rxq := q })) rfl)
  | exec c => simp only [blockMove, hcs, hc]; exact perform_withSched p _ ms s
  | report => simp only [blockMove, hcs, hc, report_withSched]; rfl

theorem timeout_withSched (p : Pace) (ms : List Move) (s : State) :
    timeout p (s.withSched ms) = schedOf ms (timeout p s) := by
  simp only [timeout, schedOf_ite]
  refine if_congr Iff.rfl ?_ rfl
  have hcs : (s.withSched ms).cs = s.cs := rfl
  have hl : (s.withSched ms).cfg.lenWait = s.cfg.lenWait := rfl
  have r := raiseOn_withSched p .frameCorrupt ms s
  cases hc : s.cs with
  | len c =>
    simp only [hcs, hc, hl]
    cases s.cfg.lenWait with
    | none => rfl
    | bounded => exact r
  | payload c n k d => simp only [hcs, hc]; exact r
  | boot => simp only [hcs, hc]; rfl
  | exec c => simp only [hcs, hc]; rfl
  | delay t rest k => simp only [hcs, hc]; rfl
  | report => simp only [hcs, hc]; rfl

end Sys2Proof.Machine
end

