-- ==== Sys2Proof/Tests/Slice0.lean ====
section
/-! SUPPORT. Tests of single decodings and single steps, with expected results from spec/30_encoding.md and
spec/95_test_vectors.md; an ill-formed term for each check of WellFormed; and a witness of the hypotheses of each
statement of Certificates/Slice0/Obligations.lean. -/

open Sys2Proof Sys2Proof.Machine

namespace Sys2Proof.Tests

/-! ## WellFormed refuses -/

theorem test_wf_unknown_too_long : ¬ WellFormed (.unknown (List.replicate 64 0)) := by decide
theorem test_wf_unknown_is_read : ¬ WellFormed (.unknown [0x72, 0, 0]) := by decide
theorem test_wf_unknown_is_write : ¬ WellFormed (.unknown [0x77, 0, 0, 0]) := by decide
theorem test_wf_unknown_is_dump : ¬ WellFormed (.unknown [0x64]) := by decide
theorem test_wf_unknown_is_load : ¬ WellFormed (.unknown [0x6C, 0, 0]) := by decide
theorem test_wf_unknown_is_reset : ¬ WellFormed (.unknown [0x72]) := by decide
theorem test_wf_illegal64_low : ¬ WellFormed (.illegalLen64 63) := by decide
theorem test_wf_illegal64_high : ¬ WellFormed (.illegalLen64 128) := by decide
theorem test_wf_illegal128_low : ¬ WellFormed (.illegalLen128 127) := by decide
theorem test_wf_unexpected_empty : ¬ WellFormed (.ackwaitUnexpected []) := by decide
theorem test_wf_unexpected_too_long : ¬ WellFormed (.ackwaitUnexpected (List.replicate 64 0)) := by decide
theorem test_wf_unexpected_sentinel : ¬ WellFormed (.ackwaitUnexpected [0x72]) := by decide
theorem test_wf_chunk_too_long : ¬ WellFormed (.loadChunk (List.replicate 64 0)) := by decide
theorem test_wf_dump_chunk_short : ¬ WellFormed (.dumpChunk (List.replicate 62 0)) := by decide
theorem test_wf_dump_last_long : ¬ WellFormed (.dumpLast (List.replicate 9 0)) := by decide
theorem test_wf_longest : WellFormed (.loadChunk (List.replicate 63 0)) := by decide

/-! ## Decoding, words written out from the layouts of 30_encoding R91, R92, R98-R105 -/

theorem test_decode_read : decode (.rx .idle) [0x03, 0x72, 0x12, 0x34] = .ok (.read 0x1234, []) := by decide
theorem test_decode_write :
    decode (.rx .idle) [0x04, 0x77, 0x00, 0x10, 0xAB, 0x01] = .ok (.write 0x0010 0xAB, [0x01]) := by decide
theorem test_decode_dump : decode (.rx .idle) [0x01, 0x64] = .ok (.dump, []) := by decide
theorem test_decode_load : decode (.rx .idle) [0x03, 0x6C, 0x80, 0x01] = .ok (.load 0x8001, []) := by decide
theorem test_decode_reset : decode (.rx .idle) [0x01, 0x72] = .ok (.reset, []) := by decide
theorem test_decode_unknown : decode (.rx .idle) [0x02, 0x72, 0x00] = .ok (.unknown [0x72, 0x00], []) := by decide
theorem test_decode_stray_ack : decode (.rx .idle) [0x00, 0x03] = .ok (.unknown [], [0x03]) := by decide
theorem test_decode_illegal64 : decode (.rx .load) [0x40, 0xFF] = .ok (.illegalLen64 0x40, [0xFF]) := by decide
theorem test_decode_illegal128 : decode (.rx .ackWait) [0xFF] = .ok (.illegalLen128 0xFF, []) := by decide
theorem test_decode_ack : decode (.rx .ackWait) [0x00] = .ok (.ack, []) := by decide
theorem test_decode_sentinel : decode (.rx .ackWait) [0x01, 0x72] = .ok (.resetSentinel, []) := by decide
theorem test_decode_unexpected :
    decode (.rx .ackWait) [0x01, 0x73] = .ok (.ackwaitUnexpected [0x73], []) := by decide
theorem test_decode_chunk : decode (.rx .load) [0x01, 0x72] = .ok (.loadChunk [0x72], []) := by decide
theorem test_decode_reply : decode .tx [0x01, 0xAB] = .ok (.readReply 0xAB, []) := by decide
theorem test_decode_ack_out : decode .tx [0x00] = .ok (.ackOut, []) := by decide
theorem test_decode_dump_chunk :
    decode .tx (0x3F :: List.replicate 63 0x5A) = .ok (.dumpChunk (List.replicate 63 0x5A), []) := by decide
theorem test_decode_dump_last :
    decode .tx [0x08, 1, 2, 3, 4, 5, 6, 7, 8] = .ok (.dumpLast [1, 2, 3, 4, 5, 6, 7, 8], []) := by decide
theorem test_decode_truncated : decode (.rx .idle) [0x03, 0x72] = .error (.truncated 3 1) := by decide
theorem test_decode_not_sent : decode .tx [0x40] = .error (.notSentByBlock 0x40) := by decide

/-- The table's own numbering of READ: the length byte is the most significant (opcode_table.json). -/
theorem test_table_read : decodeTableWord 32 0x03720010 = some (.read 0x0010) := by decide
theorem test_table_write : decodeTableWord 40 0x04770010AB = some (.write 0x0010 0xAB) := by decide
theorem test_table_illegal : decodeTableWord 8 0x40 = some (.illegalLen64 0x40) := by decide

/-! ## Small states -/

/-- Between two frames. -/
def ready : State := { State.reset with cs := .len .idle }

/-- `ready` with some EEPROM contents. -/
def withMem (m : Memory) : State := { ready with mem := m }

/-- `ready` with a write cycle pending. -/
def busy : State := { ready with pend := some (0x0010, 0xAB) }

/-- The wait for the ack of a full chunk, whose last byte is at `d`. -/
def dumping (d : Addr) : State :=
  { ready with cs := .len .ackWait, dump := { chunk := Vector.replicate 63 0, chlen := 63, daddr := d } }

/-- The wait for the ack of the final chunk. -/
def dumpEnd : State :=
  { ready with cs := .len .ackWait, dump := { chunk := Vector.replicate 63 0, chlen := 8, daddr := 32768 } }

/-- A LOAD of `total` bytes of which `n` have come. -/
def loading (total : Addr) (n : Nat) : State :=
  { ready.atMode .write with
    cs := .len .load, load := { laddr := BitVec.ofNat 16 n, ltotal := total, ldone := BitVec.ofNat 32 n } }

/-- ADDR15_MODE = REFUSE. -/
def refusing (s : State) : State := { s with cfg := { s.cfg with addr15 := .refuse } }

/-- OVERLONG_CONSUME = CAPACITY. -/
def capacity (s : State) : State := { s with cfg := { s.cfg with overlong := .capacity } }

/-- A whole frame in RXBUF. -/
def held (c : RxContext) (p : List Byte) (n : Fin 64) (s : State) : State :=
  { s with cs := .exec c, rx := { buf := fillRxbuf 0 p s.rx.buf, len := n } }

/-- What an outcome leaves, for tests of a next state. -/
def nextOr (o : Host.Outcome State Fault Refusal) : Option State :=
  match o with
  | .next t => some t
  | .fault _ => none
  | .refused _ => none

/-! ## Single steps (95_test_vectors) -/

/-- V-AC1, W1. -/
theorem test_read :
    (nextOr (exec (.read 0x0010) (withMem [(0x0010, 0xAB)]))).map (fun t => (t.txs, t.mode, t.sr.out)) =
      some ([0x01, 0xAB], .standby, 0x0010) := by decide +kernel

/-- V-AC7, V-CMD15: ALIAS. -/
theorem test_read_alias :
    (nextOr (exec (.read 0xFFFF) (withMem [(0x7FFF, 0x5C)]))).map (·.txs) = some [0x01, 0x5C] := by decide +kernel

/-- V-CMD16: REFUSE. -/
theorem test_read_refused : exec (.read 0x8010) (refusing ready) = .refused .refusedAddr15 := rfl

/-- V-CMD2. -/
theorem test_write :
    (nextOr (exec (.write 0x0010 0xAB) ready)).map (fun t => (t.txs, t.pend, t.mem)) =
      some ([0x00], some (0x0010, 0xAB), []) := by decide +kernel

/-- V-AC5: a strobe during a write cycle leaves none pending. -/
theorem test_write_busy :
    (nextOr (exec (.write 0x0011 0xCD) busy)).map (fun t => (t.txs, t.pend)) = some ([0x00], none) := by decide +kernel

/-- V-LD1. -/
theorem test_load_zero :
    (nextOr (exec (.load 0) ready)).map (fun t => (t.txs, t.mode, t.cs)) = some ([0x00], .standby, .report) := by
  decide +kernel

/-- V-LD3: the command ack and WRITE mode. -/
theorem test_load :
    (nextOr (exec (.load 3) ready)).map (fun t => (t.txs, t.mode, t.cs)) = some ([0x00], .write, .len .load) := by
  decide +kernel

/-- V-LD12: REFUSE. -/
theorem test_load_refused : exec (.load 0x8001) (refusing ready) = .refused .refusedAddr15 := rfl

/-- V-LD5: the excess bytes are discarded. -/
theorem test_chunk_excess :
    (nextOr (exec (.loadChunk [0x11, 0x22, 0x33, 0x44, 0x55]) (loading 3 0))).map
        (fun t => (t.mem, t.txs, t.cs, t.load.ldone)) =
      some ([(0, 0x11), (1, 0x22), (2, 0x33)], [0x00], .report, 3) := by decide +kernel

/-- V-LD6: an empty chunk is acked and the load goes on. -/
theorem test_chunk_empty :
    (nextOr (exec (.loadChunk []) (loading 2 0))).map (fun t => (t.mem, t.txs, t.cs)) =
      some ([], [0x00], .len .load) := by decide +kernel

/-- W3: the first bytes of a dump. -/
theorem test_dump :
    (nextOr (exec .dump (withMem [(0, 0x11), (62, 0x22)]))).map (fun t => (t.txs, t.cs)) =
      some (0x3F :: 0x11 :: (List.replicate 61 0xFF ++ [0x22]), .len .ackWait) := by decide +kernel

/-- W3: the final chunk has eight bytes. -/
theorem test_ack_final_chunk :
    (nextOr (exec .ack { dumping 32759 with mem := [(32760, 0x11), (32767, 0x22)] })).map (·.txs) =
      some [0x08, 0x11, 0xFF, 0xFF, 0xFF, 0xFF, 0xFF, 0xFF, 0x22] := by decide +kernel

/-- V-DP1: after the ack of the final chunk the dump is over. -/
theorem test_ack_end : (nextOr (exec .ack dumpEnd)).map (fun t => (t.txs, t.cs)) = some ([], .report) := by
  decide +kernel

/-- V-AW4. -/
theorem test_sentinel :
    (nextOr (exec .resetSentinel (dumping 62))).map (fun t => (t.err, t.cs)) = some (.resetRequested, .report) := by
  decide +kernel

/-- V-AW7. -/
theorem test_unexpected :
    (nextOr (exec (.ackwaitUnexpected [0x72, 0x00]) (dumping 62))).map (fun t => (t.err, t.txs)) =
      some (.unexpectedFrame, []) := by decide +kernel

/-- V-CMD5. -/
theorem test_reset : (nextOr (exec .reset ready)).map (fun t => (t.err, t.txs)) = some (.ok, []) := by decide +kernel

/-- V-CMD7. -/
theorem test_unknown :
    (nextOr (exec (.unknown [0x72, 0x00]) ready)).map (fun t => (t.err, t.txs)) = some (.unknown, []) := by
  decide +kernel

/-- V-RX5 under LENGTH_ONLY. -/
theorem test_illegal64 :
    (nextOr (exec (.illegalLen64 0x40) ready)).map (fun t => (t.err, t.cs)) = some (.frameCorrupt, .report) := by
  decide +kernel

/-- V-RX5 under CAPACITY: 63 more bytes are to be discarded. -/
theorem test_illegal64_capacity :
    (nextOr (exec (.illegalLen64 0x40) (capacity ready))).map (fun t => (t.err, t.cs)) =
      some (.ok, .payload .idle 63 0 true) := by decide +kernel

/-- V-LD9: an illegal length in a LOAD returns the bus to STANDBY. -/
theorem test_illegal128_load :
    (nextOr (exec (.illegalLen128 0xFF) (loading 2 0))).map (fun t => (t.err, t.mode, t.pins.ddir)) =
      some (.frameCorrupt, .standby, .input) := by decide +kernel

/-- V-AW1. -/
theorem test_read_reply : (nextOr (exec (.readReply 0xAB) ready)).map (·.txs) = some [0x01, 0xAB] := by decide +kernel

/-- V-AW2. -/
theorem test_ack_out : (nextOr (exec .ackOut ready)).map (·.txs) = some [0x00] := by decide +kernel

/-- V-AW3. -/
theorem test_dump_chunk :
    (nextOr (exec (.dumpChunk (List.replicate 63 0x5A)) ready)).map (fun t => (t.txs, t.cs)) =
      some (0x3F :: List.replicate 63 0x5A, .len .ackWait) := by decide +kernel

/-- 43_bulk R241, the final chunk. -/
theorem test_dump_last :
    (nextOr (exec (.dumpLast [1, 2, 3, 4, 5, 6, 7, 8]) ready)).map (fun t => (t.txs, t.cs)) =
      some ([0x08, 1, 2, 3, 4, 5, 6, 7, 8], .len .ackWait) := by decide +kernel

/-- V-AC6. -/
theorem test_write_outside : writeByte 0x0010 0xAB ready = .fault .writeOutsideWriteMode := rfl

/-- V-AC8: ALIAS, the strobe and its commit. -/
theorem test_write_alias :
    (nextOr (writeByte 0x8000 0x01 (ready.atMode .write))).map (fun t => (commit t).mem) = some [(0, 0x01)] := by
  decide +kernel

/-- 40 R146: the levels of SER at the sixteen clocks of loadAddress(0x1234). -/
theorem test_load_address :
    ((loadAddress 0x1234).filterMap fun p => match p with | .setSER b => some b | _ => none) =
      [false, false, false, true, false, false, true, false, false, false, true, true, false, true, false, false] := by
  decide +kernel

/-- V-M1 and V-M5: the events of a mode change, in order. -/
theorem test_mode_events :
    enterRead .standby = [.setDir .input, .setCE .asserted, .setOE .asserted, .setWE .deasserted, .delay .modeSettle,
      .setMode .read] ∧
    enterWrite .standby = [.setCE .asserted, .setOE .deasserted, .setWE .deasserted, .setDir .output,
      .delay .modeSettle, .setMode .write] := by decide

/-- V-M11: the unconditional line writes of the reset sequence. -/
theorem test_boot_lines :
    bootLines = [.setDir .input, .setOE .deasserted, .setCE .deasserted, .setWE .deasserted, .setSRCLK false,
      .setRCLK false] := by decide

/-- V-RX11: a payload timeout sends no ack, and the error is reported. -/
theorem test_timeout :
    (nextOr (step { loading 4 2 with cs := .payload .load 2 1 false, sched := [.rxTimeout .toByte] })).map
        (fun t => (t.indicated, t.txs, t.mode, t.cs)) = some ([.frameCorrupt], [], .standby, .len .idle) := by
  decide +kernel

/-- 40 R135 and R141: a READ rests first in the Delay(T_MODE_SETTLE) of enterRead, with the lines of READ and MODE still
STANDBY, and nothing sent. -/
theorem test_read_rests :
    (nextOr (step { held .idle [0x72, 0x00, 0x10] 3 ready with sched := [.block .toWait] })).map
        (fun t => (match t.cs with | .delay d _ _ => some d | _ => none, t.mode, t.pins.oe, t.txs)) =
      some (some .modeSettle, .standby, .asserted, []) := by decide +kernel

/-- The first byte of a chunk of two is strobed, and the block rests in its pacing delay. -/
def pacing : State :=
  { loading 2 0 with cs := .delay .interWrite [] (.loadByte [0x22]), pend := some (0, 0x11), mem := [(1, 0x5A)] }

/-- 20_memory R70: the device commits while the block rests in a delay. -/
theorem test_commit_inside_a_chunk :
    (nextOr (step { pacing with sched := [.deviceCommit] })).map (fun t => (t.cs, t.mem, t.load.ldone)) =
      some (.delay .interWrite [] (.loadByte [0x22]), [(0, 0x11), (1, 0x5A)], 0) := by decide +kernel

/-- 70 R301: power lost while the block rests in a delay of a chunk starts the block from reset. -/
theorem test_power_loss_inside_a_chunk :
    (nextOr (step { pacing with sched := [.powerCycle] })).map (fun t => (t.cs, t.mode, t.pins.ddir, t.pend)) =
      some (.boot, .standby, .input, none) := by decide +kernel

/-- V-ER1, V-ER2: the report. -/
theorem test_report :
    (nextOr (step { ready with cs := .report, err := .frameCorrupt })).map (fun t => (t.err, t.indicated, t.cs)) =
      some (.ok, [.frameCorrupt], .len .idle) := by decide +kernel

/-- A word of READ stands where the next step takes it. -/
theorem test_fetch_word :
    (nextOr (step (State.reset.withFetchWord 32 0x03720010))).map (·.txs) = some [0x01, 0xFF] := by decide +kernel

/-! ## Witnesses -/

theorem ready_lines : ready.LinesMatch := ⟨rfl, rfl, rfl, rfl⟩

theorem ready_clocks : ready.ClocksLow := ⟨rfl, rfl⟩

theorem loading_lines (t : Addr) (n : Nat) : (loading t n).LinesMatch := ⟨rfl, rfl, rfl, rfl⟩

theorem loading_clocks (t : Addr) (n : Nat) : (loading t n).ClocksLow := ⟨rfl, rfl⟩

/-- DUMP is about to run, with some bytes waiting. -/
def dumpStart (q : List Byte) : State := { held .idle [0x64] 1 ready with rxq := q }

/-- A LOAD of three bytes waits for its first chunk, with some bytes waiting. -/
def loadStart (q : List Byte) : State := { loading 3 0 with rxq := q }

theorem dumpStart_inv (q : List Byte) : MachineInv (dumpStart q) where
  lines := ⟨rfl, rfl, rfl, rfl⟩
  clocks := ⟨rfl, rfl⟩
  mem := rfl
  mode := rfl
  bus := fun k => by cases k <;> rfl
  srOe := (by decide : (none : Option Level) ≠ some .deasserted)
  srClr := (by decide : (none : Option Level) ≠ some .asserted)
  err := fun _ _ => rfl
  payload := trivial
  task := fun k h => by cases h
  dump := fun k => by simp [dumpStart, held, CS.receiving] at k
  load := fun k => by simp [dumpStart, held, CS.receiving] at k

theorem ready_inv : MachineInv ready where
  lines := ⟨rfl, rfl, rfl, rfl⟩
  clocks := ⟨rfl, rfl⟩
  mem := rfl
  mode := rfl
  bus := fun k => by cases k <;> rfl
  srOe := (by decide : (none : Option Level) ≠ some .deasserted)
  srClr := (by decide : (none : Option Level) ≠ some .asserted)
  err := fun _ _ => rfl
  payload := trivial
  task := fun k h => by cases h
  dump := fun k => by simp [ready, CS.receiving] at k
  load := fun k => by simp [ready, CS.receiving] at k

theorem loadStart_inv (q : List Byte) : MachineInv (loadStart q) where
  lines := ⟨rfl, rfl, rfl, rfl⟩
  clocks := ⟨rfl, rfl⟩
  mem := rfl
  mode := rfl
  bus := fun k => by cases k <;> rfl
  srOe := (by decide : (none : Option Level) ≠ some .deasserted)
  srClr := (by decide : (none : Option Level) ≠ some .asserted)
  err := fun _ _ => rfl
  payload := trivial
  task := fun k h => by cases h
  dump := fun k => by simp [loadStart, loading, CS.receiving] at k
  load := fun _ => ⟨(by decide : (loading 3 0).load.ldone.toNat < (loading 3 0).load.ltotal.toNat), rfl, rfl⟩

theorem reset_launch : Launch State.reset :=
  ⟨rfl, rfl, rfl, rfl, rfl, rfl, rfl, rfl, rfl, by decide, by decide, rfl, rfl, rfl, rfl⟩

theorem witness_DecodeOfEncodeReturnsInstruction :
    WellFormed (.unknown (List.replicate 63 0xFF)) ∧ (Instr.unknown (List.replicate 63 0xFF)).readIn (.rx .idle) = true ∧
    WellFormed (.ackwaitUnexpected [0x72, 0x72]) ∧ (Instr.ackwaitUnexpected [0x72, 0x72]).readIn (.rx .ackWait) = true ∧
    WellFormed (.illegalLen128 0xFF) ∧ (Instr.illegalLen128 0xFF).readIn (.rx .load) = true ∧
    WellFormed (.dumpLast (List.replicate 8 0)) ∧ (Instr.dumpLast (List.replicate 8 0)).readIn .tx = true := by decide

theorem witness_DecodedBytesAreTheEncoding :
    decode (.rx .idle) [0x03, 0x72, 0x7F, 0xFF, 0x00] = .ok (.read 0x7FFF, [0x00]) ∧
    decode (.rx .load) [0xFF] = .ok (.illegalLen128 0xFF, []) ∧ decode .tx [0x00] = .ok (.ackOut, []) := by decide

/-- The shortest and the longest payload, and one of each command's length. -/
theorem witness_IdleFrameSelectsCommandByLengthAndOpcode :
    ([] : List Byte).length ≤ 62 ∧ (List.replicate 62 (0xFF : Byte)).length ≤ 62 ∧
    ([0x00, 0x10] : List Byte).length ≤ 62 ∧ ([0x00, 0x10, 0xAB] : List Byte).length ≤ 62 := by decide

theorem witness_ReplyAndChunkFramesAreClassified :
    ([] : List Byte).length ≤ 63 ∧ ([0x72] : List Byte).length ≤ 63 ∧ (List.replicate 63 (0x72 : Byte)).length ≤ 63 := by
  decide

/-- Both sides of both rows' ranges. -/
theorem witness_IllegalLengthIsOneByte :
    64 ≤ (0x40 : Byte).toNat ∧ 64 ≤ (0x7F : Byte).toNat ∧ 64 ≤ (0x80 : Byte).toNat ∧ 64 ≤ (0xFF : Byte).toNat := by decide

theorem witness_NoContentionAfterAnyEvent :
    ready.LinesMatch ∧ (loading 3 0).LinesMatch ∧ (loading 3 0).mode = .write ∧ 0 < 1 :=
  ⟨ready_lines, loading_lines 3 0, rfl, by decide⟩

theorem witness_ModeEntrySetsTheLines :
    ready.LinesMatch ∧ (ready.atMode .read).LinesMatch ∧ (ready.atMode .write).LinesMatch :=
  ⟨ready_lines, atMode_linesMatch _ _, atMode_linesMatch _ _⟩

theorem witness_ModeEntryIsIdempotent :
    ready.mode = .standby ∧ (ready.atMode .read).mode = .read ∧ (ready.atMode .write).mode = .write := ⟨rfl, rfl, rfl⟩

theorem witness_LoadAddressLatchesTheAddress : ready.ClocksLow ∧ PSr ready.cfg := ⟨ready_clocks, by decide⟩

/-- Each of the three clauses. -/
theorem witness_ShiftRegisterActsOnRisingEdges :
    PSr ready.cfg ∧ ready.sr.srclk = false ∧ ready.sr.rclk = false ∧
    ¬ (Prim.setSRCLK false = .setSRCLK true ∧ ready.sr.srclk = false) ∧
    ¬ (Prim.setSRCLK false = .setRCLK true ∧ ready.sr.rclk = false) := by
  refine ⟨by decide, rfl, rfl, ?_, ?_⟩ <;> simp

/-- WE is asserted after the three events that follow loadAddress, and deasserted after five. -/
theorem witness_AddressAndDataStableWhileWriteEnabled :
    (loading 3 0).LinesMatch ∧ (loading 3 0).mode = .write ∧
    (runPrims ((writeEvents 0x0010 0xAB).take 87) (loading 3 0)).pins.we = .asserted ∧
    (runPrims ((writeEvents 0x0010 0xAB).take 89) (loading 3 0)).pend ≠
      (runPrims ((writeEvents 0x0010 0xAB).take 88) (loading 3 0)).pend :=
  ⟨loading_lines 3 0, rfl, by decide +kernel, by decide +kernel⟩

theorem witness_WriteStartsAWriteCycle :
    (loading 3 0).LinesMatch ∧ (loading 3 0).ClocksLow ∧ (loading 3 0).mode = .write ∧ (loading 3 0).pend = none ∧
    PSr (loading 3 0).cfg ∧ PWrite (loading 3 0).cfg ∧ addrRefused (loading 3 0).cfg 0xFFFF = false :=
  ⟨loading_lines 3 0, loading_clocks 3 0, rfl, rfl, by decide, by decide, rfl⟩

/-- The new cell another one, and the same one. -/
theorem witness_StrobeDuringAWriteCycleSpoilsBothCells :
    (busy.atMode .write).LinesMatch ∧ (busy.atMode .write).ClocksLow ∧ (busy.atMode .write).mode = .write ∧
    (busy.atMode .write).pend = some (0x0010, 0xAB) ∧ PSr (busy.atMode .write).cfg ∧
    addrRefused (busy.atMode .write).cfg 0x0011 = false ∧ addrRefused (busy.atMode .write).cfg 0x8010 = false ∧
    Memory.wf (busy.atMode .write).mem = true ∧ (0x0010 : CellIndex) ≠ idx 0x0011 ∧ (0x0010 : CellIndex) = idx 0x8010 :=
  ⟨atMode_linesMatch _ _, ⟨rfl, rfl⟩, rfl, rfl, by decide, rfl, rfl, rfl, by decide, by decide⟩

theorem witness_CommitWritesThePendingCell :
    ({ busy with sched := [.deviceCommit] } : State).sched = .deviceCommit :: [] ∧
    ({ busy with sched := [.deviceCommit] } : State).pend = some (0x0010, 0xAB) ∧
    Memory.wf ({ busy with sched := [.deviceCommit] } : State).mem = true := ⟨rfl, rfl, rfl⟩

theorem witness_StepKeepsMemoryCanonical :
    Memory.wf ({ busy with sched := [.deviceCommit] } : State).mem = true ∧
    step { busy with sched := [.deviceCommit] } = .next (commit { busy with sched := [] }) := ⟨rfl, rfl⟩

theorem witness_ReadRepliesWithTheCell :
    ready.LinesMatch ∧ ready.ClocksLow ∧ ready.pend = none ∧ PSr ready.cfg ∧ PReadSettle ready.cfg ∧
    addrRefused ready.cfg 0xFFFF = false ∧ addrRefused (refusing ready).cfg 0x7FFF = false :=
  ⟨ready_lines, ready_clocks, rfl, by decide, by decide, rfl, rfl⟩

theorem witness_ReadAlwaysCompletes :
    busy.LinesMatch ∧ busy.ClocksLow ∧ addrRefused busy.cfg 0xFFFF = false ∧ PSr busy.cfg :=
  ⟨⟨rfl, rfl, rfl, rfl⟩, ⟨rfl, rfl⟩, rfl, by decide⟩

theorem witness_ReadDuringAWriteCycleIsAFreeValue :
    busy.LinesMatch ∧ busy.ClocksLow ∧ busy.pend ≠ none ∧ PSr busy.cfg ∧ addrRefused busy.cfg 0x0020 = false :=
  ⟨⟨rfl, rfl, rfl, rfl⟩, ⟨rfl, rfl⟩, by decide, by decide, rfl⟩

theorem witness_WriteStrobesAndReplies :
    ready.LinesMatch ∧ ready.ClocksLow ∧ ready.pend = none ∧ PSr ready.cfg ∧ PWrite ready.cfg ∧
    addrRefused ready.cfg 0xFFFF = false := ⟨ready_lines, ready_clocks, rfl, by decide, by decide, rfl⟩

/-- Nothing pending, and a write cycle pending. -/
theorem witness_WriteAlwaysCompletes :
    ready.LinesMatch ∧ ready.ClocksLow ∧ ready.pend = none ∧ addrRefused ready.cfg 0x0000 = false ∧
    Memory.wf ready.mem = true ∧ busy.LinesMatch ∧ busy.ClocksLow ∧ busy.pend = some (0x0010, 0xAB) ∧
    addrRefused busy.cfg 0xFFFF = false ∧ Memory.wf busy.mem = true ∧ PSr busy.cfg :=
  ⟨ready_lines, ready_clocks, rfl, rfl, rfl, ⟨rfl, rfl, rfl, rfl⟩, ⟨rfl, rfl⟩, rfl, rfl, rfl, by decide⟩

theorem witness_WriteThenCommitThenReadReturnsTheValue :
    ready.LinesMatch ∧ ready.ClocksLow ∧ ready.pend = none ∧ PSr ready.cfg ∧ PWrite ready.cfg ∧ PReadSettle ready.cfg ∧
    addrRefused ready.cfg 0x0010 = false ∧ addrRefused ready.cfg 0x8010 = false ∧ Memory.wf ready.mem = true :=
  ⟨ready_lines, ready_clocks, rfl, by decide, by decide, by decide, rfl, rfl, rfl⟩

theorem witness_UnknownOnlyLatchesTheError : ready.mode = .standby := rfl

/-- Both sides of both bounds are addresses of REFUSE, where READ stops and LOAD does not yet. -/
theorem witness_Address15AliasesOrIsRefused :
    (refusing ready).LinesMatch ∧ (refusing ready).cfg.addr15 = .refuse ∧ 32768 ≤ (0x8000 : Addr).toNat ∧
    ¬ 32768 < (0x8000 : Addr).toNat ∧ 32768 < (0x8001 : Addr).toNat ∧ ready.LinesMatch :=
  ⟨⟨rfl, rfl, rfl, rfl⟩, rfl, by decide, by decide, by decide, ready_lines⟩

/-- Each setting. -/
theorem witness_IllegalLengthCompletes :
    ready.cfg.overlong = .lengthOnly ∧ ready.LinesMatch ∧ (loading 3 0).cfg.overlong = .lengthOnly ∧
    (loading 3 0).LinesMatch ∧ (capacity ready).cfg.overlong = .capacity :=
  ⟨rfl, ready_lines, rfl, loading_lines 3 0, rfl⟩

theorem witness_CapacityDiscardsSixtyThreeBytes :
    ({ capacity ready with rxq := 0x40 :: (List.replicate 63 0 ++ [0x01]) } : State).LinesMatch ∧
    (capacity ready).cfg.overlong = .capacity ∧ (capacity ready).sched = [] ∧ (capacity ready).cs = .len .idle ∧
    64 ≤ (0x40 : Byte).toNat ∧ (List.replicate 63 (0 : Byte)).length = 63 ∧
    ({ capacity ready with rxq := 0x40 :: (List.replicate 63 0 ++ [0x01]) } : State).rxq =
      0x40 :: (List.replicate 63 0 ++ [0x01]) :=
  ⟨⟨rfl, rfl, rfl, rfl⟩, rfl, rfl, rfl, by decide, by decide, rfl⟩

theorem witness_RaiseLatchesCleansUpAndReports : ready.LinesMatch ∧ (loading 3 0).LinesMatch :=
  ⟨ready_lines, loading_lines 3 0⟩

/-- With no error, and with one. -/
theorem witness_ReportIndicatesAndClears :
    ({ ready with cs := .report } : State).sched = [] ∧ ({ ready with cs := .report } : State).cs = .report ∧
    ({ ready with cs := .report } : State).err = .ok ∧
    ({ ready with cs := .report, err := .unknown } : State).err ≠ .ok := ⟨rfl, rfl, rfl, by decide⟩

theorem witness_DumpSendsTheFirstChunk :
    ready.LinesMatch ∧ ready.ClocksLow ∧ ready.pend = none ∧ PSr ready.cfg ∧ PReadSettle ready.cfg :=
  ⟨ready_lines, ready_clocks, rfl, by decide, by decide⟩

/-- The first, the last but one and the last full chunk, and the final one. -/
theorem witness_AckContinuesOrEndsTheDump :
    (dumping 62).LinesMatch ∧ (dumping 62).ClocksLow ∧ (dumping 62).pend = none ∧ PSr (dumping 62).cfg ∧
    PReadSettle (dumping 62).cfg ∧ (dumping 62).dump.chlen = 63 ∧ (dumping 62).dump.daddr.toNat = 63 * 0 + 62 ∧
    (dumping 32696).dump.daddr.toNat = 63 * 518 + 62 ∧ (dumping 32759).dump.daddr.toNat = 63 * 519 + 62 ∧
    dumpEnd.dump.chlen = 8 :=
  ⟨⟨rfl, rfl, rfl, rfl⟩, ⟨rfl, rfl⟩, rfl, by decide, by decide, rfl, by decide, by decide, by decide, rfl⟩

theorem witness_DumpAndAckAlwaysComplete :
    ((Instr.dump = .dump ∨ Instr.dump = .ack) ∧ (Instr.ack = .dump ∨ Instr.ack = .ack)) ∧ busy.LinesMatch ∧ busy.ClocksLow :=
  ⟨⟨.inl rfl, .inr rfl⟩, ⟨rfl, rfl, rfl, rfl⟩, ⟨rfl, rfl⟩⟩

theorem witness_BadReplyAbortsTheDump : (dumping 62).mode = .standby := rfl

/-- LOAD 0, the largest LOAD under each setting. -/
theorem witness_LoadAcksAndEntersWrite :
    ready.LinesMatch ∧ loadRefused ready.cfg 0 = false ∧ loadRefused ready.cfg 0xFFFF = false ∧ (0xFFFF : Addr) ≠ 0 ∧
    (refusing ready).LinesMatch ∧ loadRefused (refusing ready).cfg 0x8000 = false :=
  ⟨ready_lines, rfl, rfl, by decide, ⟨rfl, rfl, rfl, rfl⟩, rfl⟩

/-- A chunk that leaves one byte to come, and one that is more than enough. -/
theorem witness_LoadChunkProgramsItsBytes :
    (loading 3 0).LinesMatch ∧ (loading 3 0).ClocksLow ∧ (loading 3 0).mode = .write ∧ (loading 3 0).pend = none ∧
    PSr (loading 3 0).cfg ∧ PWrite (loading 3 0).cfg ∧ PPacing (loading 3 0).cfg ∧ (loading 3 0).LoadProgress ∧
    ([0x11, 0x22] : List Byte).length ≤ 63 ∧ 0 + min 2 (3 - 0) < 3 ∧ (List.replicate 63 (0x11 : Byte)).length ≤ 63 ∧
    0 + min 63 (3 - 0) = 3 ∧ Memory.wf (loading 3 0).mem = true ∧ (loading 0xFFFF 65534).LoadProgress :=
  ⟨loading_lines 3 0, loading_clocks 3 0, rfl, rfl, by decide, by decide, by decide, ⟨by decide, rfl, rfl⟩, by decide,
    by decide, by decide, by decide, rfl, ⟨by decide, by decide, rfl⟩⟩

theorem witness_LoadChunkAlwaysCompletes :
    (loading 3 0).LinesMatch ∧ (loading 3 0).ClocksLow ∧ (loading 3 0).mode = .write ∧ (loading 3 0).LoadProgress ∧
    PSr (loading 3 0).cfg ∧ Memory.wf (loading 3 0).mem = true :=
  ⟨loading_lines 3 0, loading_clocks 3 0, rfl, ⟨by decide, rfl, rfl⟩, by decide, rfl⟩

theorem witness_SentFramesAreAppended :
    (List.replicate 63 (0 : Byte)).length = 63 ∧ (List.replicate 8 (0 : Byte)).length = 8 := by decide

/-- A held frame of one byte, and the longest; an illegal length. -/
theorem witness_StepRunsTheDecodedInstruction :
    (held .idle [0x64] 1 ready).cs = .exec .idle ∧
    decode (.rx .idle) (BitVec.ofNat 8 (held .idle [0x64] 1 ready).rx.len.val :: (held .idle [0x64] 1 ready).rxPayload) =
      .ok (.dump, []) ∧
    decode (.rx .load) (BitVec.ofNat 8 (held .load [] 63 ready).rx.len.val :: (held .load [] 63 ready).rxPayload) =
      .ok (.loadChunk (List.replicate 63 0), []) ∧
    (held .idle [0x64] 1 ready).sched = [] ∧
    ({ held .idle [0x64] 1 ready with sched := [.block .toByte] } : State).sched = .block .toByte :: [] ∧
    ({ ready with rxq := [0x40, 0x01] } : State).cs = .len .idle ∧
    ({ ready with rxq := [0x40, 0x01] } : State).rxq = 0x40 :: [0x01] ∧ 64 ≤ (0x40 : Byte).toNat ∧
    decode (.rx .idle) [0x40, 0x01] = .ok (.illegalLen64 0x40, [0x01]) ∧
    ({ ready with rxq := [0x40, 0x01] } : State).sched = [] ∧
    ({ ready with rxq := [0x40, 0x01], sched := [.block .toByte] } : State).sched = .block .toByte :: [] :=
  ⟨rfl, by decide +kernel, by decide +kernel, rfl, rfl, rfl, rfl, by decide, by decide, rfl, rfl⟩

/-- The empty frame and the longest. -/
theorem witness_ReceiveTakesTheWholeFrame :
    ready.sched = [] ∧ ready.cs = .len .idle ∧ ([] : List Byte).length ≤ 63 ∧
    ({ ready with rxq := [0x00, 0x99] } : State).rxq = BitVec.ofNat 8 0 :: ([] ++ [0x99]) ∧
    (List.replicate 63 (0x5A : Byte)).length ≤ 63 ∧
    ({ ready with rxq := 0x3F :: List.replicate 63 0x5A } : State).rxq =
      BitVec.ofNat 8 (List.replicate 63 (0x5A : Byte)).length :: (List.replicate 63 0x5A ++ []) :=
  ⟨rfl, rfl, by decide, rfl, by decide, by decide⟩

/-- Each kind of wait, with and without a write cycle pending. -/
theorem witness_BlockWaitsOnAnEmptyQueue :
    ready.sched = [] ∧ ready.rxq = [] ∧ ready.cs = .len .idle ∧ ready.pend = none ∧ busy.cs = .len .idle ∧
    busy.pend = some (0x0010, 0xAB) ∧
    ({ ready with cs := .payload .idle 63 62 false } : State).cs = .payload .idle 63 62 false :=
  ⟨rfl, rfl, rfl, rfl, rfl, rfl, rfl⟩

/-- Each clause. -/
theorem witness_TimeoutIsFrameCorrupt :
    ({ ready with sched := [.rxTimeout .toByte], rxq := [0x00] } : State).rxq ≠ [] ∧
    ({ ready with sched := [.rxTimeout .toByte] } : State).sched = .rxTimeout .toByte :: [] ∧
    ({ ready with sched := [.rxTimeout .toByte] } : State).rxq = [] ∧
    ({ ready with sched := [.rxTimeout .toByte] } : State).cs = .len .idle ∧
    ({ ready with sched := [.rxTimeout .toByte] } : State).cfg.lenWait = .none ∧
    ({ ready with sched := [.rxTimeout .toByte], cfg := { ready.cfg with lenWait := .bounded } } : State).cfg.lenWait = .bounded ∧
    ({ ready with sched := [.rxTimeout .toByte], cs := .payload .load 1 0 false } : State).cs = .payload .load 1 0 false :=
  ⟨by decide, rfl, rfl, rfl, rfl, rfl, rfl⟩

/-- A step that appends, and one that takes a byte. -/
theorem witness_ReceiveQueueIsFifo :
    ({ ready with sched := [.hostSend [0x01]] } : State).sched = .hostSend [0x01] :: [] ∧
    (∃ t, step { ready with sched := [.hostSend [0x01]] } = .next t ∧ t.rxq = [0x01]) ∧
    (∃ t, step { ready with rxq := [0x01, 0x72] } = .next t ∧ t.rxq = [0x72]) ∧
    ∀ ms, ({ ready with rxq := [0x01, 0x72] } : State).sched ≠ .powerCycle :: ms :=
  ⟨rfl, ⟨_, rfl, rfl⟩, ⟨_, rfl, rfl⟩, by simp [ready, State.reset]⟩

theorem witness_TransmitStreamIsAppendOnly :
    (∃ t, step (held .ackWait [0x72] 1 (dumping 62)) = .next t) ∧
    ∀ ms, (held .ackWait [0x72] 1 (dumping 62)).sched ≠ .powerCycle :: ms :=
  ⟨⟨_, rfl⟩, by simp [held, dumping, ready, State.reset]⟩

theorem witness_StepKeepsTheParameters : ∃ t, step { busy with sched := [.powerCycle] } = .next t := ⟨_, rfl⟩

theorem witness_OnlyWriteAndLoadChunkTouchTheDevice :
    busy.LinesMatch ∧ (∃ t, exec .reset busy = .next t) ∧ (∀ (a : Addr) (v : Byte), Instr.reset ≠ .write a v) ∧
    ∀ data : List Byte, Instr.reset ≠ .loadChunk data :=
  ⟨⟨rfl, rfl, rfl, rfl⟩, ⟨_, rfl⟩, by simp, by simp⟩

theorem witness_MemoryContentsDoNotSteerTheBlock : ∃ t, step ready = .next t := ⟨_, rfl⟩

theorem witness_ResetSequenceReachesIdle :
    State.reset.sched = [] ∧ State.reset.cs = .boot ∧
    ({ State.reset with sched := [.block .toWait] } : State).sched = .block .toWait :: [] := ⟨rfl, rfl, rfl⟩

theorem witness_PowerLossKeepsTheOtherCells :
    ({ busy with sched := [.powerCycle] } : State).sched = .powerCycle :: [] ∧ Memory.wf busy.mem = true ∧
    busy.pend = some (0x0010, 0xAB) ∧ ready.pend = none := ⟨rfl, rfl, rfl, rfl⟩

theorem witness_StepKeepsTheInvariant :
    MachineInv (loadStart [0x01]) ∧ ∃ t, step (loadStart [0x01]) = .next t := ⟨loadStart_inv _, ⟨_, rfl⟩⟩

/-- At rest, and about to run DUMP. -/
theorem witness_InvariantStateSteps :
    MachineInv ready ∧ ready.sched = [] ∧ MachineInv (dumpStart []) ∧ (dumpStart []).sched = [] :=
  ⟨ready_inv, rfl, dumpStart_inv [], rfl⟩

/-- A DUMP that rests in the first delay of its first read. -/
theorem witness_RestingInDelaysChangesNoOutcome :
    MachineInv (dumpStart []) ∧ (Move.block = .block ∨ Move.block = .rxTimeout) ∧
    (nextOr (step { dumpStart [] with sched := [.block .toWait] })).map (fun t => t.cs.task) = some (some .dumpByte) :=
  ⟨dumpStart_inv [], .inl rfl, by decide +kernel⟩

/-- Each clause: outside WRITE mode with bytes to come, and a launch. -/
theorem witness_WriteFaultIsUnreachable :
    ready.mode ≠ .write ∧ ({ ready with load := { laddr := 0, ltotal := 1, ldone := 0 } } : State).load.ldone.toNat ≠
      ({ ready with load := { laddr := 0, ltotal := 1, ldone := 0 } } : State).load.ltotal.toNat ∧ Launch State.reset :=
  ⟨by decide, by decide, reset_launch⟩

theorem witness_IterationStartsInStandbyWithoutError :
    Launch State.reset ∧ ∃ t, Host.Core.run Sys2Proof.core 1 State.reset = .next t ∧ t.cs = .len .idle :=
  ⟨reset_launch, _, rfl, rfl⟩

/-- All acks but the last, and none. -/
theorem witness_DumpStreamsOneChunkPerAck :
    MachineInv (dumpStart (List.replicate 520 0x00 ++ [0x01])) ∧ (dumpStart (List.replicate 520 0x00 ++ [0x01])).sched = [] ∧
    (dumpStart (List.replicate 520 0x00 ++ [0x01])).cs = .exec .idle ∧
    (dumpStart (List.replicate 520 0x00 ++ [0x01])).rxPayload = [0x64] ∧
    (dumpStart (List.replicate 520 0x00 ++ [0x01])).pend = none ∧ PSr (dumpStart (List.replicate 520 0x00 ++ [0x01])).cfg ∧
    PReadSettle (dumpStart (List.replicate 520 0x00 ++ [0x01])).cfg ∧ 520 ≤ 520 ∧
    (dumpStart (List.replicate 520 0x00 ++ [0x01])).rxq = List.replicate 520 0x00 ++ [0x01] ∧
    MachineInv (dumpStart []) ∧ (dumpStart []).rxPayload = [0x64] ∧ 0 ≤ 520 ∧ (dumpStart []).rxq = List.replicate 0 0x00 ++ [] :=
  ⟨dumpStart_inv _, rfl, rfl, by decide +kernel, rfl, by decide, by decide, by decide, rfl, dumpStart_inv _,
    by decide +kernel, by decide, rfl⟩

theorem witness_CompleteDumpSendsTheWholeDevice :
    MachineInv (dumpStart (List.replicate dumpChunks 0x00 ++ [0x01])) ∧
    (dumpStart (List.replicate dumpChunks 0x00 ++ [0x01])).sched = [] ∧
    (dumpStart (List.replicate dumpChunks 0x00 ++ [0x01])).cs = .exec .idle ∧
    (dumpStart (List.replicate dumpChunks 0x00 ++ [0x01])).rxPayload = [0x64] ∧
    (dumpStart (List.replicate dumpChunks 0x00 ++ [0x01])).pend = none ∧
    PSr (dumpStart (List.replicate dumpChunks 0x00 ++ [0x01])).cfg ∧
    PReadSettle (dumpStart (List.replicate dumpChunks 0x00 ++ [0x01])).cfg ∧
    (dumpStart (List.replicate dumpChunks 0x00 ++ [0x01])).rxq = List.replicate dumpChunks 0x00 ++ [0x01] :=
  ⟨dumpStart_inv _, rfl, rfl, by decide +kernel, rfl, by decide, by decide, rfl⟩

/-- Three bytes in two chunks, the second with an excess. -/
theorem witness_CompleteLoadProgramsExactlyTheTotal :
    ∃ q : List Byte, q = [[0x11]].flatMap frame ++ frame [0x22, 0x33, 0x44] ++ [0x00] ∧
    MachineInv (loadStart q) ∧ (loadStart q).rxq = q ∧
    (loadStart q).sched = [] ∧ (loadStart q).cs = .len .load ∧ (loadStart q).load.ldone = 0 ∧
    (loadStart q).pend = none ∧ PSr (loadStart q).cfg ∧ PWrite (loadStart q).cfg ∧ PPacing (loadStart q).cfg ∧
    (∀ c ∈ ([[0x11]] : List (List Byte)), c.length ≤ 63) ∧ ([0x22, 0x33, 0x44] : List Byte).length ≤ 63 ∧
    ([[0x11]] : List (List Byte)).flatten.length < (loadStart q).load.ltotal.toNat ∧
    (loadStart q).load.ltotal.toNat ≤
      ([[0x11]] : List (List Byte)).flatten.length + ([0x22, 0x33, 0x44] : List Byte).length :=
  ⟨_, rfl, loadStart_inv _, rfl, rfl, rfl, rfl, rfl, by decide, by decide, by decide, by decide, by decide, by decide,
    by decide⟩

end Sys2Proof.Tests
end

section
/-! PROOFS. The command map of idle context and the operands of its frames (30_encoding R94-R97). -/

namespace Sys2Proof

open Machine

/-- The pair (n, opcode) selects the command, with n = 1 + the number of argument bytes (30_encoding R97). The split is on n:
each of 1, 3 and 4 leaves only its own opcodes to tell apart, and no other length has any. -/
theorem classifyIdle_cons (op : Byte) (args : List Byte) :
    classifyIdle (op :: args) =
      if args.length = 2 ∧ op = 0x72 then .read (be16 (args.getD 0 0) (args.getD 1 0))
      else if args.length = 3 ∧ op = 0x77 then .write (be16 (args.getD 0 0) (args.getD 1 0)) (args.getD 2 0)
      else if args.length = 0 ∧ op = 0x64 then .dump
      else if args.length = 2 ∧ op = 0x6C then .load (be16 (args.getD 0 0) (args.getD 1 0))
      else if args.length = 0 ∧ op = 0x72 then .reset
      else .unknown (op :: args) := by
  rcases args with _ | ⟨x, _ | ⟨y, _ | ⟨v, _ | ⟨w, r⟩⟩⟩⟩
  case nil => simp [classifyIdle]
  case cons.nil => simp [classifyIdle]
  case cons.cons.nil => simp [classifyIdle]
  case cons.cons.cons.nil => simp [classifyIdle]
  case cons.cons.cons.cons => simp [classifyIdle]

theorem idx_be16_toNat (hi lo : Byte) : (idx (be16 hi lo)).toNat = (hi.toNat * 256 + lo.toNat) % 32768 := by
  rw [idx_toNat, be16_toNat]

/-- Settles O3: the bytes are the frame of `op :: args`, which the decoder hands whole to `classifyIdle`. -/
theorem idleFrameSelectsCommandByLengthAndOpcode : Obligations.IdleFrameSelectsCommandByLengthAndOpcode := by
  refine ⟨fun rest => decode_rx_frame .idle (p := []) (Nat.zero_le 63) rest, fun op args rest h => ?_⟩
  have hlen : (op :: args).length ≤ 63 := Nat.succ_le_succ h
  calc decode (.rx .idle) (frame (op :: args) ++ rest)
      _ = .ok (classifyIdle (op :: args), rest) := decode_rx_frame .idle hlen rest
      _ = _ := by rw [classifyIdle_cons]

/-- Settles O4: the operand of all three commands is `be16 hi lo`. -/
theorem operandsAreBigEndian : Obligations.OperandsAreBigEndian := by
  intro hi lo v rest
  refine ⟨be16 hi lo, be16_toNat hi lo, idx_be16_toNat hi lo, ?_, ?_, ?_⟩
  · exact decode_rx_frame .idle (p := [0x72, hi, lo]) (by simp) rest
  · exact decode_rx_frame .idle (p := [0x77, hi, lo, v]) (by simp) rest
  · exact decode_rx_frame .idle (p := [0x6C, hi, lo]) (by simp) rest

end Sys2Proof
end

section
/-! PROOFS. A mode entry into the mode the block is already in (40_bus_and_access R137). -/

namespace Sys2Proof

open Machine

@[simp] theorem enterStandby_standby : enterStandby .standby = [] := rfl

@[simp] theorem enterRead_read : enterRead .read = [] := rfl

@[simp] theorem enterWrite_write : enterWrite .write = [] := rfl

/-- Settles O10: each entry into its own target is the empty list of events, and running no event leaves the state. -/
theorem modeEntryIsIdempotent : Obligations.ModeEntryIsIdempotent := by
  refine ⟨fun s h => ?_, fun s h => ?_, fun s h => ?_⟩
  · rw [h, enterStandby_standby]
    exact ⟨rfl, runPrims_nil s⟩
  · rw [h, enterRead_read]
    exact ⟨rfl, runPrims_nil s⟩
  · rw [h, enterWrite_write]
    exact ⟨rfl, runPrims_nil s⟩

end Sys2Proof
end

section
/-! PROOFS. RESET, and what its two bytes are in each context (42_commands R217, 30_encoding R102, R104). -/

namespace Sys2Proof

open Machine

theorem exec_reset (s : State) : exec .reset s = .next { s with cs := .report } := rfl

/-- The bytes of RESET are one whole frame in every context; only its classification depends on the context. -/
theorem decode_rx_resetBytes (c : RxContext) (rest : List Byte) :
    decode (.rx c) (0x01 :: 0x72 :: rest) = .ok (classify c [0x72], rest) :=
  decode_rx_frame c (p := [0x72]) (by simp) rest

@[simp] theorem classify_idle_resetPayload : classify .idle [0x72] = .reset := rfl

@[simp] theorem classify_ackWait_resetPayload : classify .ackWait [0x72] = .resetSentinel := rfl

@[simp] theorem classify_load (p : List Byte) : classify .load p = .loadChunk p := rfl

/-- Settles O25: RESET only goes on to the report; its bytes are the frame of `[0x72]`, classified by context. -/
theorem resetIsIgnored : Obligations.ResetIsIgnored := by
  refine ⟨exec_reset, fun rest => ⟨?_, ?_, ?_⟩⟩
  · rw [decode_rx_resetBytes, classify_idle_resetPayload]
  · rw [decode_rx_resetBytes, classify_ackWait_resetPayload]
  · rw [decode_rx_resetBytes, classify_load]

end Sys2Proof
end

section
/-! PROOFS. An error is latched, surfaced by the report at the end of its iteration, and cleared (60_exceptions R278, R280). -/

namespace Sys2Proof

open Machine

/-- What UNKNOWN carries is ignored (42_commands R218). -/
theorem exec_unknown (p : List Byte) (s : State) : exec (.unknown p) s = .next (raiseErr .unknown s) := rfl

/-- Settles O26: UNKNOWN only raises its error, and in STANDBY the cleanup of a raise makes no event. -/
theorem unknownOnlyLatchesTheError : Obligations.UnknownOnlyLatchesTheError := by
  intro p s hm
  rw [exec_unknown, raiseErr_standby .unknown hm]

/-- At rest, a block that is to report does so: REPORT is no wait, so a pending write cycle does not commit first. -/
theorem step_report {s : State} (h : s.sched = []) (hc : s.cs = .report) : step s = .next (report s) := by
  rw [step_nil h, restMove_block (.inl (waiting_report hc)), blockMove.eq_def, hc]

/-- Settles O31: the step at rest is the report, whose closed form indicates a latched error and clears it; LED is left
as it was when there is none to indicate. -/
theorem reportIndicatesAndClears : Obligations.ReportIndicatesAndClears := by
  intro s hs hc
  refine ⟨if s.err = .ok then s.led else (Config.blinkPattern s.err.code).getLastD s.led, ?_, fun hok => if_pos hok⟩
  rw [step_report hs hc, report_eq]

end Sys2Proof
end

section
/-! PROOFS. Decoding and encoding are inverse to each other (30_encoding R90-R106). -/

namespace Sys2Proof

open Machine

/-- A legal payload's instruction in its receive context: well-formed, read there, and the frame is its encoding. -/
theorem classify_faithful (c : RxContext) {p : List Byte} (h : p.length ≤ 63) :
    WellFormed (classify c p) ∧ (classify c p).readIn (.rx c) = true ∧ encode (classify c p) = frame p := by
  cases c with
  | idle =>
    rw [show classify .idle p = classifyIdle p from rfl]
    rcases classifyIdle_cases p with ⟨rfl, e⟩ | ⟨rfl, e⟩ | ⟨x, y, rfl, e⟩ | ⟨x, y, rfl, e⟩ | ⟨x, y, v, rfl, e⟩ | ⟨hp, e⟩
    · rw [e]; exact ⟨rfl, rfl, rfl⟩
    · rw [e]; exact ⟨rfl, rfl, rfl⟩
    · rw [e]; exact ⟨rfl, rfl, by rw [encode, hiByte_be16, loByte_be16]⟩
    · rw [e]; exact ⟨rfl, rfl, by rw [encode, hiByte_be16, loByte_be16]⟩
    · rw [e]; exact ⟨rfl, rfl, by rw [encode, hiByte_be16, loByte_be16]⟩
    · rw [e]; exact ⟨by simp [WellFormed, Instr.wf, hp, h], rfl, rfl⟩
  | ackWait =>
    rw [show classify .ackWait p = classifyAckWait p from rfl, classifyAckWait_eq]
    split_ifs with h0 h1
    · subst h0; exact ⟨rfl, rfl, rfl⟩
    · subst h1; exact ⟨rfl, rfl, rfl⟩
    · have hpos : 1 ≤ p.length := List.length_pos_of_ne_nil h0
      exact ⟨by simp [WellFormed, Instr.wf, h, hpos]; exact h1, rfl, rfl⟩
  | load => exact ⟨by simpa [classify_load, WellFormed, Instr.wf] using h, rfl, rfl⟩

/-- An illegal length byte's instruction: well-formed, read in every receive, and the byte is its encoding. -/
theorem classifyIllegal_faithful (c : RxContext) {n : Byte} (h : 64 ≤ n.toNat) :
    WellFormed (classifyIllegal n) ∧ (classifyIllegal n).readIn (.rx c) = true ∧ encode (classifyIllegal n) = [n] := by
  rw [classifyIllegal]
  split_ifs with hn
  · exact ⟨by simp [WellFormed, Instr.wf, h, hn], rfl, rfl⟩
  · exact ⟨by simp [WellFormed, Instr.wf]; omega, rfl, rfl⟩

/-- A payload the host reads: the instruction is well-formed, sent by the block, and the frame is its encoding. -/
theorem classifyTx_faithful {p : List Byte} {i : Instr} (h : classifyTx p = .ok i) :
    WellFormed i ∧ i.readIn .tx = true ∧ encode i = frame p := by
  rw [classifyTx.eq_def] at h
  split_ifs at h with h63 h8
  · cases h; exact ⟨by simp [WellFormed, Instr.wf, h63], rfl, rfl⟩
  · cases h; exact ⟨by simp [WellFormed, Instr.wf, h8], rfl, rfl⟩
  · rcases p with _ | ⟨v, _ | ⟨w, r⟩⟩
    · cases h; exact ⟨rfl, rfl, rfl⟩
    · cases h; exact ⟨rfl, rfl, rfl⟩
    · cases h

/-- What decodes is one illegal length byte of a receive, or a whole frame that its reader classifies (30_encoding R91,
R104-R106). -/
theorem decode_eq_ok {c : FrameContext} {bytes rest : List Byte} {i : Instr} (h : decode c bytes = .ok (i, rest)) :
    (∃ (r : RxContext) (n : Byte), c = .rx r ∧ 64 ≤ n.toNat ∧ bytes = n :: rest ∧ i = classifyIllegal n) ∨
    ∃ p : List Byte, p.length ≤ 63 ∧ bytes = frame p ++ rest ∧
      ((∃ r : RxContext, c = .rx r ∧ i = classify r p) ∨ (c = .tx ∧ classifyTx p = .ok i)) := by
  rcases bytes with _ | ⟨n, q⟩
  · cases h
  rw [decode.eq_def] at h
  dsimp only at h
  split_ifs at h with hn hl
  · cases c with
    | rx r =>
      obtain ⟨rfl, rfl⟩ := Prod.mk.inj (Except.ok.inj h)
      exact .inl ⟨r, n, rfl, hn, rfl, rfl⟩
    | tx => cases h
  · have hp : (q.take n.toNat).length ≤ 63 := by rw [List.length_take]; omega
    have hf := frame_of_length (n := n) (rest := q) (by omega)
    cases c with
    | rx r =>
      obtain ⟨rfl, rfl⟩ := Prod.mk.inj (Except.ok.inj h)
      exact .inr ⟨q.take n.toNat, hp, hf, .inl ⟨r, rfl, rfl⟩⟩
    | tx =>
      cases he : classifyTx (q.take n.toNat) with
      | error e => simp only [he] at h; cases h
      | ok j =>
        simp only [he] at h
        obtain ⟨rfl, rfl⟩ := Prod.mk.inj (Except.ok.inj h)
        exact .inr ⟨q.take n.toNat, hp, hf, .inr ⟨rfl, he⟩⟩

/-- Settles O2: each way to decode is faithful to the bytes, by the lemma of its classifier. -/
theorem decodedBytesAreTheEncoding : Obligations.DecodedBytesAreTheEncoding := by
  intro c bytes rest i h
  rcases decode_eq_ok h with ⟨r, n, rfl, hn, rfl, rfl⟩ | ⟨p, hp, rfl, ⟨r, rfl, rfl⟩ | ⟨rfl, hi⟩⟩
  · obtain ⟨hwf, hin, he⟩ := classifyIllegal_faithful r hn
    exact ⟨hwf, hin, by rw [he]; rfl⟩
  · obtain ⟨hwf, hin, he⟩ := classify_faithful r hp
    exact ⟨hwf, hin, by rw [he]⟩
  · obtain ⟨hwf, hin, he⟩ := classifyTx_faithful hi
    exact ⟨hwf, hin, by rw [he]⟩

/-- The encoding of every well-formed row is one illegal length byte of its class, or a legal frame that each reader of
the row classifies back to it (30_encoding R91, R97-R105). -/
theorem encode_classified {i : Instr} {c : FrameContext} (hwf : WellFormed i) (hin : i.readIn c = true) :
    (∃ (r : RxContext) (n : Byte), c = .rx r ∧ 64 ≤ n.toNat ∧ encode i = [n] ∧ classifyIllegal n = i) ∨
    ∃ p : List Byte, p.length ≤ 63 ∧ encode i = frame p ∧
      ((∃ r : RxContext, c = .rx r ∧ classify r p = i) ∨ (c = .tx ∧ classifyTx p = .ok i)) := by
  cases i with
  | read a =>
    exact .inr ⟨_, by simp, rfl, .inl ⟨.idle, by simpa [Instr.readIn] using hin, congrArg Instr.read (be16_hi_lo a)⟩⟩
  | write a v =>
    exact .inr ⟨_, by simp, rfl,
      .inl ⟨.idle, by simpa [Instr.readIn] using hin, congrArg (Instr.write · v) (be16_hi_lo a)⟩⟩
  | dump => exact .inr ⟨_, by simp, rfl, .inl ⟨.idle, by simpa [Instr.readIn] using hin, rfl⟩⟩
  | load total =>
    exact .inr ⟨_, by simp, rfl,
      .inl ⟨.idle, by simpa [Instr.readIn] using hin, congrArg Instr.load (be16_hi_lo total)⟩⟩
  | reset => exact .inr ⟨_, by simp, rfl, .inl ⟨.idle, by simpa [Instr.readIn] using hin, rfl⟩⟩
  | unknown p =>
    obtain ⟨hl, hp⟩ : p.length ≤ 63 ∧ isCommandPayload p = false := by simpa [WellFormed, Instr.wf] using hwf
    exact .inr ⟨p, hl, rfl, .inl ⟨.idle, by simpa [Instr.readIn] using hin, classifyIdle_unknown hp⟩⟩
  | illegalLen64 n =>
    obtain ⟨h64, h128⟩ : 64 ≤ n.toNat ∧ n.toNat < 128 := by simpa [WellFormed, Instr.wf] using hwf
    cases c with
    | rx r => exact .inl ⟨r, n, rfl, h64, rfl, if_pos h128⟩
    | tx => cases hin
  | illegalLen128 n =>
    have h128 : 128 ≤ n.toNat := by simpa [WellFormed, Instr.wf] using hwf
    cases c with
    | rx r => exact .inl ⟨r, n, rfl, by omega, rfl, if_neg (by omega)⟩
    | tx => cases hin
  | ack => exact .inr ⟨[], by simp, rfl, .inl ⟨.ackWait, by simpa [Instr.readIn] using hin, rfl⟩⟩
  | resetSentinel => exact .inr ⟨_, by simp, rfl, .inl ⟨.ackWait, by simpa [Instr.readIn] using hin, rfl⟩⟩
  | ackwaitUnexpected p =>
    obtain ⟨⟨h1, h63⟩, hs⟩ : (1 ≤ p.length ∧ p.length ≤ 63) ∧ p ≠ [Sys2Proof.resetSentinel] := by
      simpa [WellFormed, Instr.wf] using hwf
    refine .inr ⟨p, h63, rfl, .inl ⟨.ackWait, by simpa [Instr.readIn] using hin, ?_⟩⟩
    rw [show classify .ackWait p = classifyAckWait p from rfl, classifyAckWait_eq, if_neg (List.ne_nil_of_length_pos h1),
      if_neg hs]
  | loadChunk d =>
    exact .inr ⟨d, by simpa [WellFormed, Instr.wf] using hwf, rfl,
      .inl ⟨.load, by simpa [Instr.readIn] using hin, rfl⟩⟩
  | readReply v => exact .inr ⟨[v], by simp, rfl, .inr ⟨by simpa [Instr.readIn] using hin, rfl⟩⟩
  | ackOut => exact .inr ⟨[], by simp, rfl, .inr ⟨by simpa [Instr.readIn] using hin, rfl⟩⟩
  | dumpChunk d =>
    have h63 : d.length = maxPayload := by simpa [WellFormed, Instr.wf] using hwf
    exact .inr ⟨d, by simp [h63], rfl, .inr ⟨by simpa [Instr.readIn] using hin, if_pos h63⟩⟩
  | dumpLast d =>
    have h8 : d.length = 8 := by simpa [WellFormed, Instr.wf] using hwf
    exact .inr ⟨d, by simp [h8], rfl,
      .inr ⟨by simpa [Instr.readIn] using hin, by rw [classifyTx.eq_def, if_neg (by simp [h8]), if_pos h8]⟩⟩

/-- Settles O1: the decoder takes the whole encoding, and the classifier of its reader answers the row. -/
theorem decodeOfEncodeReturnsInstruction : Obligations.DecodeOfEncodeReturnsInstruction := by
  intro i c rest hwf hin
  rcases encode_classified hwf hin with ⟨r, n, rfl, hn, he, hi⟩ | ⟨p, hp, he, ⟨r, rfl, hi⟩ | ⟨rfl, hi⟩⟩
  · rw [he, ← hi]; exact decode_rx_illegal r hn rest
  · rw [he, ← hi]; exact decode_rx_frame r hp rest
  · rw [he, decode_tx_frame hp, hi]

/-- Settles O5: the decoder hands the whole payload to the classifier of the context. -/
theorem replyAndChunkFramesAreClassified : Obligations.ReplyAndChunkFramesAreClassified := by
  intro p rest hp
  constructor
  · calc decode (.rx .ackWait) (frame p ++ rest)
        _ = .ok (classifyAckWait p, rest) := decode_rx_frame .ackWait hp rest
        _ = _ := by rw [classifyAckWait_eq]
  · exact decode_rx_frame .load hp rest

/-- Settles O6: the rule for an illegal length byte, with its two rows told apart. -/
theorem illegalLengthIsOneByte : Obligations.IllegalLengthIsOneByte := by
  intro c n rest hn
  rw [decode_rx_illegal c hn, classifyIllegal]

/-- Settles O7: five closed words. -/
theorem sampleFramesDecode : Obligations.SampleFramesDecode := by
  unfold Obligations.SampleFramesDecode
  decide

end Sys2Proof
end

section
/-! PROOFS. Events one after the other: which leave the pins alone, and that the bus has no contention after any of them
(10_state R38, R39; 40_bus_and_access R134-R142). -/

namespace Sys2Proof.Machine

/-- The bus has no contention before the events and after each of them. -/
def Quiet (ps : List Prim) (s : State) : Prop := ∀ k : Nat, (runPrims (ps.take k) s).contention = false

theorem quiet_nil {s : State} : Quiet [] s ↔ s.contention = false :=
  ⟨fun h => h 0, fun h k => by rw [List.take_nil]; exact h⟩

theorem quiet_cons {p : Prim} {ps : List Prim} {s : State} :
    Quiet (p :: ps) s ↔ s.contention = false ∧ Quiet ps (p.run s) := by
  constructor
  · intro h
    exact ⟨h 0, fun k => h (k + 1)⟩
  · rintro ⟨h0, hs⟩ k
    cases k with
    | zero => exact h0
    | succ k => exact hs k

theorem Quiet.start {ps : List Prim} {s : State} (h : Quiet ps s) : s.contention = false := h 0

theorem quiet_append {ps qs : List Prim} {s : State} (h : Quiet ps s) (k : Quiet qs (runPrims ps s)) :
    Quiet (ps ++ qs) s := by
  induction ps generalizing s with
  | nil => exact k
  | cons p ps ih =>
    obtain ⟨h0, hs⟩ := quiet_cons.1 h
    exact quiet_cons.2 ⟨h0, ih hs k⟩

/-- The rest of quiet events is quiet where the first ones lead. -/
theorem Quiet.after {ps qs : List Prim} {s : State} (h : Quiet (ps ++ qs) s) : Quiet qs (runPrims ps s) := by
  induction ps generalizing s with
  | nil => exact h
  | cons p ps ih => exact ih (quiet_cons.1 h).2

theorem Quiet.congr {ps : List Prim} {s t : State} (h : Quiet ps s) (e : SameLines s t) : Quiet ps t :=
  fun k => (runPrims_sameLines _ e).contention.trans (h k)

theorem State.LinesMatch.contention {s : State} (h : s.LinesMatch) : s.contention = false := by
  simp only [State.contention, State.ctrlDrives, State.devDrives, h.ddir, h.ce, h.oe, h.we]
  cases s.mode <;> rfl

theorem contention_of_input {s : State} (h : s.pins.ddir = .input) : s.contention = false := by
  simp [State.contention, State.ctrlDrives, h]

theorem contention_of_oe {s : State} (h : s.pins.oe = .deasserted) : s.contention = false := by
  simp [State.contention, State.devDrives, h]

@[simp] theorem driveWE_pins (l : Level) (s : State) : (driveWE l s).pins = s.pins.setWE l := by
  rw [driveWE]; split <;> simp

@[simp] theorem driveWE_mode (l : Level) (s : State) : (driveWE l s).mode = s.mode := by
  rw [driveWE]; split <;> simp

@[simp] theorem runDelay_pins (t : DelayName) (s : State) : (runDelay t s).pins = s.pins := (runDelay_sameLines t s).pins

/-- An event of the shift register, a delay or a sample, which write no pin of the bus and not MODE. -/
def Prim.keepsPins : Prim → Bool
  | .setDir _ => false
  | .setD _ => false
  | .setCE _ => false
  | .setOE _ => false
  | .setWE _ => false
  | .setSER _ => true
  | .setSRCLK _ => true
  | .setRCLK _ => true
  | .delay _ => true
  | .sampleD => true
  | .setMode _ => false

theorem Prim.run_keepsPins {p : Prim} (hp : p.keepsPins = true) (s : State) :
    (p.run s).pins = s.pins ∧ (p.run s).mode = s.mode := by
  cases p with
  | setSER b => exact ⟨rfl, rfl⟩
  | setSRCLK b =>
    rw [Prim.run, driveSRCLK]
    split
    · exact ⟨(srclkRise_sameLines _).pins, (srclkRise_sameLines _).mode⟩
    · exact ⟨rfl, rfl⟩
  | setRCLK b =>
    rw [Prim.run, driveRCLK]
    split
    · exact ⟨(rclkRise_sameLines _).pins, (rclkRise_sameLines _).mode⟩
    · exact ⟨rfl, rfl⟩
  | delay t => exact ⟨(runDelay_sameLines t s).pins, (runDelay_sameLines t s).mode⟩
  | sampleD => exact ⟨(sampleD_sameLines s).pins, (sampleD_sameLines s).mode⟩
  | setDir d => cases hp
  | setD v => cases hp
  | setCE l => cases hp
  | setOE l => cases hp
  | setWE l => cases hp
  | setMode m => cases hp

theorem runPrims_keepsPins {ps : List Prim} (hp : ∀ p ∈ ps, p.keepsPins = true) (s : State) :
    (runPrims ps s).pins = s.pins ∧ (runPrims ps s).mode = s.mode := by
  induction ps generalizing s with
  | nil => exact ⟨rfl, rfl⟩
  | cons p ps ih =>
    obtain ⟨h1, h2⟩ := Prim.run_keepsPins (hp p (by simp)) s
    obtain ⟨k1, k2⟩ := ih (fun q hq => hp q (by simp [hq])) (p.run s)
    exact ⟨k1.trans h1, k2.trans h2⟩

theorem linesMatch_of_pins {s t : State} (hp : t.pins = s.pins) (hm : t.mode = s.mode) (h : s.LinesMatch) :
    t.LinesMatch := ⟨by rw [hp, hm, h.ddir], by rw [hp, hm, h.ce], by rw [hp, hm, h.oe], by rw [hp, hm, h.we]⟩

theorem quiet_keepsPins {ps : List Prim} (hp : ∀ p ∈ ps, p.keepsPins = true) {s : State} (h : s.contention = false) :
    Quiet ps s := by
  intro k
  obtain ⟨e, -⟩ := runPrims_keepsPins (fun p hk => hp p (List.mem_of_mem_take hk)) (s := s) (ps := ps.take k)
  simp only [State.contention, State.ctrlDrives, State.devDrives, e]
  exact h

theorem loadAddress_keepsPins (a : Addr) : ∀ p ∈ loadAddress a, p.keepsPins = true := by
  intro p hp
  rcases List.mem_append.1 hp with h | h
  · obtain ⟨i, -, hi⟩ := List.mem_flatMap.1 h
    exact (by cases a.getLsbD i <;> decide : ∀ p ∈ clockBit (a.getLsbD i), p.keepsPins = true) p hi
  · exact (by decide : ∀ p ∈ [Prim.setRCLK true, .delay .srHalf, .setRCLK false, .delay .srHalf],
      p.keepsPins = true) p h

/-- loadAddress keeps the lines of MODE, whatever the clocks (40 R130). -/
theorem loadAddress_linesMatch (a : Addr) {s : State} (h : s.LinesMatch) : (runPrims (loadAddress a) s).LinesMatch := by
  obtain ⟨hp, hm⟩ := runPrims_keepsPins (loadAddress_keepsPins a) s
  exact linesMatch_of_pins hp hm h

/-- The events of enterStandby outside STANDBY make the pins inputs first, so that nobody else can clash (40 R134). -/
theorem quiet_toStandbyEvents {s : State} (h : s.contention = false) :
    Quiet [.setDir .input, .setOE .deasserted, .setCE .deasserted, .setWE .deasserted, .delay .modeSettle,
      .setMode .standby] s := by
  simp only [quiet_cons, quiet_nil]
  refine ⟨h, ?_, ?_, ?_, ?_, ?_, ?_⟩
  all_goals exact contention_of_input (by simp [Prim.run])

theorem quiet_enterStandby (m : Mode) {s : State} (h : s.contention = false) : Quiet (enterStandby m) s := by
  cases m with
  | standby => exact quiet_nil.2 h
  | read => exact quiet_toStandbyEvents h
  | write => exact quiet_toStandbyEvents h

theorem quiet_standbyToRead {s : State} (h : s.contention = false) : Quiet standbyToRead s := by
  simp only [standbyToRead, quiet_cons, quiet_nil]
  refine ⟨h, ?_, ?_, ?_, ?_, ?_, ?_⟩
  all_goals exact contention_of_input (by simp [Prim.run])

/-- OE is deasserted before the pins become outputs (40 R136). -/
theorem quiet_standbyToWrite {s : State} (hi : s.pins.ddir = .input) : Quiet standbyToWrite s := by
  simp only [standbyToWrite, quiet_cons, quiet_nil]
  refine ⟨contention_of_input hi, contention_of_input (by simp [Prim.run, hi]), ?_, ?_, ?_, ?_, ?_⟩
  all_goals exact contention_of_oe (by simp [Prim.run])

theorem quiet_enterRead {s : State} (h : s.LinesMatch) : Quiet (enterRead s.mode) s := by
  cases hm : s.mode with
  | standby => exact quiet_standbyToRead h.contention
  | read => exact quiet_nil.2 h.contention
  | write =>
    refine quiet_append (quiet_enterStandby .write h.contention) ?_
    rw [← hm, run_enterStandby h]
    exact quiet_standbyToRead (atMode_linesMatch _ _).contention

theorem quiet_enterWrite {s : State} (h : s.LinesMatch) : Quiet (enterWrite s.mode) s := by
  cases hm : s.mode with
  | standby => exact quiet_standbyToWrite (by rw [h.ddir, hm]; rfl)
  | read =>
    refine quiet_append (quiet_enterStandby .read h.contention) ?_
    rw [← hm, run_enterStandby h]
    exact quiet_standbyToWrite rfl
  | write => exact quiet_nil.2 h.contention

/-- read() only adds events between two mode entries that leave the pins alone (40 R141). -/
theorem quiet_readEvents (a : Addr) {s : State} (h : s.LinesMatch) : Quiet (readEvents s.mode a) s := by
  have hl : (runPrims (loadAddress a) (s.atMode .read)).LinesMatch := loadAddress_linesMatch a (atMode_linesMatch _ _)
  have hs : ∀ p ∈ [Prim.delay .readSettle, .sampleD], p.keepsPins = true := by decide
  obtain ⟨hp, hm⟩ := runPrims_keepsPins hs (runPrims (loadAddress a) (s.atMode .read))
  refine quiet_append (quiet_append (quiet_append (quiet_enterRead h) ?_) ?_) ?_
  · exact quiet_keepsPins (loadAddress_keepsPins a) (by rw [run_enterRead h]; exact (atMode_linesMatch _ _).contention)
  · rw [runPrims_append, run_enterRead h]
    exact quiet_keepsPins hs hl.contention
  · rw [runPrims_append, runPrims_append, run_enterRead h]
    exact quiet_enterStandby .read (linesMatch_of_pins hp hm hl).contention

/-- The device drives nothing in a write(): OE stays deasserted (40 R142). -/
theorem quiet_writeEvents (a : Addr) (v : Byte) {s : State} (h : s.LinesMatch) (hm : s.mode = .write) :
    Quiet (writeEvents a v) s := by
  have hoe : s.pins.oe = .deasserted := by rw [h.oe, hm]; rfl
  obtain ⟨hp, -⟩ := runPrims_keepsPins (loadAddress_keepsPins a) s
  refine quiet_append (quiet_keepsPins (loadAddress_keepsPins a) h.contention) ?_
  simp only [quiet_cons, quiet_nil]
  refine ⟨?_, ?_, ?_, ?_, ?_, ?_, ?_⟩
  all_goals exact contention_of_oe (by simp [Prim.run, hp, hoe])

/-- Settles O8: the pins are inputs, or OE is deasserted, from the first event of each procedure to the last. -/
theorem noContentionAfterAnyEvent : Obligations.NoContentionAfterAnyEvent := by
  refine ⟨fun s a v k h => ⟨?_, ?_, ?_, ?_, fun hm => ?_⟩, fun s k hk => ?_⟩
  · exact quiet_enterStandby s.mode h.contention k
  · exact quiet_enterRead h k
  · exact quiet_enterWrite h k
  · exact quiet_readEvents a h k
  · exact quiet_writeEvents a v h hm k
  · have hq : Quiet bootLines.tail (Prim.run (.setDir .input) s) := by
      simp only [bootLines, List.tail_cons, quiet_cons, quiet_nil]
      refine ⟨?_, ?_, ?_, ?_, ?_, ?_⟩
      all_goals exact contention_of_input (by simp [Prim.run, driveSRCLK, driveRCLK])
    obtain ⟨k, rfl⟩ := Nat.exists_eq_add_of_lt hk
    rw [Nat.zero_add]
    exact hq k

/-- Settles O9: each entry is `atMode`, which spells out to the lines of its mode. -/
theorem modeEntrySetsTheLines : Obligations.ModeEntrySetsTheLines :=
  fun _ h => ⟨run_enterStandby h, run_enterRead h, run_enterWrite h⟩

end Sys2Proof.Machine
end

section
/-! PROOFS. The shift register, the events of the procedures, and write()'s strobe (40_bus_and_access R130-R132, R142,
R144; 70_reset_and_hazards section 4). -/

namespace Sys2Proof.Machine

/-- The register after loadAddress, field by field, when the clocks were low. -/
theorem State.ClocksLow.sr_eq {s : State} (h : s.ClocksLow) (b : Bool) (x y : Addr) :
    ((s.sr.setSer b).setShift x).setOut y =
      { ser := b, srclk := false, rclk := false, oe := s.sr.oe, clr := s.sr.clr, shift := x, out := y } := by
  ext <;> simp [h.srclk, h.rclk]

/-- Settles O11: the closed form of loadAddress under P_SR, with the clocks low as they were. -/
theorem loadAddressLatchesTheAddress : Obligations.LoadAddressLatchesTheAddress := by
  intro a s hc hp
  rw [run_loadAddress a hc, loaded_of_PSr hp, hc.sr_eq]

/-- One shift as arithmetic: the top bit is lost, the new bit enters below (40 R131). -/
theorem shiftIn_toNat (v : Addr) (b : Bool) : (shiftIn v b).toNat = (v.toNat % 32768) * 2 + b.toNat := by
  rw [shiftIn, BitVec.toNat_concat, BitVec.extractLsb'_toNat, Nat.shiftRight_zero]

theorem srclk_rising {s : State} (hp : PSr s.cfg) (h : s.sr.srclk = false) :
    ((Prim.setSRCLK true).run s).sr = (s.sr.setSrclk true).setShift (shiftIn s.sr.shift s.sr.ser) := by
  simp [Prim.run, driveSRCLK, srclkRise, h, hp]

theorem rclk_rising {s : State} (hp : PSr s.cfg) (h : s.sr.rclk = false) :
    ((Prim.setRCLK true).run s).sr = (s.sr.setRclk true).setOut s.sr.shift := by
  simp [Prim.run, driveRCLK, rclkRise, h, hp]

theorem runDelay_sr (t : DelayName) (s : State) : (runDelay t s).sr = s.sr := by
  cases t
  case interWrite => rw [runDelay, pacingDelay_eq]
  all_goals rfl

/-- An event that is no rising clock edge leaves both stages, whatever the premises. -/
theorem stages_of_noEdge {p : Prim} {s : State} (h1 : ¬ (p = .setSRCLK true ∧ s.sr.srclk = false))
    (h2 : ¬ (p = .setRCLK true ∧ s.sr.rclk = false)) :
    (p.run s).sr.out = s.sr.out ∧ (p.run s).sr.shift = s.sr.shift := by
  cases p with
  | setSRCLK b =>
    rw [Prim.run, driveSRCLK, if_neg fun k => h1 ⟨by rw [k.2], k.1⟩]
    exact ⟨rfl, rfl⟩
  | setRCLK b =>
    rw [Prim.run, driveRCLK, if_neg fun k => h2 ⟨by rw [k.2], k.1⟩]
    exact ⟨rfl, rfl⟩
  | setWE l => rw [Prim.run, driveWE]; split <;> simp
  | sampleD =>
    rw [Prim.run, Sys2Proof.Machine.sampleD]
    split_ifs <;> exact ⟨rfl, rfl⟩
  | delay t => exact ⟨congrArg ShiftReg.out (runDelay_sr t s), congrArg ShiftReg.shift (runDelay_sr t s)⟩
  | setDir d => exact ⟨rfl, rfl⟩
  | setD v => exact ⟨rfl, rfl⟩
  | setCE l => exact ⟨rfl, rfl⟩
  | setOE l => exact ⟨rfl, rfl⟩
  | setSER b => exact ⟨rfl, rfl⟩
  | setMode m => exact ⟨rfl, rfl⟩

/-- Settles O12: the two rising edges in closed form, and nothing else moves the stages. -/
theorem shiftRegisterActsOnRisingEdges : Obligations.ShiftRegisterActsOnRisingEdges := by
  intro p s hp
  refine ⟨?_, ?_, stages_of_noEdge⟩
  · rintro ⟨rfl, h⟩
    rw [srclk_rising hp h]
    exact ⟨shiftIn_toNat _ _, rfl⟩
  · rintro ⟨rfl, h⟩
    rw [rclk_rising hp h]
    exact ⟨rfl, rfl⟩

/-- Each bit of an address costs three line writes and two delays (40 R130). -/
theorem clockBits_counts (a : Addr) (is : List Nat) :
    ((is.flatMap fun i => clockBit (a.getLsbD i)).filter Prim.isLineWrite).length = 3 * is.length ∧
    ((is.flatMap fun i => clockBit (a.getLsbD i)).filter Prim.isDelay).length = 2 * is.length ∧
    (is.flatMap fun i => clockBit (a.getLsbD i)).count .sampleD = 0 := by
  induction is with
  | nil => exact ⟨rfl, rfl, rfl⟩
  | cons i is ih =>
    obtain ⟨h1, h2, h3⟩ := ih
    have bit : ∀ b : Bool, ((clockBit b).filter Prim.isLineWrite).length = 3 ∧
        ((clockBit b).filter Prim.isDelay).length = 2 ∧ (clockBit b).count .sampleD = 0 := by decide
    obtain ⟨b1, b2, b3⟩ := bit (a.getLsbD i)
    rw [List.flatMap_cons, List.filter_append, List.filter_append, List.length_append, List.length_append, h1, h2,
      List.count_append, h3, b1, b2, b3, List.length_cons]
    omega

theorem loadAddress_counts (a : Addr) :
    ((loadAddress a).filter Prim.isLineWrite).length = 50 ∧ ((loadAddress a).filter Prim.isDelay).length = 34 ∧
    (loadAddress a).count .sampleD = 0 := by
  obtain ⟨h1, h2, h3⟩ := clockBits_counts a [15, 14, 13, 12, 11, 10, 9, 8, 7, 6, 5, 4, 3, 2, 1, 0]
  rw [loadAddress, List.filter_append, List.filter_append, List.length_append, List.length_append, List.count_append,
    h1, h2, h3]
  exact ⟨rfl, rfl, rfl⟩

/-- Settles O14: the counts of loadAddress, and the few events around it counted one by one. -/
theorem proceduresHaveTheirEventCounts : Obligations.ProceduresHaveTheirEventCounts := by
  intro a v
  obtain ⟨h1, h2, h3⟩ := loadAddress_counts a
  refine ⟨h1, h2, ?_, ?_, ?_, ?_, ?_⟩
  · simp only [readEvents, List.filter_append, List.length_append, h1]; rfl
  · simp only [readEvents, List.filter_append, List.length_append, h2]; rfl
  · simp only [readEvents, List.count_append, h3]; rfl
  · simp only [writeEvents, List.filter_append, List.length_append, h1]; rfl
  · simp only [writeEvents, List.filter_append, List.length_append, h2]; rfl

/-- What write() does once the address is loaded (40 R142). -/
def strobeEvents (v : Byte) : List Prim :=
  [.setD v, .delay .wrSetup, .setWE .asserted, .delay .weLow, .setWE .deasserted, .delay .wrHold]

theorem writeEvents_eq (a : Addr) (v : Byte) : writeEvents a v = loadAddress a ++ strobeEvents v := rfl

/-- The first events of write() stop inside loadAddress, or after some of the events around the strobe. -/
theorem take_writeEvents (a : Addr) (v : Byte) (k : Nat) :
    (k < (loadAddress a).length ∧ ∀ j ≤ k + 1, (writeEvents a v).take j = (loadAddress a).take j) ∨
      ∃ j, k = (loadAddress a).length + j ∧
        ∀ i, (writeEvents a v).take ((loadAddress a).length + i) = loadAddress a ++ (strobeEvents v).take i := by
  rw [writeEvents_eq]
  rcases Nat.lt_or_ge k (loadAddress a).length with h | h
  · exact .inl ⟨h, fun j hj => by rw [List.take_append_of_le_length (by omega)]⟩
  · exact .inr ⟨k - (loadAddress a).length, by omega, fun i => List.take_length_add_append i⟩

/-- While WE is deasserted, prefixes of loadAddress leave the device and WE alone. -/
theorem loadAddress_take_device (a : Addr) (k : Nat) {s : State} (h : s.pins.we = .deasserted) :
    (runPrims ((loadAddress a).take k) s).pins.we = .deasserted ∧ (runPrims ((loadAddress a).take k) s).mem = s.mem ∧
      (runPrims ((loadAddress a).take k) s).pend = s.pend :=
  runPrims_keepsDevice (fun p hp => loadAddress_keepsDevice a p (List.mem_of_mem_take hp)) h

/-- The events around the strobe, one by one, in the lines of WRITE: WE is asserted after the third and the fourth only,
where the data is on the pins, and only the fifth, which deasserts it, reaches the device. -/
theorem strobeEvents_take {s : State} (h : s.LinesMatch) (hm : s.mode = .write) (v : Byte) (j : Nat) :
    ((runPrims ((strobeEvents v).take j) s).pins.we = .asserted ↔ j = 3 ∨ j = 4) ∧
    ((runPrims ((strobeEvents v).take j) s).pins.we = .asserted →
      (runPrims ((strobeEvents v).take j) s).sr.out = s.sr.out ∧
      (runPrims ((strobeEvents v).take j) s).pins.dout = v ∧
      (runPrims ((strobeEvents v).take j) s).pins.ddir = .output) ∧
    (j ≠ 4 → (runPrims ((strobeEvents v).take (j + 1)) s).pend = (runPrims ((strobeEvents v).take j) s).pend ∧
      (runPrims ((strobeEvents v).take (j + 1)) s).mem = (runPrims ((strobeEvents v).take j) s).mem) := by
  have hwe := h.we_deasserted
  have hd : s.pins.ddir = .output := by rw [h.ddir, hm]; rfl
  have hce : s.pins.ce = .asserted := by rw [h.ce, hm]; rfl
  have hoe : s.pins.oe = .deasserted := by rw [h.oe, hm]; rfl
  rcases j with _ | _ | _ | _ | _ | _ | j
  case succ.succ.succ.succ.succ.succ =>
    rw [List.take_of_length_le (show (strobeEvents v).length ≤ j + 6 by simp [strobeEvents]),
      List.take_of_length_le (show (strobeEvents v).length ≤ j + 6 + 1 by simp [strobeEvents])]
    simp [strobeEvents, Prim.run]
  all_goals simp [strobeEvents, Prim.run, runDelay, driveWE, hwe, hd, hce, hoe]

/-- Settles O13: within loadAddress WE stays deasserted and the device is left alone; around the strobe the events are
told one by one. -/
theorem addressAndDataStableWhileWriteEnabled : Obligations.AddressAndDataStableWhileWriteEnabled := by
  intro s a v h hm
  have hl := loadAddress_linesMatch a h
  have hm' : (runPrims (loadAddress a) s).mode = .write :=
    (runPrims_keepsPins (loadAddress_keepsPins a) s).2.trans hm
  have hs := strobeEvents_take hl hm' v
  have tail : ∀ i, (writeEvents a v).take ((loadAddress a).length + i) = loadAddress a ++ (strobeEvents v).take i :=
    fun i => List.take_length_add_append i
  refine ⟨⟨(runPrims (loadAddress a) s).sr.out, fun k hk => ?_⟩, ⟨(loadAddress a).length + 4, ?_, ?_⟩, fun k hk => ?_⟩
  · rcases take_writeEvents a v k with ⟨-, e⟩ | ⟨j, rfl, e⟩
    · rw [e k (by omega), (loadAddress_take_device a k h.we_deasserted).1] at hk
      cases hk
    · rw [e j, runPrims_append] at hk ⊢
      exact (hs j).2.1 hk
  · rw [tail, runPrims_append]
    exact (hs 4).1.2 (.inr rfl)
  · rw [Nat.add_assoc, tail, runPrims_append]
    simp [strobeEvents, Prim.run]
  · rcases take_writeEvents a v k with ⟨-, e⟩ | ⟨j, rfl, e⟩
    · obtain ⟨-, m0, p0⟩ := loadAddress_take_device a k h.we_deasserted
      obtain ⟨-, m1, p1⟩ := loadAddress_take_device a (k + 1) h.we_deasserted
      rw [e k (by omega), e (k + 1) le_rfl, m0, p0, m1, p1] at hk
      simp at hk
    · rw [Nat.add_assoc, e j, e (j + 1), runPrims_append, runPrims_append] at hk ⊢
      have hj : j = 4 := by
        by_contra hne
        obtain ⟨hp, hmem⟩ := (hs j).2.2 hne
        rw [hp, hmem] at hk
        simp at hk
      subst hj
      exact ⟨(hs 4).1.2 (.inr rfl), by simp [strobeEvents, Prim.run]⟩

end Sys2Proof.Machine
end

section
/-! PROOFS. The device: the write cycle, the commit, and an address's cell (20_memory R62, R69, R70, R72). -/

namespace Sys2Proof.Machine

/-- Under P_SR the strobe of write() finds the address in the register and the value on the pins (40 R142). -/
theorem writeByte_of_PSr {a : Addr} {v : Byte} {s : State} (h : s.LinesMatch) (hc : s.ClocksLow) (hm : s.mode = .write)
    (hp : PSr s.cfg) (hr : addrRefused s.cfg a = false) :
    writeByte a v s = .next (strobe { s with pins := s.pins.setDout v, sr := s.sr.holding a }) := by
  rw [writeByte_eq h hc hm hr, loaded_of_PSr hp]
  rfl

/-- The pins of WRITE mode with other data (10_state R38). -/
theorem State.LinesMatch.setDout_write {s : State} (h : s.LinesMatch) (hm : s.mode = .write) (v : Byte) :
    s.pins.setDout v = { ddir := .output, dout := v, ce := .asserted, oe := .deasserted, we := .deasserted } := by
  ext <;> simp [h.ddir, h.ce, h.oe, h.we, hm, Mode.ddir, Mode.ce, Mode.oe, Mode.we]

/-- Settles O15: with nothing pending the strobe starts a write cycle at the register's cell with the pins' byte. -/
theorem writeStartsAWriteCycle : Obligations.WriteStartsAWriteCycle := by
  intro a v s h hc hm hn hp hw hr
  rw [writeByte_of_PSr h hc hm hp hr,
    strobe_of_PWrite (s := { s with pins := s.pins.setDout v, sr := s.sr.holding a }) hn hw, h.setDout_write hm,
    ShiftReg.holding, hc.sr_eq]
  rfl

/-- Two writes read back: the second wins at a common cell. -/
theorem read_write_write {m : Memory} (h : Memory.wf m = true) (i j k : CellIndex) (b c : Byte) :
    Memory.read (Memory.write (Memory.write m i b) j c) k = if k = j then c else if k = i then b else Memory.read m k := by
  rw [read_write (write_wf h i b), read_write h]

/-- Settles O16: the strobe writes the pending cell, then the addressed one, each with a free value. -/
theorem strobeDuringAWriteCycleSpoilsBothCells : Obligations.StrobeDuringAWriteCycleSpoilsBothCells := by
  intro a v b i s h hc hm hq hp hr hw
  have key := fun k => read_write_write hw i (idx a) k (Config.freeByte s.draws) (Config.freeByte (s.draws + 1))
  refine ⟨_, writeByte_of_PSr h hc hm hp hr, ?_⟩
  rw [strobe_busy (s := { s with pins := s.pins.setDout v, sr := s.sr.holding a }) hq]
  refine ⟨rfl, write_wf (write_wf hw _ _) _ _, fun j hi ha => (key j).trans ?_, fun hi => (key i).trans ?_,
    (key (idx a)).trans (if_pos rfl)⟩
  · rw [if_neg ha, if_neg hi]
  · rw [if_neg hi, if_pos rfl]

/-- Settles O17: the scheduled move is the commit, and a write is read back at its own cell only. -/
theorem commitWritesThePendingCell : Obligations.CommitWritesThePendingCell := by
  intro i b ms s hs hq hw
  refine ⟨Memory.write s.mem i b, ?_, write_wf hw i b, fun j => read_write hw i j b⟩
  rw [step_cons hs]
  exact congrArg Host.Outcome.next (commit_some (s := { s with sched := ms }) hq)

/-- Bit 15 of an address does not reach the device (20_memory R62). -/
theorem idx_xor_bit15 (a : Addr) : idx (a ^^^ 0x8000) = idx a := by
  rw [idx, idx, BitVec.extractLsb'_xor, show BitVec.extractLsb' 0 15 (0x8000 : Addr) = 0 from rfl]
  exact BitVec.xor_zero

/-- Under REFUSE an access is refused exactly when bit 15 of its address is set (20_memory R62). -/
theorem addrRefused_iff (c : Config) (a : Addr) : addrRefused c a = true ↔ c.addr15 = .refuse ∧ 32768 ≤ a.toNat := by
  have hbit : a.getLsbD 15 = true ↔ 32768 ≤ a.toNat := by
    have hlt := a.isLt
    rw [BitVec.getLsbD, Nat.testBit_eq_decide_div_mod_eq, decide_eq_true_iff]
    omega
  rw [addrRefused]
  cases hm : c.addr15 with
  | alias15 => simp
  | refuse => simpa using hbit

/-- Under REFUSE a load is refused exactly when it would pass the end of the device (43_bulk R245). -/
theorem loadRefused_iff (c : Config) (a : Addr) : loadRefused c a = true ↔ c.addr15 = .refuse ∧ 32768 < a.toNat := by
  rw [loadRefused]
  cases hm : c.addr15 with
  | alias15 => simp
  | refuse => simp

/-- enterWrite ends in WRITE mode, from any levels (40 R136). -/
theorem toWrite_mode (s : State) : (toWrite s).mode = .write := by
  cases hm : s.mode with
  | standby => rw [toWrite, hm]; rfl
  | read => rw [toWrite, hm]; rfl
  | write => rw [toWrite, hm]; exact hm

theorem exec_read_refused_iff (a : Addr) (s : State) :
    exec (.read a) s = .refused .refusedAddr15 ↔ addrRefused s.cfg a = true := by
  rw [exec, execRead]
  split_ifs with h <;> simp [h]

theorem exec_write_refused_iff (a : Addr) (v : Byte) (s : State) :
    exec (.write a v) s = .refused .refusedAddr15 ↔ addrRefused s.cfg a = true := by
  rw [exec, execWrite]
  split_ifs with h
  · simp [h]
  · have hr : ¬ addrRefused (toWrite { s with opd := (s.opd.setA a).setV v }).cfg a = true := by
      rw [(toWrite_busOnly _).cfg]; exact h
    rw [writeByte, if_neg (not_not.2 (toWrite_mode _)), if_neg hr]
    simp [h]

theorem exec_load_refused_iff (a : Addr) (s : State) :
    exec (.load a) s = .refused .refusedAddr15 ↔ loadRefused s.cfg a = true := by
  rw [exec, execLoad]
  split_ifs with h <;> simp [h]

/-- Settles O27: idx drops bit 15, and each command's refusal is its test, which comes before any effect. -/
theorem address15AliasesOrIsRefused : Obligations.Address15AliasesOrIsRefused := by
  refine ⟨fun a => ⟨idx_toNat a, idx_xor_bit15 a⟩, fun a v s _ => ⟨?_, ?_, ?_⟩⟩
  · rw [exec_read_refused_iff, addrRefused_iff]
  · rw [exec_write_refused_iff, addrRefused_iff]
  · rw [exec_load_refused_iff, loadRefused_iff]

end Sys2Proof.Machine
end

section
/-! PROOFS. READ and WRITE (42_commands R213, R214; 20_memory R71, R78). -/

namespace Sys2Proof.Machine

/-- READ in the words of the statements: the closed form, with the register and the reply frame spelled out. -/
theorem execRead_spelled (a : Addr) {s : State} (h : s.LinesMatch) (hc : s.ClocksLow) (ha : addrRefused s.cfg a = false) :
    ∃ (b : Byte) (x y : Addr) (d : Nat),
      exec (.read a) s =
        .next { s with
          mode := .standby, cs := .report
          pins := { ddir := .input, dout := s.pins.dout, ce := .deasserted, oe := .deasserted, we := .deasserted }
          sr := { ser := a.getLsbD 0, srclk := false, rclk := false, oe := s.sr.oe, clr := s.sr.clr, shift := x, out := y }
          opd := { a := a, v := s.opd.v, sampled := b }
          txs := s.txs ++ [0x01, b]
          draws := d } ∧
      (PSr s.cfg → x = a ∧ y = a) ∧
      (PSr s.cfg → PReadSettle s.cfg → s.pend = none → b = Memory.read s.mem (idx a) ∧ d = s.draws) ∧
      (PSr s.cfg → s.pend ≠ none → b = Config.freeByte s.draws ∧ d = s.draws + 1) := by
  obtain ⟨b, x, y, d, e, h1, h2, h3⟩ := execRead_shape a ⟨h, hc⟩ ha
  refine ⟨b, x, y, d, ?_, h1, h2, h3⟩
  rw [e, hc.sr_eq]
  rfl

/-- Settles O19: under the premises the register holds the address and the sample is its cell. -/
theorem readRepliesWithTheCell : Obligations.ReadRepliesWithTheCell := by
  intro a s h hc hn hp hr ha
  obtain ⟨b, x, y, d, e, hsr, hcell, -⟩ := execRead_spelled a h hc ha
  obtain ⟨rfl, rfl⟩ := hsr hp
  obtain ⟨rfl, rfl⟩ := hcell hp hr hn
  exact e

/-- Settles O20: the closed form of READ needs no premise. -/
theorem readAlwaysCompletes : Obligations.ReadAlwaysCompletes := by
  intro a s h hc ha
  obtain ⟨b, x, y, d, e, hsr, -, -⟩ := execRead_spelled a h hc ha
  exact ⟨b, x, y, d, e, hsr⟩

/-- Settles O21: a device in its write cycle answers the sample with a free value. -/
theorem readDuringAWriteCycleIsAFreeValue : Obligations.ReadDuringAWriteCycleIsAFreeValue := by
  intro a s h hc hn hp ha
  obtain ⟨b, x, y, d, e, -, -, hfree⟩ := execRead_spelled a h hc ha
  obtain ⟨rfl, rfl⟩ := hfree hp hn
  exact ⟨_, e, rfl, rfl, rfl, rfl⟩

/-- WRITE whatever the premises: one strobe at the register's cell, around it the lines of WRITE, then STANDBY and the reply. -/
theorem execWrite_shape (a : Addr) (v : Byte) {s : State} (h : s.LinesMatch) (hc : s.ClocksLow)
    (ha : addrRefused s.cfg a = false) :
    ∃ q : State, q.mem = s.mem ∧ q.pend = s.pend ∧ q.cfg = s.cfg ∧ q.pins.dout = v ∧
      q.sr = { ser := a.getLsbD 0, srclk := false, rclk := false, oe := s.sr.oe, clr := s.sr.clr,
               shift := q.sr.shift, out := q.sr.out } ∧
      (PSr s.cfg → q.sr.shift = a ∧ q.sr.out = a ∧ q.draws = s.draws) ∧
      exec (.write a v) s =
        .next { s with
          mode := .standby, cs := .report
          pins := { ddir := .input, dout := v, ce := .deasserted, oe := .deasserted, we := .deasserted }
          sr := q.sr
          opd := { a := a, v := v, sampled := s.opd.sampled }
          pend := (strobe q).pend, mem := (strobe q).mem, draws := (strobe q).draws
          txs := s.txs ++ [0x00] } := by
  have e := execWrite_eq a v ⟨h, hc⟩ ha
  set w : State := ({ s with opd := (s.opd.setA a).setV v } : State).atMode .write with hw
  set q : State := { loaded a w with
    pins := { ddir := .output, dout := v, ce := .asserted, oe := .deasserted, we := .deasserted } } with hq
  have hqe : q = { s with
      mode := .write, opd := (s.opd.setA a).setV v, sr := q.sr, draws := q.draws
      pins := { ddir := .output, dout := v, ce := .asserted, oe := .deasserted, we := .deasserted } } := by
    rw [hq, loaded_eq, hw]; rfl
  refine ⟨q, by rw [hqe], by rw [hqe], by rw [hqe], by rw [hqe], ?_, fun hp => ?_, ?_⟩
  · have hwc : w.ClocksLow := ⟨hc.srclk, hc.rclk⟩
    by_cases hp : PSr s.cfg
    · rw [show q.sr = (loaded a w).sr from rfl, loaded, if_pos (show PSr w.cfg from hp)]
      exact hwc.sr_eq _ _ _
    · rw [show q.sr = (loaded a w).sr from rfl, loaded, if_neg (show ¬ PSr w.cfg from hp)]
      exact hwc.sr_eq _ _ _
  · rw [hq, loaded_of_PSr (show PSr w.cfg from hp)]
    exact ⟨rfl, rfl, rfl⟩
  · have key : ∀ t : State, t = { q with pend := t.pend, mem := t.mem, draws := t.draws } →
        t = { s with
          mode := .write, opd := (s.opd.setA a).setV v, sr := q.sr
          pins := { ddir := .output, dout := v, ce := .asserted, oe := .deasserted, we := .deasserted }
          pend := t.pend, mem := t.mem, draws := t.draws } := by
      intro t ht; rw [hqe] at ht; exact ht
    exact e.trans (congrArg
      (fun t => Host.Outcome.next { sendFrame [] (State.atMode .standby t) with cs := .report }) (key _ (strobe_eq q)))

/-- Settles O22: under the premises the strobe starts the write cycle of the address and the value. -/
theorem writeStrobesAndReplies : Obligations.WriteStrobesAndReplies := by
  intro a v s h hc hn hp hw ha
  obtain ⟨q, hmem, hpend, hcfg, hdout, hsr, hout, e⟩ := execWrite_shape a v h hc ha
  obtain ⟨hx, hy, hd⟩ := hout hp
  rw [e, strobe_of_PWrite (hpend.trans hn) (by rw [hcfg]; exact hw), hsr, hx, hy, hdout, hmem, hd]
  rfl

/-- Settles O23: the strobe starts a write cycle at the register's cell, or spoils that cell and the pending one. -/
theorem writeAlwaysCompletes : Obligations.WriteAlwaysCompletes := by
  intro a v s h hc ha hwf
  obtain ⟨q, hmem, hpend, -, -, hsr, hout, e⟩ := execWrite_shape a v h hc ha
  refine ⟨q.sr.shift, q.sr.out, (strobe q).draws, (strobe q).pend, (strobe q).mem, by rw [e, ← hsr],
    fun hp => ⟨(hout hp).1, (hout hp).2.1⟩, fun hn => ?_, fun i w hi => ?_⟩
  · obtain ⟨hm, w, hw, -⟩ := strobe_idle (hpend.trans hn)
    exact ⟨hm.trans hmem, w, hw⟩
  · have hq : q.pend = some (i, w) := hpend.trans hi
    refine ⟨by rw [strobe_busy hq], fun j hji hjy => ?_⟩
    rw [strobe_read (by rw [hmem]; exact hwf) hjy fun b hb => hji ?_, hmem]
    exact (congrArg Prod.fst (Option.some.inj (hb.symm.trans hq)))

/-- Settles O24: WRITE, the commit and READ in their closed forms, and a write read back. -/
theorem writeThenCommitThenReadReturnsTheValue : Obligations.WriteThenCommitThenReadReturnsTheValue := by
  intro a b v s h hc hn hp hw hr ha hb hwf
  obtain ⟨t, ht, e1⟩ : ∃ t, t = _ ∧ exec (.write a v) s = .next t :=
    ⟨_, rfl, writeStrobesAndReplies a v s h hc hn hp hw ha⟩
  have hcm : commit t = { t with mem := Memory.write s.mem (idx a) v, pend := none } := by
    rw [ht]; exact commit_some rfl
  have e2 := readRepliesWithTheCell b (commit t) (by rw [hcm, ht]; exact ⟨rfl, rfl, rfl, rfl⟩)
    (by rw [hcm, ht]; exact ⟨rfl, rfl⟩) (by rw [hcm]) (by rw [hcm, ht]; exact hp) (by rw [hcm, ht]; exact hr)
    (by rw [hcm, ht]; exact hb)
  refine ⟨t, _, e1, e2, ?_⟩
  rw [hcm, ht]
  change (s.txs ++ [0x00]) ++ [0x01, Memory.read (Memory.write s.mem (idx a) v) (idx b)] = _
  rw [List.append_assoc, read_write hwf]
  rfl

end Sys2Proof.Machine
end

section
/-! PROOFS. Raising an error, illegal lengths, bad replies, and the frames the block sends (41_transport R184-R189,
60_exceptions R274, R275). -/

namespace Sys2Proof.Machine

/-- Settles O30: the latch, and the cleanup in closed form. -/
theorem raiseLatchesCleansUpAndReports : Obligations.RaiseLatchesCleansUpAndReports :=
  fun e _ h => raiseErr_eq e h

theorem overlong_lengthOnly {s : State} (h : s.cfg.overlong = .lengthOnly) : overlong s = raiseErr .frameCorrupt s := by
  simp only [overlong, h]

theorem overlong_capacity {s : State} (h : s.cfg.overlong = .capacity) :
    overlong s = { s with cs := .payload s.cs.context 63 0 true } := by
  simp only [overlong, h]

theorem exec_illegalLen64 (n : Byte) (s : State) : exec (.illegalLen64 n) s = .next (overlong s) := rfl

theorem exec_illegalLen128 (n : Byte) (s : State) : exec (.illegalLen128 n) s = .next (overlong s) := rfl

/-- Settles O28: both rows are `overlong`, whose setting is the parameter OVERLONG_CONSUME. -/
theorem illegalLengthCompletes : Obligations.IllegalLengthCompletes := by
  refine fun n s => ⟨by rw [exec_illegalLen64, exec_illegalLen128], fun ho h => ?_, fun ho => ?_⟩
  · rw [exec_illegalLen64, overlong_lengthOnly ho, raiseErr_eq _ h]
    rfl
  · rw [exec_illegalLen64, overlong_capacity ho]

/-- Settles O35: in STANDBY the cleanup of a raise makes no event. -/
theorem badReplyAbortsTheDump : Obligations.BadReplyAbortsTheDump := by
  intro p s hm
  have hs : exec .resetSentinel s = .next (raiseErr .resetRequested s) := rfl
  have hu : exec (.ackwaitUnexpected p) s = .next (raiseErr .unexpectedFrame s) := rfl
  rw [hs, hu, raiseErr_standby _ hm, raiseErr_standby _ hm]
  exact ⟨rfl, rfl⟩

theorem frame_eq {p : List Byte} {n : Byte} (h : BitVec.ofNat 8 p.length = n) : frame p = n :: p := by rw [frame, h]

/-- Settles O39: each of the four rows appends its frame. -/
theorem sentFramesAreAppended : Obligations.SentFramesAreAppended := by
  refine fun v data s => ⟨rfl, rfl, fun h => ?_, fun h => ?_⟩
  · rw [← frame_eq (p := data) (n := 0x3F) (by rw [h]; rfl)]
    rfl
  · rw [← frame_eq (p := data) (n := 0x08) (by rw [h]; rfl)]
    rfl

end Sys2Proof.Machine
end

section
/-! PROOFS. Single steps: the wait, the receive, the timeout, the discard of an overlong frame (41_transport R180-R185). -/

namespace Sys2Proof.Machine

/-! What the block's move is, by the control state (00_scope R14). -/

theorem blockMove_boot_toByte {s : State} (h : s.cs = .boot) :
    blockMove .toByte s = proceed .toByte .modeSettle [] .boot (bootSequence s) := by rw [blockMove.eq_def, h]

theorem blockMove_boot_toWait {s : State} (h : s.cs = .boot) : blockMove .toWait s = .next (bootSequence s) := by
  rw [blockMove.eq_def, h]

theorem blockMove_delay (p : Pace) {t : DelayName} {rest : List Prim} {k : Task} {s : State} (h : s.cs = .delay t rest k) :
    blockMove p s = proceed p t rest k s := by rw [blockMove.eq_def, h]

theorem blockMove_empty (p : Pace) {c : RxContext} {n : Fin 64} {k : Nat} {d : Bool} {s : State}
    (h : s.cs = .len c ∨ s.cs = .payload c n k d) (hq : s.rxq = []) : blockMove p s = .next s := by
  rw [blockMove.eq_def]
  rcases h with h | h <;> simp only [h, hq]

theorem blockMove_len (p : Pace) {c : RxContext} {n : Byte} {q : List Byte} {s : State} (h : s.cs = .len c)
    (hq : s.rxq = n :: q) : blockMove p s = takeLength p c n { s with rxq := q } := by
  rw [blockMove.eq_def]; simp only [h, hq]

theorem blockMove_payload (p : Pace) {c : RxContext} {n : Fin 64} {k : Nat} {d : Bool} {b : Byte} {q : List Byte} {s : State}
    (h : s.cs = .payload c n k d) (hq : s.rxq = b :: q) :
    blockMove p s = takePayload p c n k d b { s with rxq := q } := by
  rw [blockMove.eq_def]; simp only [h, hq]

theorem blockMove_exec (p : Pace) {c : RxContext} {s : State} (h : s.cs = .exec c) :
    blockMove p s = perform p (classify c s.rxPayload) s := by rw [blockMove.eq_def, h]

theorem blockMove_report (p : Pace) {s : State} (h : s.cs = .report) : blockMove p s = .next (report s) := by
  rw [blockMove.eq_def, h]

/-- Settles O42: at rest a waiting block has its pending write committed, or moves nothing. -/
theorem blockWaitsOnAnEmptyQueue : Obligations.BlockWaitsOnAnEmptyQueue := by
  intro c n k d s hs hq hcs
  have hw : s.waiting = true := by rcases hcs with h | h <;> simp [State.waiting, hq, h]
  refine ⟨fun hn => ?_, fun i b hp => ?_⟩
  · rw [step_nil hs, restMove_block (.inr hn), blockMove_empty .toByte hcs hq]
  · rw [step_nil hs, restMove, if_pos (by rw [hw, hp]; rfl), commit_some hp]

theorem timeout_notWaiting (p : Pace) {s : State} (h : s.rxq ≠ []) : timeout p s = .next s := by
  have hw : s.waiting = false := by
    obtain ⟨b, q, hq⟩ := List.exists_cons_of_ne_nil h
    exact waiting_of_cons hq
  simp [timeout, hw]

theorem timeout_payload (p : Pace) {c : RxContext} {n : Fin 64} {k : Nat} {d : Bool} {s : State} (hq : s.rxq = [])
    (hc : s.cs = .payload c n k d) : timeout p s = raiseOn p .frameCorrupt s := by
  have hw : s.waiting = true := by simp [State.waiting, hq, hc]
  simp only [timeout, hw, hc, if_true]

theorem timeout_len (p : Pace) {c : RxContext} {s : State} (hq : s.rxq = []) (hc : s.cs = .len c) :
    (s.cfg.lenWait = .none → timeout p s = .next s) ∧
      (s.cfg.lenWait = .bounded → timeout p s = raiseOn p .frameCorrupt s) := by
  have hw : s.waiting = true := by simp [State.waiting, hq, hc]
  refine ⟨fun hl => ?_, fun hl => ?_⟩ <;> simp only [timeout, hw, hc, hl, if_true]

@[simp] theorem raiseErr_cs (e : Err) (s : State) : (raiseErr e s).cs = .report := rfl

theorem conclude_report {s : State} (h : s.cs = .report) : conclude s = report s := by simp only [conclude, h]

theorem conclude_self {s : State} (h : s.cs ≠ .report) : conclude s = s := by
  rcases conclude_cases s with ⟨h', -⟩ | ⟨-, e⟩
  · exact absurd h' h
  · exact e

/-- A raise at the pace of a wait for a byte is the latch, the cleanup and the report (60 R274, R275, R280). -/
theorem raiseOn_toByte (e : Err) (s : State) : raiseOn .toByte e s = .next (report (raiseErr e s)) := by
  rw [raiseOn, concluded_next, conclude_report (raiseErr_cs e s)]

/-- Settles O43: the scheduled move is `timeout`, told by the wait the block is in. -/
theorem timeoutIsFrameCorrupt : Obligations.TimeoutIsFrameCorrupt := by
  refine ⟨fun p c n k d ms s hs => ?_, raiseOn_toByte⟩
  have e : step s = timeout p { s with sched := ms } := step_cons hs
  rw [e]
  exact ⟨fun hq => timeout_notWaiting p hq, fun hq hc => timeout_payload p hq hc,
    fun hq hc => (timeout_len p (s := { s with sched := ms }) hq hc).1,
    fun hq hc => (timeout_len p (s := { s with sched := ms }) hq hc).2⟩

/-- A frame held in RXBUF or an illegal length at the head of RXQ: what decodes is what the step performs. -/
theorem decode_held {c : RxContext} {i : Instr} {rest : List Byte} {s : State}
    (h : decode (.rx c) (BitVec.ofNat 8 s.rx.len.val :: s.rxPayload) = .ok (i, rest)) :
    i = classify c s.rxPayload ∧ rest = [] := by
  have hl : s.rxPayload.length = s.rx.len.val := by
    rw [State.rxPayload, List.length_take, Vector.length_toList]; omega
  have hf : BitVec.ofNat 8 s.rx.len.val :: s.rxPayload = frame s.rxPayload ++ [] := by
    rw [List.append_nil, frame_eq (by rw [hl])]
  rw [hf, decode_rx_frame c (by omega)] at h
  obtain ⟨rfl, rfl⟩ := Prod.mk.inj (Except.ok.inj h)
  exact ⟨rfl, rfl⟩

theorem takeLength_illegal (p : Pace) (c : RxContext) {n : Byte} (h : 64 ≤ n.toNat) (s : State) :
    takeLength p c n s = perform p (classifyIllegal n) s := by rw [takeLength, dif_neg (by omega)]

/-- Settles O40: the block's move performs the classification that the decoder answers, at rest and when scheduled. -/
theorem stepRunsTheDecodedInstruction : Obligations.StepRunsTheDecodedInstruction := by
  refine ⟨fun c i rest s hc hd => ?_, fun c i n q s hc hq hn hd => ?_, fun t => ?_, concluded_fault, concluded_refused⟩
  · obtain ⟨rfl, rfl⟩ := decode_held hd
    exact ⟨rfl, fun hs => step_exec hs hc, fun ms hs => (step_cons hs).trans (blockMove_exec .toByte (by exact hc))⟩
  · have hi : classifyIllegal n = i := (Prod.mk.inj (Except.ok.inj ((decode_rx_illegal c hn q).symm.trans hd))).1
    subst hi
    exact ⟨fun hs => (step_len hs hc hq).trans (takeLength_illegal .toByte c hn _),
      fun ms hs => (step_cons hs).trans ((blockMove_len .toByte (by exact hc) (by exact hq)).trans
        (takeLength_illegal .toByte c hn _))⟩
  · by_cases h : t.cs = .report
    · rw [concluded_next, conclude_report h, if_pos h]
    · rw [concluded_next, conclude_self h, if_neg h]

/-- A payload byte that is not the frame's last is stored (41 R183). -/
theorem step_store {s : State} {c : RxContext} {n : Fin 64} {k : Nat} {b : Byte} {q : List Byte} (h : s.sched = [])
    (hc : s.cs = .payload c n k false) (hq : s.rxq = b :: q) (hk : k + 1 < n.val) :
    step s = .next { putRxbuf k b { s with rxq := q } with cs := .payload c n (k + 1) false } := by
  rw [step_payload h hc hq, takePayload, if_neg (by simp), if_neg (by omega)]

/-- The frame's last payload byte completes it, and the same step runs it (41 R183, 00_scope R14). -/
theorem step_last {s : State} {c : RxContext} {n : Fin 64} {k : Nat} {b : Byte} {q : List Byte} (h : s.sched = [])
    (hc : s.cs = .payload c n k false) (hq : s.rxq = b :: q) (hk : k + 1 = n.val) :
    step s = concluded (exec (classify c (frameDone c n k b { s with rxq := q }).rxPayload)
      (frameDone c n k b { s with rxq := q })) := by
  rw [step_payload h hc hq, takePayload, if_neg (by simp), if_pos (by omega)]
  rfl

/-- From a payload wait with the first bytes stored, the rest of the frame is received: one step for each byte but the last,
and the last byte's step runs the frame. -/
theorem run_payload (c : RxContext) (n : Fin 64) (rest : List Byte) : ∀ (q p : List Byte) (s : State), s.sched = [] →
    s.cs = .payload c n p.length false → s.rx.buf.toList.take p.length = p → q ≠ [] → p.length + q.length = n.val →
    s.rxq = q ++ rest →
    ∃ t u : State, Host.Core.run Sys2Proof.core (q.length - 1) s = .next t ∧
      step t = concluded (exec (classify c (p ++ q)) u) ∧
      u = { s with rx := u.rx, rxq := rest, cs := .exec c } ∧ u.rx.len = n ∧ u.rxPayload = p ++ q := by
  intro q
  induction q with
  | nil => intro _ _ _ _ _ h; exact absurd rfl h
  | cons b q ih =>
    intro p s hs hc hp _ hl hq
    have hn := n.isLt
    have hlen : p.length + (q.length + 1) = n.val := hl
    have hput : (s.rx.buf.setIfInBounds p.length b).toList.take (p.length + 1) = p ++ [b] := by
      rw [take_set_push _ _ (by omega), hp]
    rcases q with _ | ⟨b', q⟩
    · have hnp : n.val = p.length + 1 := hlen.symm
      have hpay : (frameDone c n p.length b { s with rxq := rest }).rxPayload = p ++ [b] := by
        show ((s.rx.buf.setIfInBounds p.length b).toList.take n.val) = _
        rw [hnp, hput]
      refine ⟨s, frameDone c n p.length b { s with rxq := rest }, rfl, ?_, rfl, rfl, hpay⟩
      rw [step_last (q := rest) hs hc hq hnp.symm, hpay]
    · set s1 : State := { putRxbuf p.length b { s with rxq := (b' :: q) ++ rest } with
        cs := .payload c n (p.length + 1) false } with hs1
      have hstep : step s = .next s1 := step_store hs hc hq (by simp only [List.length_cons] at hlen; omega)
      obtain ⟨t, u, hrun, hrest⟩ := ih (p ++ [b]) s1 hs (by rw [hs1, List.length_append]; rfl)
        (by rw [List.length_append]; exact hput) (by simp)
        (by rw [← hlen, List.length_append, List.length_singleton, Nat.add_assoc, Nat.add_comm 1]) rfl
      rw [List.append_assoc] at hrest
      exact ⟨t, u, (run_succ_of hstep).trans hrun, hrest⟩

theorem takeLength_zero (p : Pace) (c : RxContext) (s : State) :
    takeLength p c 0 s = perform p (classify c []) { s with rx := { buf := s.rx.buf, len := 0 }, cs := .exec c } := rfl

theorem takeLength_legal (p : Pace) (c : RxContext) {n : Byte} (h : n.toNat < 64) (h0 : n ≠ 0) (s : State) :
    takeLength p c n s = .next { s with cs := .payload c ⟨n.toNat, h⟩ 0 false } := by
  rw [takeLength, dif_pos h, if_neg h0]

/-- A whole frame at the head of RXQ is received in as many steps as it has payload bytes, and the next step runs it. -/
theorem run_receive (c : RxContext) {p rest : List Byte} {s : State} (hs : s.sched = []) (hc : s.cs = .len c)
    (hp : p.length ≤ 63) (hq : s.rxq = frame p ++ rest) :
    ∃ t u : State, Host.Core.run Sys2Proof.core p.length s = .next t ∧ step t = concluded (exec (classify c p) u) ∧
      u = { s with rx := u.rx, rxq := rest, cs := .exec c } ∧ u.rx.len.val = p.length ∧ u.rxPayload = p := by
  have hn := lengthByte_toNat hp
  rcases p with _ | ⟨b, p⟩
  · exact ⟨s, _, rfl, (step_len hs hc hq).trans (takeLength_zero .toByte c _), rfl, rfl, rfl⟩
  · have h64 : (BitVec.ofNat 8 (b :: p).length).toNat < 64 := by omega
    have hne : BitVec.ofNat 8 (b :: p).length ≠ 0 := by
      intro h0; rw [h0] at hn; simp at hn
    have hstep := (step_len hs hc hq).trans (takeLength_legal .toByte c h64 hne _)
    obtain ⟨t, u, hrun, hlast, hu, hlen, hpay⟩ := run_payload c ⟨_, h64⟩ rest (b :: p) []
      { s with rxq := (b :: p) ++ rest, cs := .payload c ⟨_, h64⟩ 0 false } hs rfl rfl (by simp)
      (by rw [List.length_nil, Nat.zero_add]; exact hn.symm) rfl
    exact ⟨t, u, (run_succ_of hstep).trans hrun, hlast, hu, by rw [hlen]; exact hn, hpay⟩

/-- Settles O41: the receive of a whole frame, with the decoder's answer for it. -/
theorem receiveTakesTheWholeFrame : Obligations.ReceiveTakesTheWholeFrame := by
  intro c p rest s hs hc hp hq
  obtain ⟨t, u, hrun, hstep, hu, hlen, hpay⟩ := run_receive c hs hc hp hq
  refine ⟨classify c p, t, u, ?_, hrun, hstep, hu, hlen, hpay⟩
  rw [← frame_eq (p := p) rfl, ← List.append_nil (frame p)]
  exact decode_rx_frame c hp []

/-- A byte that the discard wait throws away, and it waits for more (41 R184). -/
theorem step_discard {s : State} {c : RxContext} {n : Fin 64} {k : Nat} {b : Byte} {q : List Byte} (h : s.sched = [])
    (hc : s.cs = .payload c n k true) (hq : s.rxq = b :: q) (hk : k + 1 < n.val) :
    step s = .next { s with rxq := q, cs := .payload c n (k + 1) true } := by
  rw [step_payload h hc hq, takePayload, if_pos rfl, if_neg (by omega)]

/-- The last byte of the capacity raises FRAME_CORRUPT, and the same step reports it (41 R184). -/
theorem step_discardLast {s : State} {c : RxContext} {n : Fin 64} {k : Nat} {b : Byte} {q : List Byte} (h : s.sched = [])
    (hc : s.cs = .payload c n k true) (hq : s.rxq = b :: q) (hk : n.val ≤ k + 1) :
    step s = .next (report (raiseErr .frameCorrupt { s with rxq := q })) := by
  rw [step_payload h hc hq, takePayload, if_pos rfl, if_pos hk, raiseOn_toByte]

/-- Where a raise comes from, it does not matter (60 R274). -/
theorem raiseErr_withCs (e : Err) (c : CS) (s : State) : raiseErr e { s with cs := c } = raiseErr e s :=
  congrArg (fun t : State => { t with cs := .report }) (runPrims_withCs (enterStandby s.mode) c { s with err := e })

/-- The discard wait takes the bytes that are left of the capacity, one step each. -/
theorem run_discard (c : RxContext) (n : Fin 64) (rest : List Byte) : ∀ (bytes : List Byte) (m k : Nat) (s : State),
    bytes.length = m + 1 → s.sched = [] → s.cs = .payload c n k true → k + (m + 1) = n.val → s.rxq = bytes ++ rest →
    Host.Core.run Sys2Proof.core (m + 1) s = .next (report (raiseErr .frameCorrupt { s with rxq := rest })) := by
  intro bytes
  induction bytes with
  | nil => intro _ _ _ h; cases h
  | cons b bytes ih =>
    intro m k s hlen hs hc hl hq
    have hlen' : bytes.length = m := Nat.succ.inj hlen
    cases m with
    | zero =>
      rw [List.length_eq_zero_iff.1 hlen'] at hq
      rw [run_succ_of (step_discardLast (q := rest) hs hc hq (by omega)), run_zero]
    | succ m =>
      rw [run_succ_of (step_discard hs hc hq (by omega))]
      refine (ih m (k + 1) { s with rxq := bytes ++ rest, cs := .payload c n (k + 1) true } hlen' hs rfl (by omega)
        rfl).trans ?_
      exact congrArg (fun t => Host.Outcome.next (report t))
        (raiseErr_withCs .frameCorrupt (.payload c n (k + 1) true) { s with rxq := rest })

/-- An error raised and reported: one Indicate, ERR clear again, the bus in STANDBY (60 R274, R275, R280). -/
theorem report_raiseErr {e : Err} (he : e ≠ .ok) {s : State} (h : s.LinesMatch) :
    report (raiseErr e s) =
      { s.atMode .standby with
        err := .ok, cs := .len .idle, led := (Config.blinkPattern e.code).getLastD s.led
        indicated := s.indicated ++ [e] } := by
  rw [raiseErr_eq e h, report_eq]
  simp only [if_neg he]
  rfl

/-- An illegal length at rest under CAPACITY begins the discard wait (41 R184). -/
theorem step_overlong {s : State} {c : RxContext} {n : Byte} {q : List Byte} (hs : s.sched = []) (hc : s.cs = .len c)
    (hq : s.rxq = n :: q) (hn : 64 ≤ n.toNat) (ho : s.cfg.overlong = .capacity) :
    step s = .next { s with rxq := q, cs := .payload c 63 0 true } := by
  have he : perform .toByte (classifyIllegal n) { s with rxq := q } = .next (conclude (overlong { s with rxq := q })) := by
    rw [classifyIllegal]; split_ifs <;> rfl
  rw [step_len hs hc hq, takeLength_illegal .toByte c hn, he, overlong_capacity (s := { s with rxq := q }) ho,
    conclude_self (by simp)]
  simp only [hc, CS.context]

/-- Settles O29: one step into the discard wait, 63 steps through it, and the raise with its report in closed form. -/
theorem capacityDiscardsSixtyThreeBytes : Obligations.CapacityDiscardsSixtyThreeBytes := by
  intro c n bytes rest s h ho hs hc hn hl hq
  have hstep := step_overlong hs hc hq hn ho
  have hrun := run_discard c 63 rest bytes 62 0 { s with rxq := bytes ++ rest, cs := .payload c 63 0 true } hl hs rfl rfl rfl
  exact ⟨hstep, _, ((run_succ_of hstep).trans hrun).trans
    (congrArg Host.Outcome.next (report_raiseErr (by decide) ⟨h.ddir, h.ce, h.oe, h.we⟩))⟩

end Sys2Proof.Machine
end

section
/-! PROOFS. What a step can do at most: the parameters, the byte streams, the canonical form of MEM (00_scope R4, 10_state R43,
R44, 20_memory R61). -/

namespace Sys2Proof.Machine

/-- What any step but a loss of power does at most. -/
structure Stepped (s t : State) : Prop where
  cfg : t.cfg = s.cfg
  rxq : (∃ bytes : List Byte, t.rxq = s.rxq ++ bytes) ∨ ∃ b : Byte, s.rxq = b :: t.rxq
  txs : ∃ sent : List Byte, t.txs = s.txs ++ sent
  mem : Memory.wf s.mem = true → Memory.wf t.mem = true

theorem Passed.stepped {s t : State} (h : Passed s t) : Stepped s t :=
  ⟨h.cfg, .inl ⟨[], by rw [h.rxq, List.append_nil]⟩, h.txs, h.mem⟩

/-- The block's move takes at most one byte, from the head of RXQ. -/
theorem blockMove_stepped {p : Pace} {s t : State} (h : blockMove p s = .next t) : Stepped s t := by
  rcases blockMove_passes p s with k | ⟨b, q, hq, k⟩
  · exact (k t h).stepped
  · obtain ⟨hcfg, hrxq, -, htxs, hmem, -, -⟩ := k t h
    exact ⟨hcfg, .inr ⟨b, by rw [hq, hrxq]⟩, htxs, hmem⟩

theorem restMove_stepped {s t : State} (h : restMove s = .next t) : Stepped s t := by
  rw [restMove] at h
  split_ifs at h
  · rw [← Host.Outcome.next.inj h]
    exact (commit_ran s).passed.stepped
  · exact blockMove_stepped h

theorem runMove_stepped {m : Move} {s t : State} (hm : m ≠ .powerCycle) (h : runMove m s = .next t) : Stepped s t := by
  cases m with
  | block p => exact blockMove_stepped h
  | hostSend bytes =>
    rw [← Host.Outcome.next.inj h]
    exact ⟨rfl, .inl ⟨bytes, rfl⟩, ⟨[], (List.append_nil _).symm⟩, id⟩
  | deviceCommit =>
    rw [← Host.Outcome.next.inj h]
    exact (commit_ran s).passed.stepped
  | rxTimeout p => exact (timeout_passes p s t h).stepped
  | powerCycle => exact absurd rfl hm

/-- A step is a loss of power, or it only takes or appends bytes and keeps the parameters and the canonical form. -/
theorem step_cases {s t : State} (h : step s = .next t) :
    (∃ ms, s.sched = .powerCycle :: ms ∧ t = powerCycle { s with sched := ms }) ∨ Stepped s t := by
  cases hs : s.sched with
  | nil => exact .inr (restMove_stepped ((step_nil hs).symm.trans h))
  | cons m ms =>
    rw [step_cons hs] at h
    by_cases hm : m = .powerCycle
    · subst hm
      exact .inl ⟨ms, rfl, (Host.Outcome.next.inj h).symm⟩
    · obtain ⟨hcfg, hrxq, htxs, hmem⟩ := runMove_stepped hm h
      exact .inr ⟨hcfg, hrxq, htxs, hmem⟩

theorem step_stepped {s t : State} (h : step s = .next t) (hp : ∀ ms, s.sched ≠ .powerCycle :: ms) : Stepped s t := by
  rcases step_cases h with ⟨ms, hs, -⟩ | k
  · exact absurd hs (hp ms)
  · exact k

theorem powerCycle_idle {s : State} (h : s.pend = none) :
    powerCycle s =
      { State.reset with cfg := s.cfg, sr := s.sr.atReset, mem := s.mem, draws := s.draws, sched := s.sched } := by
  simp only [powerCycle, h]

theorem powerCycle_busy {s : State} {i : CellIndex} {b : Byte} (h : s.pend = some (i, b)) :
    powerCycle s =
      { State.reset with
        cfg := s.cfg, sr := s.sr.atReset, mem := Memory.write s.mem i (Config.freeByte s.draws), draws := s.draws + 1
        sched := s.sched } := by
  simp only [powerCycle, h]

theorem powerCycle_cfg (s : State) : (powerCycle s).cfg = s.cfg := by rw [powerCycle]; split <;> rfl

/-- Settles O18: a loss of power writes at most one cell; every other step is `Stepped`. -/
theorem stepKeepsMemoryCanonical : Obligations.StepKeepsMemoryCanonical := by
  intro s t hw h
  rcases step_cases h with ⟨ms, -, rfl⟩ | k
  · exact powerCycle_wf hw
  · exact k.mem hw

/-- Settles O44: the host's move appends, and every other move leaves RXQ or takes its head. -/
theorem receiveQueueIsFifo : Obligations.ReceiveQueueIsFifo :=
  ⟨fun _ _ _ hs => step_cons hs, fun _ _ h hp => (step_stepped h hp).rxq⟩

/-- Settles O45: no move but the loss of power takes a byte back. -/
theorem transmitStreamIsAppendOnly : Obligations.TransmitStreamIsAppendOnly :=
  fun _ _ h hp => (step_stepped h hp).txs

/-- Settles O46: the loss of power keeps the parameters too. -/
theorem stepKeepsTheParameters : Obligations.StepKeepsTheParameters := by
  intro s t h
  rcases step_cases h with ⟨ms, -, rfl⟩ | k
  · exact powerCycle_cfg _
  · exact k.cfg

/-- Settles O51: a loss of power in its two cases, a write cycle pending or not. -/
theorem powerLossKeepsTheOtherCells : Obligations.PowerLossKeepsTheOtherCells := by
  intro ms s hs hw
  have e : step s = .next (powerCycle { s with sched := ms }) := step_cons hs
  cases hp : s.pend with
  | none =>
    rw [powerCycle_idle (s := { s with sched := ms }) hp] at e
    exact ⟨_, e, rfl, rfl, rfl, rfl, fun _ => rfl, fun i j b h => by cases h⟩
  | some q =>
    obtain ⟨i, b⟩ := q
    rw [powerCycle_busy (s := { s with sched := ms }) hp] at e
    refine ⟨_, e, rfl, rfl, rfl, rfl, fun h => (by cases h), fun i' j b' h => ?_⟩
    cases h
    exact read_write hw i j (Config.freeByte s.draws)

end Sys2Proof.Machine
end

section
/-! PROOFS. Who touches the device: a stretch of events in which WE is never asserted leaves MEM and PEND alone (20_memory R75). -/

namespace Sys2Proof.Machine

/-- MEM and the pending write are as before, and WE is deasserted again. -/
structure DeviceKept (s t : State) : Prop where
  we : t.pins.we = .deasserted
  mem : t.mem = s.mem
  pend : t.pend = s.pend

theorem DeviceKept.refl {s : State} (h : s.pins.we = .deasserted) : DeviceKept s s := ⟨h, rfl, rfl⟩

theorem DeviceKept.trans {s t u : State} (h : DeviceKept s t) (k : DeviceKept t u) : DeviceKept s u :=
  ⟨k.we, k.mem.trans h.mem, k.pend.trans h.pend⟩

theorem readByte_kept (a : Addr) {s : State} (h : s.pins.we = .deasserted) : DeviceKept s (readByte a s) := by
  obtain ⟨hw, hm, hp⟩ := readByte_device a h
  exact ⟨hw, hm, hp⟩

theorem toStandby_kept {s : State} (h : s.pins.we = .deasserted) : DeviceKept s (toStandby s) := by
  obtain ⟨hw, hm, hp⟩ := toStandby_device h
  exact ⟨hw, hm, hp⟩

theorem toWrite_kept {s : State} (h : s.pins.we = .deasserted) : DeviceKept s (toWrite s) := by
  obtain ⟨hw, hm, hp⟩ := toWrite_device h
  exact ⟨hw, hm, hp⟩

theorem raiseErr_kept (e : Err) {s : State} (h : s.pins.we = .deasserted) : DeviceKept s (raiseErr e s) := by
  obtain ⟨hw, hm, hp⟩ := toStandby_kept (s := { s with err := e }) h
  exact ⟨hw, hm, hp⟩

theorem overlong_kept {s : State} (h : s.pins.we = .deasserted) : DeviceKept s (overlong s) := by
  cases ho : s.cfg.overlong with
  | lengthOnly => rw [overlong_lengthOnly ho]; exact raiseErr_kept _ h
  | capacity => rw [overlong_capacity ho]; exact ⟨h, rfl, rfl⟩

theorem dumpTail_kept {s : State} (h : s.pins.we = .deasserted) : DeviceKept s (dumpTail s) := by
  rw [dumpTail]; split <;> exact ⟨h, rfl, rfl⟩

theorem dumpRead_kept {s : State} (h : s.pins.we = .deasserted) : DeviceKept s (dumpRead s) := by
  obtain ⟨hw, hm, hp⟩ := readByte_kept s.dump.daddr h
  exact ⟨hw, hm, hp⟩

theorem dumpLoop_kept (fuel : Nat) {s : State} (h : s.pins.we = .deasserted) : DeviceKept s (dumpLoop fuel s) := by
  induction fuel generalizing s with
  | zero => exact .refl h
  | succ fuel ih =>
    have k := dumpRead_kept h
    rw [dumpLoop]
    split
    · exact dumpTail_kept h
    · show DeviceKept s (if (dumpRead s).dump.chlen = maxPayload then _ else _)
      split
      · exact k.trans ⟨k.we, rfl, rfl⟩
      · have hn : DeviceKept s (nextAddress (dumpRead s)) := ⟨k.we, k.mem, k.pend⟩
        exact hn.trans (ih hn.we)

theorem loadContinue_kept {s : State} (h : s.pins.we = .deasserted) : DeviceKept s (loadContinue s) := by
  rw [loadContinue]
  split
  · exact ⟨h, rfl, rfl⟩
  · obtain ⟨hw, hm, hp⟩ := toStandby_kept h
    exact ⟨hw, hm, hp⟩

/-- Settles O47: by the instruction; only the excluded two run a program strobe. -/
theorem onlyWriteAndLoadChunkTouchTheDevice : Obligations.OnlyWriteAndLoadChunkTouchTheDevice := by
  intro i s t hl h hnw hnc
  have hwe := hl.we_deasserted
  suffices k : DeviceKept s t from ⟨k.mem, k.pend⟩
  cases i with
  | read a =>
    rw [exec, execRead] at h
    split_ifs at h
    rw [← Host.Outcome.next.inj h]
    obtain ⟨hw, hm, hp⟩ := readByte_kept a (s := { s with opd := s.opd.setA a }) hwe
    exact ⟨hw, hm, hp⟩
  | write a v => exact absurd rfl (hnw a v)
  | dump => rw [← Host.Outcome.next.inj h]; exact DeviceKept.trans (t := firstChunk s) ⟨hwe, rfl, rfl⟩ (dumpLoop_kept _ hwe)
  | load total =>
    rw [exec, execLoad] at h
    split_ifs at h
    rw [← Host.Outcome.next.inj h]
    have k := toWrite_kept (s := sendFrame [] (setTotal total s)) hwe
    obtain ⟨hw, hm, hp⟩ := loadContinue_kept (s := openLoad (toWrite (sendFrame [] (setTotal total s)))) k.we
    exact ⟨hw, hm.trans k.mem, hp.trans k.pend⟩
  | reset => rw [← Host.Outcome.next.inj h]; exact ⟨hwe, rfl, rfl⟩
  | unknown p => rw [← Host.Outcome.next.inj h]; exact raiseErr_kept _ hwe
  | illegalLen64 n => rw [← Host.Outcome.next.inj h]; exact overlong_kept hwe
  | illegalLen128 n => rw [← Host.Outcome.next.inj h]; exact overlong_kept hwe
  | ack =>
    rw [← Host.Outcome.next.inj h]
    split
    · exact DeviceKept.trans (t := nextChunk s) ⟨hwe, rfl, rfl⟩ (dumpLoop_kept _ hwe)
    · exact ⟨hwe, rfl, rfl⟩
  | resetSentinel => rw [← Host.Outcome.next.inj h]; exact raiseErr_kept _ hwe
  | ackwaitUnexpected p => rw [← Host.Outcome.next.inj h]; exact raiseErr_kept _ hwe
  | loadChunk data => exact absurd rfl (hnc data)
  | readReply v => rw [← Host.Outcome.next.inj h]; exact ⟨hwe, rfl, rfl⟩
  | ackOut => rw [← Host.Outcome.next.inj h]; exact ⟨hwe, rfl, rfl⟩
  | dumpChunk data => rw [← Host.Outcome.next.inj h]; exact ⟨hwe, rfl, rfl⟩
  | dumpLast data => rw [← Host.Outcome.next.inj h]; exact ⟨hwe, rfl, rfl⟩

end Sys2Proof.Machine
end

section
/-! PROOFS. The bulk transfers, one instruction at a time (43_bulk R240-R246). -/

namespace Sys2Proof.Machine

theorem State.Settled.firstChunk {s : State} (h : s.Settled) : (firstChunk s).Settled :=
  settled_of_eq h rfl rfl rfl rfl rfl rfl rfl

theorem State.Settled.nextChunk {s : State} (h : s.Settled) : (nextChunk s).Settled :=
  settled_of_eq h rfl rfl rfl rfl rfl rfl rfl

/-- The pins of STANDBY (10_state R38). -/
theorem pins_of_standby {s : State} (h : s.LinesMatch) (hm : s.mode = .standby) :
    s.pins = { ddir := .input, dout := s.pins.dout, ce := .deasserted, oe := .deasserted, we := .deasserted } := by
  ext <;> simp [h.ddir, h.ce, h.oe, h.we, hm, Mode.ddir, Mode.ce, Mode.oe, Mode.we]

theorem chunkFrame_full (m : Memory) {k : Nat} (h : k < 520) : chunkFrame m k = frame (Memory.slice m (63 * k) 63) := by
  rw [chunkFrame, if_pos h, frame, slice_length]
  rfl

theorem chunkFrame_last (m : Memory) : chunkFrame m 520 = frame (Memory.slice m 32760 8) := by
  rw [chunkFrame, if_neg (lt_irrefl _), frame, slice_length]
  rfl

/-- A stretch of dump() that starts with an empty chunk at the first address of chunk `k` of 521, with a device that answers:
it sends that chunk and rests at its last address (43 R240, R241). -/
theorem DumpRun.chunk {s t : State} (r : DumpRun s t) (hc : s.ClocksLow) {k : Nat} (hk : k ≤ 520)
    (hl : s.dump.chlen = 0) (ha : s.dump.daddr.toNat = 63 * k) (hn : s.pend = none) (hp : PSr s.cfg)
    (hr : PReadSettle s.cfg) :
    ∃ last : Addr,
      t = { s with
        mode := .standby, cs := .len .ackWait
        pins := { ddir := .input, dout := s.pins.dout, ce := .deasserted, oe := .deasserted, we := .deasserted }
        sr := { ser := last.getLsbD 0, srclk := false, rclk := false, oe := s.sr.oe, clr := s.sr.clr, shift := last, out := last }
        opd := { a := s.opd.a, v := s.opd.v, sampled := Memory.at s.mem last.toNat }
        dump := t.dump
        txs := s.txs ++ chunkFrame s.mem k } ∧
      t.chunkBytes = Memory.slice s.mem (63 * k) t.dump.chlen ∧
      (k < 520 → last.toNat = 63 * k + 62 ∧ t.dump.daddr = last ∧ t.dump.chlen = 63) ∧
      (k = 520 → last.toNat = 32767 ∧ t.dump.daddr.toNat = 32768 ∧ t.dump.chlen = 8) := by
  have h0 : s.chunkBytes = [] := by rw [State.chunkBytes, hl, List.take_zero]
  have close : ∀ {last : Addr}, t.cs = .len .ackWait → t.mode = .standby → t.draws = s.draws →
      t.sr = ((s.sr.setSer (last.getLsbD 0)).setShift last).setOut last →
      t.opd.sampled = Memory.at s.mem last.toNat → t.txs = s.txs ++ chunkFrame s.mem k →
      t = { s with
        mode := .standby, cs := .len .ackWait
        pins := { ddir := .input, dout := s.pins.dout, ce := .deasserted, oe := .deasserted, we := .deasserted }
        sr := { ser := last.getLsbD 0, srclk := false, rclk := false, oe := s.sr.oe, clr := s.sr.clr, shift := last, out := last }
        opd := { a := s.opd.a, v := s.opd.v, sampled := Memory.at s.mem last.toNat }
        dump := t.dump
        txs := s.txs ++ chunkFrame s.mem k } := by
    intro last h1 h2 h3 h4 h5 h6
    have hpins := pins_of_standby r.lines h2
    rw [r.dout] at hpins
    refine r.eq.trans ?_
    rw [h1, h2, h3, h4, h5, h6, hpins, hc.sr_eq]
  rcases Nat.lt_or_ge k 520 with h | h
  · obtain ⟨hcs, hm, hlen, haddr, hdata⟩ := r.full (by rw [ha, hl]; omega)
    obtain ⟨hd, hs, hsr, hbytes, htxs⟩ := hdata hp hr hn
    rw [h0, hl, ha, List.nil_append, Nat.sub_zero] at hbytes
    rw [hl, ha, Nat.add_zero] at haddr
    exact ⟨t.dump.daddr, close hcs hm hd hsr hs (by rw [htxs, hbytes, chunkFrame_full _ h]), by rw [hbytes, hlen],
      fun _ => ⟨haddr, rfl, hlen⟩, fun e => absurd h (by omega)⟩
  · obtain rfl : k = 520 := le_antisymm hk h
    obtain ⟨haddr, hlen, hm, hsr, hcs, hs, hdata⟩ := r.final (by omega) (by rw [ha, hl]; omega)
    have hlt : s.dump.daddr.toNat < 32768 := by omega
    have h8 : t.dump.chlen = 8 := by omega
    obtain ⟨hd, hbytes, htxs⟩ := hdata hp hr hn (by omega)
    rw [h0, ha, List.nil_append] at hbytes
    refine ⟨32767, close (hcs (by omega)) (hm hlt) hd (hsr hp hlt) (hs hp hr hn hlt) ?_, by rw [hbytes, h8],
      fun e => absurd e (by omega), fun _ => ⟨rfl, haddr, h8⟩⟩
    rw [htxs, hbytes, chunkFrame_last]

theorem exec_dump (s : State) : exec .dump s = .next (dumpLoop (maxPayload + 1) (firstChunk s)) := rfl

theorem exec_ack_full {s : State} (h : s.dump.chlen = 63) :
    exec .ack s = .next (dumpLoop (maxPayload + 1) (nextChunk s)) := by rw [exec, execAck, if_pos h]

/-- Settles O32: chunk 0 of the stretch that DUMP begins. -/
theorem dumpSendsTheFirstChunk : Obligations.DumpSendsTheFirstChunk := by
  intro s h hc hn hp hr
  refine ⟨_, exec_dump s, ?_⟩
  have r := execDump_run ⟨h, hc⟩ (exec_dump s)
  generalize dumpLoop (maxPayload + 1) (firstChunk s) = t at r ⊢
  obtain ⟨last, ht, hbytes, hfull, -⟩ := r.chunk (State.Settled.firstChunk ⟨h, hc⟩).clocks (Nat.zero_le 520) rfl rfl hn hp hr
  obtain ⟨hlast, haddr, hlen⟩ := hfull (by decide)
  obtain rfl : last = 62 := BitVec.eq_of_toNat_eq hlast
  refine ⟨ht.trans ?_, by rw [hbytes, hlen]; rfl⟩
  rw [show t.dump = { chunk := t.dump.chunk, chlen := 63, daddr := 62 } by rw [← hlen, ← haddr]]
  rfl

/-- Settles O33: chunk k + 1 of the stretch that the ack goes on with; after the final chunk there is none. -/
theorem ackContinuesOrEndsTheDump : Obligations.AckContinuesOrEndsTheDump := by
  refine ⟨fun k s h hc hn hp hr hk hl ha => ?_, fun s hl => execAck_end (by omega)⟩
  have e := exec_ack_full hl
  have r := execAck_run ⟨h, hc⟩ hl e
  generalize dumpLoop (maxPayload + 1) (nextChunk s) = t at r e
  have hlt : s.dump.daddr.toNat < memSize := by simp only [memSize]; omega
  obtain ⟨last, ht, hbytes, hfull, hfinal⟩ := r.chunk (k := k + 1) (State.Settled.nextChunk ⟨h, hc⟩).clocks (by omega) rfl
    ((addr_succ hlt).trans (by omega)) hn hp hr
  refine ⟨t, last, e, ht, hbytes, fun hk' => ?_, fun hk' => hfinal (by omega)⟩
  obtain ⟨h1, h2, h3⟩ := hfull (by omega)
  exact ⟨h1, by rw [h2, h1], h3⟩

/-- Settles O34: the frame of a stretch of dump(), which needs no premise; an ack with no full chunk just ends. -/
theorem dumpAndAckAlwaysComplete : Obligations.DumpAndAckAlwaysComplete := by
  have run : ∀ {s u t : State}, DumpRun u t → u = { s with dump := u.dump } → ∃ sent : List Byte,
      t = { s with cs := t.cs, mode := t.mode, pins := t.pins, sr := t.sr, dump := t.dump
                   opd := { a := s.opd.a, v := s.opd.v, sampled := t.opd.sampled }
                   draws := t.draws, txs := s.txs ++ sent } ∧
      t.LinesMatch ∧ t.ClocksLow ∧ t.sr.oe = s.sr.oe ∧ t.sr.clr = s.sr.clr ∧ t.pins.dout = s.pins.dout ∧
      (t.cs = .len .ackWait ∨ t.cs = .report) := by
    intro s u t r hu
    obtain ⟨sent, hsent⟩ := r.sent
    have e := r.eq
    have o := r.optional
    have d := r.dout
    rw [hu] at hsent e o d
    exact ⟨sent, by rw [← hsent]; exact e, r.lines, r.clocks, o.1, o.2, d, r.cs⟩
  rintro i s (rfl | rfl) h hc
  · obtain ⟨sent, k⟩ := run (s := s) (execDump_run ⟨h, hc⟩ (exec_dump s)) rfl
    exact ⟨_, sent, exec_dump s, k⟩
  · by_cases hl : s.dump.chlen = 63
    · obtain ⟨sent, k⟩ := run (s := s) (execAck_run ⟨h, hc⟩ hl (exec_ack_full hl)) rfl
      exact ⟨_, sent, exec_ack_full hl, k⟩
    · exact ⟨_, [], execAck_end hl, by rw [List.append_nil], ⟨h.ddir, h.ce, h.oe, h.we⟩, ⟨hc.srclk, hc.rclk⟩, rfl, rfl,
        rfl, .inr rfl⟩

/-- LOAD whatever the clocks: it only enters a mode (42 R216, 43 R243, R246). -/
theorem execLoad_cases (total : Addr) {s : State} (h : s.LinesMatch) (hr : loadRefused s.cfg total = false) :
    (0 < total.toNat ∧ exec (.load total) s =
      .next { s.atMode .write with
        cs := .len .load, load := { laddr := 0, ltotal := total, ldone := 0 }, txs := s.txs ++ [0x00] }) ∨
    (total = 0 ∧ exec (.load total) s =
      .next { s.atMode .standby with
        cs := .report, load := { laddr := 0, ltotal := total, ldone := 0 }, txs := s.txs ++ [0x00] }) := by
  have hl : (sendFrame [] (setTotal total s)).LinesMatch := ⟨h.ddir, h.ce, h.oe, h.we⟩
  rw [exec, execLoad, if_neg (by simp [hr]), toWrite_eq hl]
  rcases Nat.eq_zero_or_pos total.toNat with h0 | h0
  · refine .inr ⟨BitVec.eq_of_toNat_eq h0, ?_⟩
    rw [loadContinue, if_neg (by rw [openLoad_load]; exact (by omega : ¬ 0 < total.toNat)),
      toStandby_eq ⟨rfl, rfl, rfl, rfl⟩]
    rfl
  · refine .inl ⟨h0, ?_⟩
    rw [loadContinue, if_pos (by exact h0)]
    rfl

/-- Settles O36: the first loop test of load() decides. -/
theorem loadAcksAndEntersWrite : Obligations.LoadAcksAndEntersWrite := by
  intro total s h hr
  rcases execLoad_cases total h hr with ⟨h0, e⟩ | ⟨h0, e⟩
  · exact ⟨fun _ => e, fun hz => absurd h0 (by rw [hz]; decide)⟩
  · subst h0
    exact ⟨fun hne => absurd rfl hne, fun _ => e⟩

/-- Where a chunk's program loop leads: the wait for the next chunk, or STANDBY and the report (43 R243). -/
theorem loadContinue_cases {s : State} (h : s.LinesMatch) :
    (s.load.ldone.toNat < s.load.ltotal.toNat ∧ loadContinue s = { s with cs := .len .load }) ∨
      (s.load.ltotal.toNat ≤ s.load.ldone.toNat ∧ loadContinue s = { s.atMode .standby with cs := .report }) := by
  rcases Nat.lt_or_ge s.load.ldone.toNat s.load.ltotal.toNat with hlt | hge
  · exact .inl ⟨hlt, if_pos hlt⟩
  · exact .inr ⟨hge, by rw [loadContinue, if_neg (by omega), toStandby_eq h]⟩

/-- The bytes of a chunk that LOAD takes: those still to come (43 R244). -/
def taken (data : List Byte) (s : State) : Nat := min data.length (s.load.ltotal.toNat - s.load.ldone.toNat)

/-- A LOAD chunk is the ack, the program loop, and the loop test (43 R243, R244). -/
theorem execLoadChunk_run (data : List Byte) {s : State} (h : s.Settled) (hm : s.mode = .write) (hp : s.LoadProgress) :
    ∃ u : State, ProgramRun data (taken data s) (txByte 0x00 s) u ∧ u.LinesMatch ∧ u.mode = .write ∧
      u.load.ldone.toNat = s.load.ldone.toNat + taken data s ∧ u.load.ltotal = s.load.ltotal ∧
      exec (.loadChunk data) s = .next (loadContinue u) := by
  obtain ⟨hlt, haddr, hr⟩ := hp
  have hl : (txByte 0x00 s).LinesMatch := ⟨h.lines.ddir, h.lines.ce, h.lines.oe, h.lines.we⟩
  obtain ⟨u, e, r⟩ := programRun_bytes data (txByte 0x00 s) hl ⟨h.clocks.srclk, h.clocks.rclk⟩ hm haddr (le_of_lt hlt) hr
  have hload : u.load = { laddr := s.load.laddr + BitVec.ofNat 16 (taken data s), ltotal := s.load.ltotal
                          ldone := s.load.ldone + BitVec.ofNat 32 (taken data s) } := by rw [r.eq]; rfl
  have hlines : u.LinesMatch := by rw [r.eq]; exact ⟨hl.ddir, hl.ce, hl.oe, hl.we⟩
  have hbound := s.load.ltotal.isLt
  have ht : taken data s ≤ s.load.ltotal.toNat - s.load.ldone.toNat := Nat.min_le_right _ _
  refine ⟨u, r, hlines, by rw [r.eq]; exact hm, ?_, by rw [hload], ?_⟩
  · rw [hload]; exact done_add_toNat (by omega)
  · show andThen (programBytes data (txByte 0x00 s)) _ = _
    rw [e, andThen_next]

/-- A LOAD chunk whatever the premises: what it leaves, its frame, and the program loop it ran (43 R243, R244). -/
theorem execLoadChunk_shape (data : List Byte) {s : State} (h : s.Settled) (hm : s.mode = .write) (hp : s.LoadProgress) :
    ∃ u t : State, ProgramRun data (taken data s) (txByte 0x00 s) u ∧ exec (.loadChunk data) s = .next t ∧
      t = { s with
        mode := t.mode, cs := t.cs, sr := u.sr
        pins := { ddir := t.pins.ddir, dout := (data.take (taken data s)).getLastD s.pins.dout, ce := t.pins.ce,
                  oe := t.pins.oe, we := t.pins.we }
        load := { laddr := s.load.laddr + BitVec.ofNat 16 (taken data s), ltotal := s.load.ltotal
                  ldone := s.load.ldone + BitVec.ofNat 32 (taken data s) }
        mem := u.mem, pend := u.pend, draws := u.draws
        txs := s.txs ++ [0x00] } ∧
      t.LinesMatch ∧ t.ClocksLow ∧
      (s.load.ldone.toNat + taken data s < s.load.ltotal.toNat → t.cs = .len .load ∧ t.mode = .write) ∧
      (s.load.ldone.toNat + taken data s = s.load.ltotal.toNat → t.cs = .report ∧ t.mode = .standby) := by
  obtain ⟨u, r, hl, hum, hdone, htotal, e⟩ := execLoadChunk_run data h hm hp
  have hu := r.eq
  rw [r.dout] at hu
  have hc := r.clocks
  have hcases := loadContinue_cases hl
  rw [htotal, hdone] at hcases
  rcases hcases with ⟨hlt, ec⟩ | ⟨hge, ec⟩
  · rw [ec] at e
    refine ⟨u, _, r, e, ?_, ⟨hl.ddir, hl.ce, hl.oe, hl.we⟩, ⟨hc.srclk, hc.rclk⟩, fun _ => ⟨rfl, hum⟩, fun h => by omega⟩
    rw [hu]; rfl
  · rw [ec] at e
    refine ⟨u, _, r, e, ?_, ⟨rfl, rfl, rfl, rfl⟩, ⟨hc.srclk, hc.rclk⟩, fun h => by omega, fun _ => ⟨rfl, rfl⟩⟩
    rw [hu]; rfl

/-- Settles O37: under the premises each turn of the program loop writes its cell and commits it. -/
theorem loadChunkProgramsItsBytes : Obligations.LoadChunkProgramsItsBytes := by
  intro data s h hc hm hn hp hw hpc hlp _ n last
  obtain ⟨u, t, r, e, ht, hl, -, hgo, hend⟩ := execLoadChunk_shape data ⟨h, hc⟩ hm hlp
  obtain ⟨hmem, hpend, hdraws⟩ := r.data hp hw hpc hn
  have hsr : u.sr = if n = 0 then s.sr
      else { ser := last.getLsbD 0, srclk := false, rclk := false, oe := s.sr.oe, clr := s.sr.clr, shift := last, out := last } := by
    split_ifs with h0
    · exact r.idle h0
    · exact (r.register hp (Nat.pos_of_ne_zero h0)).trans (hc.sr_eq _ _ _)
  rw [hmem, hpend, hdraws, hsr] at ht
  refine ⟨t, e, ht.trans (by rw [← hn]; rfl), hl, fun hwf i hi => ?_, hgo, hend⟩
  rw [ht, ← hmem]
  exact r.cells hp hwf i hi fun b hb => by rw [show (txByte 0x00 s).pend = s.pend from rfl, hn] at hb; cases hb

/-- Settles O38: the program loop's frame, which needs no premise but for the cells. -/
theorem loadChunkAlwaysCompletes : Obligations.LoadChunkAlwaysCompletes := by
  intro data s h hc hm hlp n
  obtain ⟨u, t, r, e, ht, hl, hcl, hgo, hend⟩ := execLoadChunk_shape data ⟨h, hc⟩ hm hlp
  have hsr : t.sr = u.sr := by rw [ht]
  have hmem : t.mem = u.mem := by rw [ht]
  have hpend : t.pend = u.pend := by rw [ht]
  have hdraws : t.draws = u.draws := by rw [ht]
  refine ⟨t, e, by rw [hsr, hmem, hpend, hdraws]; exact ht, hl, hcl, by rw [hsr]; exact r.optional.1,
    by rw [hsr]; exact r.optional.2, hgo, hend, fun hp hwf i hi hpi => ?_⟩
  rw [hmem]
  exact r.cells hp hwf i hi hpi

end Sys2Proof.Machine
end

section
/-! PROOFS. Reset (10_state R46, 70_reset_and_hazards R300). -/

namespace Sys2Proof.Machine

/-- Settles O49: field by field. -/
theorem resetHasTheSpecifiedValues : Obligations.ResetHasTheSpecifiedValues :=
  ⟨rfl, rfl, rfl, rfl, rfl, rfl, rfl, rfl, rfl, rfl, rfl, rfl, rfl⟩

/-- The line writes of the reset sequence from any levels: WE is written while CE is deasserted, so there is no strobe. -/
theorem run_bootLines (s : State) :
    runPrims bootLines s =
      { s with
        pins := { ddir := .input, dout := s.pins.dout, ce := .deasserted, oe := .deasserted, we := .deasserted }
        sr := (s.sr.setSrclk false).setRclk false } := by
  simp only [bootLines, runPrims_cons, runPrims_nil, Prim.run, driveWE, driveSRCLK, driveRCLK]
  rw [if_neg (by simp), if_neg (by simp), if_neg (by simp)]
  rfl

/-- The reset sequence in closed form (70 R300). -/
theorem bootSequence_eq (s : State) :
    bootSequence s =
      { s with
        mode := .standby, err := .ok, led := false, cs := .delay .modeSettle [] .boot
        pins := { ddir := .input, dout := s.pins.dout, ce := .deasserted, oe := .deasserted, we := .deasserted }
        sr := { ser := s.sr.ser, srclk := false, rclk := false, shift := s.sr.shift, out := s.sr.out
                oe := s.sr.oe.map (fun _ => .asserted), clr := s.sr.clr.map (fun _ => .deasserted) } } := by
  rw [bootSequence, run_bootLines]
  rfl

/-- Settles O50: the reset sequence in closed form, on through its delay or resting in it. -/
theorem resetSequenceReachesIdle : Obligations.ResetSequenceReachesIdle := by
  intro s hc u
  refine ⟨fun hs => ?_, fun ms hs => ?_⟩
  · have hw : s.waiting = false := by simp [State.waiting, hc]
    rw [step_nil hs, restMove_block (.inl hw), blockMove_boot_toByte hc, bootSequence_eq]
    rfl
  · have e : step s = .next (bootSequence { s with sched := ms }) := (step_cons hs).trans (blockMove_boot_toWait hc)
    rw [e, bootSequence_eq]

/-- Settles O52: State.reset is a boot state with the lines of STANDBY. -/
theorem invariantHoldsAtReset : Obligations.InvariantHoldsAtReset where
  lines := ⟨rfl, rfl, rfl, rfl⟩
  clocks := ⟨rfl, rfl⟩
  mode := rfl
  bus := quiet_nil.2 rfl
  srOe := by decide
  srClr := by decide
  mem := rfl
  err := fun _ _ => rfl
  payload := trivial
  dump := fun h => by cases h
  load := fun h => by cases h
  task := fun k h => by cases h

end Sys2Proof.Machine
end

section
/-! PROOFS. The invariant of the machine. `Underway` is what the invariant says of a procedure in a delay, `Receives` what it says
in a receive; an outcome `Ends` when it is a wait of the invariant (10_state R23, R38; 00_scope R14). -/

namespace Sys2Proof.Machine

/-- What no operation of the block breaks: the optional lines stay held, MEM canonical. -/
structure State.Kept (s : State) : Prop where
  srOe : s.sr.oe ≠ some .deasserted
  srClr : s.sr.clr ≠ some .asserted
  mem : Memory.wf s.mem = true

theorem Passed.kept {s t : State} (h : Passed s t) (k : s.Kept) : t.Kept := ⟨h.srOe k.srOe, h.srClr k.srClr, h.mem k.mem⟩

theorem Ran.kept {s t : State} (h : Ran s t) (k : s.Kept) : t.Kept := h.passed.kept k

/-- A procedure with events `ps` to come and then task `k`, as the invariant has it in a delay. -/
structure Underway (ps : List Prim) (k : Task) (s : State) : Prop where
  lines : (runPrims ps s).LinesMatch
  clocks : (runPrims ps s).ClocksLow
  mode : (runPrims ps s).mode = k.mode
  bus : Quiet ps s
  kept : s.Kept
  err : k ≠ .close → s.err = .ok
  task : s.TaskProgress k

/-- A receive or an execution in context `c`, as the invariant has it. -/
structure State.Receives (c : RxContext) (s : State) : Prop where
  settled : s.Settled
  mode : s.mode = if c = .load then .write else .standby
  kept : s.Kept
  err : s.err = .ok
  dump : c = .ackWait → s.DumpProgress
  load : c = .load → s.LoadProgress

theorem MachineInv.kept {s : State} (h : MachineInv s) : s.Kept := ⟨h.srOe, h.srClr, h.mem⟩

theorem CS.events_of_task {c : CS} (h : c.task = none) : c.events = [] := by
  cases c with
  | delay t rest k => cases h
  | _ => rfl

theorem ahead_of_task {s : State} (h : s.cs.task = none) : s.ahead = s := by
  rw [State.ahead, CS.events_of_task h, runPrims_nil]

theorem MachineInv.settled {s : State} (h : MachineInv s) (ht : s.cs.task = none) : s.Settled ∧ s.mode = s.cs.modeOf := by
  have e := ahead_of_task ht
  have hm := h.mode
  rw [e] at hm
  exact ⟨⟨e ▸ h.lines, e ▸ h.clocks⟩, hm⟩

theorem CS.task_of_receiving {cs : CS} {c : RxContext} (h : cs.receiving = some c) :
    cs.task = none ∧ cs ≠ .report ∧ cs.context = c ∧ cs.modeOf = if c = .load then .write else .standby := by
  cases cs with
  | len d => cases h; exact ⟨rfl, by simp, rfl, rfl⟩
  | payload d n k x => cases h; exact ⟨rfl, by simp, rfl, rfl⟩
  | exec d => cases h; exact ⟨rfl, by simp, rfl, rfl⟩
  | boot => cases h
  | delay t rest k => cases h
  | report => cases h

theorem MachineInv.receives {s : State} {c : RxContext} (h : MachineInv s) (hc : s.cs.receiving = some c) :
    s.Receives c := by
  obtain ⟨ht, hr, -, hm⟩ := CS.task_of_receiving hc
  obtain ⟨hs, hmode⟩ := h.settled ht
  exact ⟨hs, hmode.trans hm, h.kept, h.err hr (by rw [ht]; simp), fun e => h.dump (e ▸ hc), fun e => h.load (e ▸ hc)⟩

/-- A receive in context `c` meets the invariant in every control state of that context. -/
theorem State.Receives.inv {c : RxContext} {s : State} (h : s.Receives c) (hc : s.cs.receiving = some c)
    (hp : CS.PayloadOk s.cfg s.cs) : MachineInv s := by
  obtain ⟨ht, -, -, hm⟩ := CS.task_of_receiving hc
  have e := ahead_of_task ht
  exact
    { lines := e.symm ▸ h.settled.lines, clocks := e.symm ▸ h.settled.clocks, mode := e.symm ▸ h.mode.trans hm.symm
      bus := by rw [CS.events_of_task ht]; exact quiet_nil.2 h.settled.lines.contention
      srOe := h.kept.srOe, srClr := h.kept.srClr, mem := h.kept.mem, err := fun _ _ => h.err, payload := hp
      dump := fun k => h.dump (Option.some.inj (hc.symm.trans k))
      load := fun k => h.load (Option.some.inj (hc.symm.trans k))
      task := fun k hk => by rw [ht] at hk; cases hk }

theorem MachineInv.underway {s : State} {t : DelayName} {rest : List Prim} {k : Task} (h : MachineInv s)
    (hc : s.cs = .delay t rest k) : Underway rest k s := by
  have hl := h.lines
  have hk := h.clocks
  have hm := h.mode
  have hb := h.bus
  rw [State.ahead, hc] at hl hk hm
  rw [hc] at hb
  exact ⟨hl, hk, hm, hb, h.kept, fun hne => h.err (by simp [hc]) (by simpa [hc, CS.task] using hne), h.task k (by rw [hc]; rfl)⟩

/-- A procedure under way may rest in a delay. -/
theorem Underway.inv {ps : List Prim} {k : Task} {s : State} (u : Underway ps k s) (t : DelayName) :
    MachineInv { s with cs := .delay t ps k } := by
  have e : SameLines (runPrims ps s) (runPrims ps { s with cs := .delay t ps k }) :=
    runPrims_sameLines ps ⟨rfl, rfl, rfl, rfl⟩
  exact
    { lines := e.linesMatch u.lines, clocks := e.clocksLow u.clocks, mode := e.mode.trans u.mode
      bus := u.bus.congr ⟨rfl, rfl, rfl, rfl⟩
      srOe := u.kept.srOe, srClr := u.kept.srClr, mem := u.kept.mem
      err := fun _ hne => u.err fun hk => hne (by rw [hk]; rfl)
      payload := trivial, dump := nofun, load := nofun
      task := fun j hj => by cases hj; exact u.task }

theorem TaskProgress_congr {s t : State} (hc : t.cfg = s.cfg) (hd : t.dump = s.dump) (hl : t.load = s.load) {k : Task}
    (h : s.TaskProgress k) : t.TaskProgress k := by
  cases k with
  | dumpByte => simpa only [State.TaskProgress, hd] using h
  | loadOpen => simpa only [State.TaskProgress, hc, hl] using h
  | loadByte bs => simpa only [State.TaskProgress, State.LoadProgress, hc, hl] using h
  | boot => trivial
  | readReply => trivial
  | writeReply => trivial
  | close => trivial

theorem Underway.congr {ps : List Prim} {k : Task} {s t : State} (u : Underway ps k s) (e : SameLines s t)
    (b : BusOnly s t) (r : Ran s t) : Underway ps k t := by
  have e' := runPrims_sameLines ps e
  exact ⟨e'.linesMatch u.lines, e'.clocksLow u.clocks, e'.mode.trans u.mode, u.bus.congr e, r.kept u.kept,
    fun hk => b.err.trans (u.err hk), TaskProgress_congr b.cfg b.dump b.load u.task⟩

/-- The end of a delay leaves its procedure under way. -/
theorem Underway.runDelay {ps : List Prim} {k : Task} {s : State} (u : Underway ps k s) (t : DelayName) :
    Underway ps k (runDelay t s) :=
  u.congr (runDelay_sameLines t s) (Prim.run_busOnly (.delay t) s) (runDelay_ran t s)

/-- Where the events lead, the task is next. -/
theorem Underway.run {ps : List Prim} {k : Task} {s : State} (u : Underway ps k s) : Underway [] k (runPrims ps s) :=
  ⟨u.lines, u.clocks, u.mode, quiet_nil.2 u.lines.contention, (runPrims_ran ps s).kept u.kept,
    fun hk => (runPrims_busOnly ps s).err.trans (u.err hk),
    TaskProgress_congr (runPrims_busOnly ps s).cfg (runPrims_busOnly ps s).dump (runPrims_busOnly ps s).load u.task⟩

theorem Underway.settled {k : Task} {s : State} (u : Underway [] k s) : s.Settled := ⟨u.lines, u.clocks⟩

/-- At each of its delays a procedure is under way with the events after it. -/
theorem Underway.rest {pre rest : List Prim} {t : DelayName} {k : Task} {s : State}
    (u : Underway (pre ++ .delay t :: rest) k s) : Underway rest k (runPrims pre s) := by
  have e := runDelay_sameLines t (runPrims pre s)
  have e' := (runPrims_sameLines rest e).symm
  have hl := u.lines
  have hc := u.clocks
  have hm := u.mode
  rw [runPrims_append] at hl hc hm
  have b := runPrims_busOnly pre s
  exact ⟨e'.linesMatch hl, e'.clocksLow hc, e'.mode.trans hm, (quiet_cons.1 u.bus.after).2.congr e.symm,
    (runPrims_ran pre s).kept u.kept, fun hk => b.err.trans (u.err hk), TaskProgress_congr b.cfg b.dump b.load u.task⟩

/-- An outcome that is a wait of the block and meets the invariant. -/
def Ends (o : Host.Outcome State Fault Refusal) : Prop := ∃ t, o = .next t ∧ MachineInv t ∧ t.cs.IsWait

/-- A procedure under way rests, or goes on with what follows its last event. -/
theorem advance_ends {ps : List Prim} {k : Task} {last : State → Host.Outcome State Fault Refusal} {s : State}
    (u : Underway ps k s) (h : Ends (last (runPrims ps s))) : Ends (advance ps k last s) := by
  rcases advance_cases ps k last s with e | ⟨pre, rest, t, rfl, e⟩
  · rw [e]; exact h
  · rw [e]; exact ⟨_, rfl, u.rest.inv t, trivial⟩

/-! ## Where an iteration ends -/

/-- The next iteration waits in STANDBY with ERR OK (42 R222, 60 R280). -/
theorem report_ends {s : State} (h : s.Settled) (k : s.Kept) (hm : s.mode = .standby) : Ends (.next (report s)) := by
  have r : (report s).Receives .idle := by
    rw [report_eq]
    exact ⟨settled_of_eq h rfl rfl rfl rfl rfl rfl rfl, hm, ⟨k.srOe, k.srClr, k.mem⟩, rfl, nofun, nofun⟩
  have hc : (report s).cs = .len .idle := by rw [report_eq]
  exact ⟨_, rfl, r.inv (by rw [hc]; rfl) (by rw [hc]; trivial), by rw [hc]; trivial⟩

/-- A state that the block comes to rest in once the end of an iteration is folded in: the report in STANDBY, or a wait of the
invariant. -/
def Lands (t : State) : Prop :=
  (t.cs = .report ∧ t.mode = .standby ∧ t.Settled ∧ t.Kept) ∨ (MachineInv t ∧ t.cs.IsWait ∧ t.cs ≠ .report)

theorem Lands.ends {t : State} (h : Lands t) : Ends (.next (conclude t)) := by
  rcases h with ⟨hc, hm, hs, hk⟩ | ⟨hi, hw, hc⟩
  · rw [conclude_report hc]; exact report_ends hs hk hm
  · rw [conclude_self hc]; exact ⟨t, rfl, hi, hw⟩

theorem lands_report {s : State} (h : s.Settled) (k : s.Kept) (hm : s.mode = .standby) : Lands { s with cs := .report } :=
  .inl ⟨rfl, hm, settled_of_eq h rfl rfl rfl rfl rfl rfl rfl, ⟨k.srOe, k.srClr, k.mem⟩⟩

theorem raiseErr_lands (e : Err) {s : State} (h : s.Settled) (k : s.Kept) : Lands (raiseErr e s) :=
  .inl ⟨rfl, by rw [raiseErr_eq e h.lines]; rfl, raiseErr_settled e h, (raiseErr_ran e s).kept k⟩

/-- The cleanup and the end of a LOAD return to STANDBY (43 R243, 60 R275). -/
theorem underway_close {s : State} (h : s.Settled) (k : s.Kept) : Underway (enterStandby s.mode) .close s := by
  have e := run_enterStandby h.lines
  exact ⟨e ▸ atMode_linesMatch _ _, e ▸ atMode_clocksLow _ h.clocks, e ▸ rfl, quiet_enterStandby _ h.lines.contention, k,
    fun hne => absurd rfl hne, trivial⟩

/-! ## dump -/

/-- The loop of dump() between two reads: DADDR stands CHLEN bytes into a chunk of 63, at most at the end of the device. -/
structure State.DumpAt (s : State) : Prop where
  chlen : s.dump.chlen < 63
  daddr : s.dump.daddr.toNat ≤ 32768
  chunk : s.dump.daddr.toNat % 63 = s.dump.chlen

/-- A chunk sent waits for its ack (41 R187). -/
theorem sendAndWait_lands {p : List Byte} {s : State} (h : s.Settled) (k : s.Kept) (hm : s.mode = .standby)
    (he : s.err = .ok) (hd : s.DumpProgress) : Lands (sendAndWait p s) := by
  have r : (sendAndWait p s).Receives .ackWait :=
    ⟨settled_of_eq h rfl rfl rfl rfl rfl rfl rfl, hm, ⟨k.srOe, k.srClr, k.mem⟩, he, fun _ => hd, nofun⟩
  exact .inr ⟨r.inv rfl trivial, trivial, by simp⟩

/-- The last chunk begins at 32760 = 63 * 520, so that 8 bytes are left for it (43 R241). -/
theorem dumpTail_lands {s : State} (h : s.Settled) (k : s.Kept) (hm : s.mode = .standby) (he : s.err = .ok)
    (hd : s.DumpAt) (ha : memSize ≤ s.dump.daddr.toNat) : Lands (dumpTail s) := by
  obtain ⟨h1, h2, h3⟩ := hd
  simp only [memSize] at ha
  rw [dumpTail, if_pos (by omega)]
  exact sendAndWait_lands h k hm he (.inr ⟨by simp only [memSize]; omega, by omega⟩)

/-- The loop of dump() stops after a full chunk or after the final one of 8 bytes (43 R240, R241). -/
theorem dumpLoop_lands {s : State} (h : s.Settled) (k : s.Kept) (hm : s.mode = .standby) (he : s.err = .ok)
    (hd : s.DumpAt) : Lands (dumpLoop (maxPayload + 1) s) := by
  rcases Nat.lt_or_ge s.dump.daddr.toNat memSize with ha | ha
  · have r := dumpRun_loop (maxPayload + 1) s h.lines h.clocks hd.chlen (by simp only [maxPayload]; omega)
    have hk := (dumpLoop_ran (maxPayload + 1) s).kept k
    generalize dumpLoop (maxPayload + 1) s = t at r hk
    obtain ⟨h1, h2, h3⟩ := hd
    have hte : t.err = .ok := by rw [r.eq]; exact he
    simp only [memSize] at ha
    have key : t.cs = .len .ackWait ∧ t.mode = .standby ∧ t.DumpProgress := by
      rcases Nat.lt_or_ge (32768 + s.dump.chlen) (s.dump.daddr.toNat + 63) with hf | hf
      · obtain ⟨f1, f2, f3, -, f4, -⟩ := r.final h2 hf
        exact ⟨f4 (by omega), f3 ha, .inr ⟨f1, by omega⟩⟩
      · obtain ⟨f1, f2, f3, f4, -⟩ := r.full hf
        exact ⟨f1, f2, .inl ⟨by simp only [memSize]; omega, f3, by simp only [maxPayload]; omega⟩⟩
    obtain ⟨hc, htm, hp⟩ := key
    have r' : t.Receives .ackWait := ⟨⟨r.lines, r.clocks⟩, htm, hk, hte, fun _ => hp, nofun⟩
    exact .inr ⟨r'.inv (by rw [hc]; rfl) (by rw [hc]; trivial), by rw [hc]; trivial, by rw [hc]; simp⟩
  · rw [dumpLoop, if_pos ha]
    exact dumpTail_lands h k hm he hd ha

theorem firstChunk_dumpAt (s : State) : (firstChunk s).DumpAt := ⟨by simp, by simp, by simp⟩

theorem nextChunk_dumpAt {s : State} (h : s.DumpProgress) (hl : s.dump.chlen = 63) : (nextChunk s).DumpAt := by
  rcases h with ⟨h1, -, h2⟩ | ⟨-, h2⟩
  · have e : (nextChunk s).dump.daddr.toNat = s.dump.daddr.toNat + 1 := addr_succ h1
    simp only [memSize, maxPayload] at h1 h2
    exact ⟨by simp, by rw [e]; omega, by rw [e]; exact h2⟩
  · omega

/-- A byte of the dump pushed: the chunk is full, or the loop goes on at the next address (43 R240). -/
theorem pushChunk_progress {b : Byte} {s : State} (h : s.TaskProgress .dumpByte) :
    ((pushChunk b s).dump.chlen = maxPayload → (pushChunk b s).DumpProgress) ∧
      ((pushChunk b s).dump.chlen ≠ maxPayload → (nextAddress (pushChunk b s)).DumpAt) := by
  obtain ⟨h1, h2, h3⟩ := h
  have e : (nextAddress (pushChunk b s)).dump.daddr.toNat = s.dump.daddr.toNat + 1 := addr_succ h1
  have e' : (pushChunk b s).dump.chlen = s.dump.chlen + 1 := rfl
  simp only [memSize, maxPayload] at h1 h2 h3
  refine ⟨fun hl => .inl ⟨h1, hl, ?_⟩, fun hl => ⟨?_, by rw [e]; omega, ?_⟩⟩
  · show (s.dump.daddr.toNat + 1) % 63 = 0
    simp only [maxPayload] at hl
    omega
  · simp only [maxPayload] at hl
    rw [nextAddress_dump]; show (pushChunk b s).dump.chlen < 63; omega
  · simp only [maxPayload] at hl
    rw [e, nextAddress_dump]; show _ = (pushChunk b s).dump.chlen; omega

/-! ## load -/

/-- A load between two bytes: LADDR = LDONE ≤ LTOTAL, in WRITE mode (43 R243, R245). -/
structure State.LoadAt (s : State) : Prop where
  settled : s.Settled
  kept : s.Kept
  mode : s.mode = .write
  err : s.err = .ok
  addr : s.load.laddr.toNat = s.load.ldone.toNat
  done : s.load.ldone.toNat ≤ s.load.ltotal.toNat
  allowed : loadRefused s.cfg s.load.ltotal = false

theorem State.LoadAt.waits {s : State} (h : s.LoadAt) (hlt : s.load.ldone.toNat < s.load.ltotal.toNat) :
    MachineInv { s with cs := .len .load } :=
  State.Receives.inv (c := .load)
    ⟨settled_of_eq h.settled rfl rfl rfl rfl rfl rfl rfl, h.mode, ⟨h.kept.srOe, h.kept.srClr, h.kept.mem⟩, h.err, nofun,
      fun _ => ⟨hlt, h.addr, h.allowed⟩⟩ rfl trivial

theorem loadContinue_lands {s : State} (h : s.LoadAt) : Lands (loadContinue s) := by
  rcases loadContinue_cases h.settled.lines with ⟨hlt, e⟩ | ⟨-, e⟩
  · rw [e]; exact .inr ⟨h.waits hlt, trivial, by simp⟩
  · rw [e]
    exact lands_report (atMode_settled .standby h.settled.clocks) ⟨h.kept.srOe, h.kept.srClr, h.kept.mem⟩ rfl

/-- The program loop keeps the load's progress, so that the loop test after it lands (43 R243, R244). -/
theorem programBytes_lands (bs : List Byte) {s : State} (h : s.LoadAt) :
    ∃ t, programBytes bs s = .next t ∧ Lands (loadContinue t) := by
  obtain ⟨t, e, r⟩ := programRun_bytes bs s h.settled.lines h.settled.clocks h.mode h.addr h.done h.allowed
  obtain ⟨hs, hm⟩ := programBytes_settled h.settled e
  have hk := (programBytes_ran e).kept h.kept
  refine ⟨t, e, loadContinue_lands ?_⟩
  set n := min bs.length (s.load.ltotal.toNat - s.load.ldone.toNat) with hn
  have ht := s.load.ltotal.isLt
  have haddr := h.addr
  have hdone := h.done
  have e1 : t.load.laddr.toNat = s.load.laddr.toNat + n := by rw [r.eq]; exact addr_add_toNat (by omega)
  have e2 : t.load.ldone.toNat = s.load.ldone.toNat + n := by rw [r.eq]; exact done_add_toNat (by omega)
  have e3 : t.load.ltotal = s.load.ltotal := by rw [r.eq]
  exact ⟨hs, hk, hm.trans h.mode, by rw [r.eq]; exact h.err, by omega, by rw [e3]; omega,
    by rw [e3, r.eq]; exact h.allowed⟩

theorem countByte_loadAt {bs : List Byte} {s : State} (u : Underway [] (.loadByte bs) s) : (countByte s).LoadAt := by
  obtain ⟨h1, h2, h3⟩ := u.task
  have ht := s.load.ltotal.isLt
  have e1 : (countByte s).load.laddr.toNat = s.load.laddr.toNat + 1 := addr_add_toNat (n := 1) (by omega)
  have e2 : (countByte s).load.ldone.toNat = s.load.ldone.toNat + 1 := done_add_toNat (n := 1) (by omega)
  exact ⟨settled_of_eq u.settled rfl rfl rfl rfl rfl rfl rfl, ⟨u.kept.srOe, u.kept.srClr, u.kept.mem⟩, u.mode,
    u.err nofun, by rw [e1, e2, h2], by rw [e2]; exact h1, h3⟩

theorem openLoad_loadAt {s : State} (u : Underway [] .loadOpen s) : (openLoad s).LoadAt :=
  ⟨settled_of_eq u.settled rfl rfl rfl rfl rfl rfl rfl, ⟨u.kept.srOe, u.kept.srClr, u.kept.mem⟩, u.mode, u.err nofun, rfl,
    Nat.zero_le _, u.task⟩

/-! ## Tasks -/

/-- Every task, gone on with to the wait for a byte, ends in one. -/
theorem finish_ends {k : Task} {s : State} (u : Underway [] k s) : Ends (finish k s) := by
  have hs := u.settled
  have hk := u.kept
  cases k with
  | boot =>
    have r : State.Receives .idle { s with cs := .len .idle } :=
      ⟨settled_of_eq hs rfl rfl rfl rfl rfl rfl rfl, u.mode, ⟨hk.srOe, hk.srClr, hk.mem⟩, u.err nofun, nofun, nofun⟩
    exact ⟨_, rfl, r.inv rfl trivial, trivial⟩
  | readReply =>
    exact report_ends (settled_of_eq hs rfl rfl rfl rfl rfl rfl rfl) ⟨hk.srOe, hk.srClr, hk.mem⟩ u.mode
  | writeReply =>
    exact report_ends (settled_of_eq hs rfl rfl rfl rfl rfl rfl rfl) ⟨hk.srOe, hk.srClr, hk.mem⟩ u.mode
  | dumpByte =>
    obtain ⟨hfull, hmore⟩ := pushChunk_progress (b := s.opd.sampled) u.task
    have hs' : (pushChunk s.opd.sampled s).Settled := settled_of_eq hs rfl rfl rfl rfl rfl rfl rfl
    refine Lands.ends ?_
    split_ifs with hl
    · exact sendAndWait_lands hs' ⟨hk.srOe, hk.srClr, hk.mem⟩ u.mode (u.err nofun) (hfull hl)
    · exact dumpLoop_lands (settled_of_eq hs' rfl rfl rfl rfl rfl rfl rfl) ⟨hk.srOe, hk.srClr, hk.mem⟩ u.mode (u.err nofun)
        (hmore hl)
  | loadOpen => exact (loadContinue_lands (openLoad_loadAt u)).ends
  | loadByte bs =>
    obtain ⟨t, e, hl⟩ := programBytes_lands bs (countByte_loadAt u)
    rw [finish, e]
    exact hl.ends
  | close =>
    exact report_ends (settled_of_eq hs rfl rfl rfl rfl rfl rfl rfl) ⟨hk.srOe, hk.srClr, hk.mem⟩ u.mode

theorem suspend_ends {ps : List Prim} {k : Task} {s : State} (u : Underway ps k s) : Ends (suspend ps k s) :=
  advance_ends u (finish_ends u.run)

theorem dumpOn_ends {s : State} (h : s.Settled) (k : s.Kept) (hm : s.mode = .standby) (he : s.err = .ok)
    (hd : s.DumpAt) : Ends (dumpOn s) := by
  rw [dumpOn]
  split_ifs with ha
  · exact (dumpTail_lands h k hm he hd ha).ends
  · have e : runPrims (readEvents s.mode s.dump.daddr) s = readByte s.dump.daddr s := rfl
    exact suspend_ends
      ⟨e ▸ readByte_linesMatch _ h.lines h.clocks, e ▸ readByte_clocksLow _ h.lines h.clocks,
        by rw [e, readByte_eq _ h.lines h.clocks]; rfl, quiet_readEvents _ h.lines, k, fun _ => he,
        ⟨by omega, hd.chlen, hd.chunk⟩⟩

theorem loadOn_ends {s : State} (h : s.LoadAt) : Ends (loadOn s) := by
  rw [loadOn]
  split_ifs with hlt
  · exact ⟨_, rfl, h.waits hlt, trivial⟩
  · exact suspend_ends (underway_close h.settled h.kept)

/-- A byte of a chunk to program, under way to the counters (43 R243). -/
theorem underway_loadByte {b : Byte} {bs : List Byte} {s : State} (h : s.LoadAt)
    (hlt : s.load.ldone.toNat < s.load.ltotal.toNat) :
    Underway (writeEvents s.load.laddr b ++ [.delay .interWrite]) (.loadByte bs) s := by
  have ha : addrRefused s.cfg s.load.laddr = false := addrRefused_of_load h.allowed (by rw [h.addr]; exact hlt)
  have e : writeByte s.load.laddr b s = .next (runPrims (writeEvents s.load.laddr b) s) := by
    rw [writeByte, if_neg (not_not.2 h.mode), if_neg (by simp [ha])]
  obtain ⟨hw, hm⟩ := writeByte_settled h.settled e
  obtain ⟨hp, hpm⟩ := pacingDelay_settled hw
  have er : runPrims (writeEvents s.load.laddr b ++ [.delay .interWrite]) s =
      pacingDelay (runPrims (writeEvents s.load.laddr b) s) := by rw [runPrims_append]; rfl
  refine ⟨er ▸ hp.lines, er ▸ hp.clocks, by rw [er, hpm, hm]; rfl,
    quiet_append (quiet_writeEvents _ _ h.settled.lines h.mode) ?_, h.kept, fun _ => h.err, ⟨hlt, h.addr, h.allowed⟩⟩
  exact quiet_cons.2 ⟨hw.lines.contention, quiet_nil.2 hp.lines.contention⟩

theorem programOn_ends (bs : List Byte) {s : State} (h : s.LoadAt) : Ends (programOn bs s) := by
  cases bs with
  | nil => exact loadOn_ends h
  | cons b bs =>
    have hdone := h.done
    rw [programOn]
    split_ifs with he hm ha
    · exact loadOn_ends h
    · exact absurd h.mode hm
    · rw [addrRefused_of_load h.allowed (by rw [h.addr]; omega)] at ha
      cases ha
    · exact suspend_ends (underway_loadByte h (by omega))

/-- Every task, gone on with to the next wait, ends in one. -/
theorem resume_ends {k : Task} {s : State} (u : Underway [] k s) : Ends (resume k s) := by
  cases k with
  | boot => exact finish_ends u
  | readReply => exact finish_ends u
  | writeReply => exact finish_ends u
  | dumpByte =>
    have hk := u.kept
    obtain ⟨hfull, hmore⟩ := pushChunk_progress (b := s.opd.sampled) u.task
    have hs' : (pushChunk s.opd.sampled s).Settled := settled_of_eq u.settled rfl rfl rfl rfl rfl rfl rfl
    show Ends (if _ then _ else _)
    split_ifs with hl
    · exact (sendAndWait_lands hs' ⟨hk.srOe, hk.srClr, hk.mem⟩ u.mode (u.err nofun) (hfull hl)).ends
    · exact dumpOn_ends (settled_of_eq hs' rfl rfl rfl rfl rfl rfl rfl) ⟨hk.srOe, hk.srClr, hk.mem⟩ u.mode (u.err nofun)
        (hmore hl)
  | loadOpen => exact loadOn_ends (openLoad_loadAt u)
  | loadByte bs => exact programOn_ends bs (countByte_loadAt u)
  | close => exact finish_ends u

end Sys2Proof.Machine
end

section
/-! PROOFS. The invariant over instructions, moves and runs (00_scope R14, R15; 40_bus_and_access R143; 42_commands R222). -/

namespace Sys2Proof.Machine

/-- The refusal that ADDR15_MODE = REFUSE gives a command of idle context (20_memory R62, 43_bulk R245). -/
structure Refuses (c : Option RxContext) (cfg : Config) (o : Host.Outcome State Fault Refusal) : Prop where
  outcome : o = .refused .refusedAddr15
  mode : cfg.addr15 = .refuse
  context : c = some .idle

theorem addr15_of_addrRefused {c : Config} {a : Addr} (h : addrRefused c a = true) : c.addr15 = .refuse :=
  ((addrRefused_iff c a).1 h).1

theorem addr15_of_loadRefused {c : Config} {a : Addr} (h : loadRefused c a = true) : c.addr15 = .refuse :=
  ((loadRefused_iff c a).1 h).1

/-- An instruction executed in the context its row is read in lands, or is refused. -/
def Executes (c : RxContext) (s : State) (i : Instr) : Prop :=
  (∃ t, exec i s = .next t ∧ Lands t) ∨ Refuses (some c) s.cfg (exec i s)

theorem overlong_lands {c : RxContext} {s : State} (h : s.Receives c) (hc : s.cs.context = c) : Lands (overlong s) := by
  cases ho : s.cfg.overlong with
  | lengthOnly => rw [overlong_lengthOnly ho]; exact raiseErr_lands _ h.settled h.kept
  | capacity =>
    have hs := h.settled
    have hk := h.kept
    have r : State.Receives c { s with cs := .payload s.cs.context 63 0 true } :=
      ⟨settled_of_eq hs rfl rfl rfl rfl rfl rfl rfl, h.mode, ⟨hk.srOe, hk.srClr, hk.mem⟩, h.err, h.dump, h.load⟩
    rw [overlong_capacity ho]
    exact .inr ⟨r.inv (by rw [← hc]; rfl) ⟨by decide, fun _ => ⟨rfl, ho⟩⟩, trivial, by simp⟩

theorem loadAt_of_receives {s : State} (h : s.Receives .load) : s.LoadAt := by
  obtain ⟨hlt, ha, hr⟩ := h.load rfl
  exact ⟨h.settled, h.kept, h.mode, h.err, ha, le_of_lt hlt, hr⟩

theorem State.LoadAt.acked {s : State} (h : s.LoadAt) : (txByte 0x00 s).LoadAt :=
  ⟨settled_of_eq h.settled rfl rfl rfl rfl rfl rfl rfl, ⟨h.kept.srOe, h.kept.srClr, h.kept.mem⟩, h.mode, h.err, h.addr,
    h.done, h.allowed⟩

theorem execLoad_executes (total : Addr) {s : State} (h : s.Receives .idle) : Executes .idle s (.load total) := by
  have hk := h.kept
  cases hr : loadRefused s.cfg total with
  | true => exact .inr ⟨(exec_load_refused_iff total s).2 hr, addr15_of_loadRefused hr, rfl⟩
  | false =>
    rcases execLoad_cases total h.settled.lines hr with ⟨h0, e⟩ | ⟨-, e⟩
    · have r : State.LoadAt { s.atMode .write with
          load := { laddr := 0, ltotal := total, ldone := 0 }, txs := s.txs ++ [0x00] } :=
        ⟨⟨⟨rfl, rfl, rfl, rfl⟩, ⟨h.settled.clocks.srclk, h.settled.clocks.rclk⟩⟩, ⟨hk.srOe, hk.srClr, hk.mem⟩, rfl, h.err,
          rfl, Nat.zero_le _, hr⟩
      exact .inl ⟨_, e, .inr ⟨r.waits h0, trivial, by simp⟩⟩
    · exact .inl ⟨_, e, .inl ⟨rfl, rfl, ⟨⟨rfl, rfl, rfl, rfl⟩, ⟨h.settled.clocks.srclk, h.settled.clocks.rclk⟩⟩,
        ⟨hk.srOe, hk.srClr, hk.mem⟩⟩⟩

/-- READ and WRITE end in the report in STANDBY. -/
theorem exec_reports {i : Instr} {s t : State} (h : s.Settled) (k : s.Kept) (e : exec i s = .next t) (hc : t.cs = .report)
    (hm : t.mode = .standby) : ∃ t, exec i s = .next t ∧ Lands t :=
  ⟨t, e, .inl ⟨hc, hm, exec_settled h e, (exec_ran e).kept k⟩⟩

theorem exec_executes {i : Instr} {c : RxContext} {s : State} (h : s.Receives c) (hc : s.cs.context = c)
    (hi : i.readIn (.rx c) = true) : Executes c s i := by
  have hs := h.settled
  have hk := h.kept
  cases i with
  | read a =>
    obtain rfl : c = .idle := by simpa [Instr.readIn] using hi
    cases ha : addrRefused s.cfg a with
    | true => exact .inr ⟨(exec_read_refused_iff a s).2 ha, addr15_of_addrRefused ha, rfl⟩
    | false =>
      obtain ⟨b, x, y, d, e, -⟩ := execRead_shape a hs ha
      exact .inl (exec_reports hs hk e rfl rfl)
  | write a v =>
    obtain rfl : c = .idle := by simpa [Instr.readIn] using hi
    cases ha : addrRefused s.cfg a with
    | true => exact .inr ⟨(exec_write_refused_iff a v s).2 ha, addr15_of_addrRefused ha, rfl⟩
    | false => exact .inl (exec_reports hs hk (execWrite_eq a v hs ha) rfl rfl)
  | dump =>
    obtain rfl : c = .idle := by simpa [Instr.readIn] using hi
    exact .inl ⟨_, exec_dump s, dumpLoop_lands hs.firstChunk ⟨hk.srOe, hk.srClr, hk.mem⟩ h.mode h.err (firstChunk_dumpAt s)⟩
  | load total =>
    obtain rfl : c = .idle := by simpa [Instr.readIn] using hi
    exact execLoad_executes total h
  | reset =>
    obtain rfl : c = .idle := by simpa [Instr.readIn] using hi
    exact .inl ⟨_, exec_reset s, lands_report hs hk h.mode⟩
  | unknown p => exact .inl ⟨_, exec_unknown p s, raiseErr_lands _ hs hk⟩
  | illegalLen64 n => exact .inl ⟨_, exec_illegalLen64 n s, overlong_lands h hc⟩
  | illegalLen128 n => exact .inl ⟨_, exec_illegalLen128 n s, overlong_lands h hc⟩
  | ack =>
    obtain rfl : c = .ackWait := by simpa [Instr.readIn] using hi
    by_cases hl : s.dump.chlen = 63
    · exact .inl ⟨_, exec_ack_full hl, dumpLoop_lands hs.nextChunk ⟨hk.srOe, hk.srClr, hk.mem⟩ h.mode h.err
        (nextChunk_dumpAt (h.dump rfl) hl)⟩
    · exact .inl ⟨_, execAck_end hl, lands_report hs hk h.mode⟩
  | resetSentinel => exact .inl ⟨_, rfl, raiseErr_lands _ hs hk⟩
  | ackwaitUnexpected p => exact .inl ⟨_, rfl, raiseErr_lands _ hs hk⟩
  | loadChunk data =>
    obtain rfl : c = .load := by simpa [Instr.readIn] using hi
    obtain ⟨t, e, hl⟩ := programBytes_lands data (loadAt_of_receives h).acked
    exact .inl ⟨loadContinue t, by rw [exec, execLoadChunk, e, andThen_next], hl⟩
  | readReply v => cases hi
  | ackOut => cases hi
  | dumpChunk data => cases hi
  | dumpLast data => cases hi

theorem suspendRaise_ends (e : Err) {s : State} (h : s.Settled) (k : s.Kept) : Ends (suspendRaise e s) :=
  suspend_ends (underway_close (s := { s with err := e }) (settled_of_eq h rfl rfl rfl rfl rfl rfl rfl)
    ⟨k.srOe, k.srClr, k.mem⟩)

theorem raiseOn_ends (p : Pace) (e : Err) {s : State} (h : s.Settled) (k : s.Kept) : Ends (raiseOn p e s) := by
  cases p with
  | toByte => exact (raiseErr_lands e h k).ends
  | toWait => exact suspendRaise_ends e h k

theorem underway_readReply (a : Addr) {s : State} (h : s.Receives .idle) :
    Underway (readEvents s.mode a) .readReply { s with opd := s.opd.setA a } := by
  have hs : State.Settled { s with opd := s.opd.setA a } := settled_of_eq h.settled rfl rfl rfl rfl rfl rfl rfl
  have e : runPrims (readEvents s.mode a) { s with opd := s.opd.setA a } = readByte a { s with opd := s.opd.setA a } := rfl
  exact ⟨e ▸ readByte_linesMatch a hs.lines hs.clocks, e ▸ readByte_clocksLow a hs.lines hs.clocks,
    by rw [e, readByte_eq a hs.lines hs.clocks]; rfl, quiet_readEvents a hs.lines,
    ⟨h.kept.srOe, h.kept.srClr, h.kept.mem⟩, fun _ => h.err, trivial⟩

/-- The events of WRITE: into WRITE mode, the strobe, and back (42 R214). -/
theorem underway_writeReply (a : Addr) (v : Byte) {s : State} (h : s.Receives .idle) :
    Underway (enterWrite s.mode ++ writeEvents a v ++ enterStandby .write) .writeReply
      { s with opd := (s.opd.setA a).setV v } := by
  set w : State := { s with opd := (s.opd.setA a).setV v } with hw
  have hs : w.Settled := settled_of_eq h.settled rfl rfl rfl rfl rfl rfl rfl
  have ha : (w.atMode .write).Settled := atMode_settled .write hs.clocks
  have he : runPrims (enterWrite s.mode) w = w.atMode .write := run_enterWrite hs.lines
  set u : State := runPrims (writeEvents a v) (w.atMode .write) with hu
  have hue : u = strobe { loaded a (w.atMode .write) with pins := (w.atMode .write).pins.setDout v } :=
    run_writeEvents a v ha.lines ha.clocks rfl
  have hum : u.mode = .write := by rw [hue]; simp
  have hcl := loaded_clocksLow a ha.clocks
  have hus : u.Settled := by
    rw [hue]
    exact ⟨⟨by simp, by simp, by simp, by simp⟩, ⟨by simp [hcl.srclk], by simp [hcl.rclk]⟩⟩
  have hr : runPrims (enterWrite s.mode ++ writeEvents a v ++ enterStandby .write) w = u.atMode .standby := by
    rw [runPrims_append, runPrims_append, he, ← hu, ← hum, run_enterStandby hus.lines]
  refine ⟨hr ▸ atMode_linesMatch _ _, hr ▸ atMode_clocksLow _ hus.clocks, hr ▸ rfl, ?_,
    ⟨h.kept.srOe, h.kept.srClr, h.kept.mem⟩, fun _ => h.err, trivial⟩
  refine quiet_append (quiet_append (quiet_enterWrite hs.lines) ?_) ?_
  · rw [show w.mode = s.mode from rfl, he]
    exact quiet_writeEvents a v ha.lines rfl
  · rw [runPrims_append, show w.mode = s.mode from rfl, he, ← hu]
    exact quiet_enterStandby .write hus.lines.contention

theorem underway_loadOpen (total : Addr) {s : State} (h : s.Receives .idle) (hr : loadRefused s.cfg total = false) :
    Underway (enterWrite s.mode) .loadOpen (sendFrame [] (setTotal total s)) := by
  have hs : (sendFrame [] (setTotal total s)).Settled := settled_of_eq h.settled rfl rfl rfl rfl rfl rfl rfl
  have e : runPrims (enterWrite s.mode) (sendFrame [] (setTotal total s)) = _ := run_enterWrite hs.lines
  exact ⟨e ▸ atMode_linesMatch _ _, e ▸ atMode_clocksLow _ hs.clocks, e ▸ rfl, quiet_enterWrite hs.lines,
    ⟨h.kept.srOe, h.kept.srClr, h.kept.mem⟩, fun _ => h.err, hr⟩

theorem startOverlong_ends {c : RxContext} {s : State} (h : s.Receives c) (hc : s.cs.context = c) :
    Ends (startOverlong s) := by
  cases ho : s.cfg.overlong with
  | lengthOnly => simp only [startOverlong, ho]; exact suspendRaise_ends _ h.settled h.kept
  | capacity =>
    have hl := (overlong_lands h hc).ends
    rw [conclude_self (by rw [overlong_capacity ho]; simp)] at hl
    simpa only [startOverlong, ho] using hl

/-- An instruction started in the context its row is read in ends in a wait, or is refused. -/
theorem start_ends {i : Instr} {c : RxContext} {s : State} (h : s.Receives c) (hc : s.cs.context = c)
    (hi : i.readIn (.rx c) = true) : Ends (start i s) ∨ Refuses (some c) s.cfg (start i s) := by
  have hs := h.settled
  have hk := h.kept
  cases i with
  | read a =>
    obtain rfl : c = .idle := by simpa [Instr.readIn] using hi
    rw [start, startRead]
    split_ifs with ha
    · exact .inr ⟨rfl, addr15_of_addrRefused ha, rfl⟩
    · exact .inl (suspend_ends (underway_readReply a h))
  | write a v =>
    obtain rfl : c = .idle := by simpa [Instr.readIn] using hi
    rw [start, startWrite]
    split_ifs with ha
    · exact .inr ⟨rfl, addr15_of_addrRefused ha, rfl⟩
    · exact .inl (suspend_ends (underway_writeReply a v h))
  | dump =>
    obtain rfl : c = .idle := by simpa [Instr.readIn] using hi
    exact .inl (dumpOn_ends hs.firstChunk ⟨hk.srOe, hk.srClr, hk.mem⟩ h.mode h.err (firstChunk_dumpAt s))
  | load total =>
    obtain rfl : c = .idle := by simpa [Instr.readIn] using hi
    rw [start, startLoad]
    split_ifs with hr
    · exact .inr ⟨rfl, addr15_of_loadRefused hr, rfl⟩
    · exact .inl (suspend_ends (underway_loadOpen total h (by simpa using hr)))
  | reset =>
    obtain rfl : c = .idle := by simpa [Instr.readIn] using hi
    exact .inl (lands_report hs hk h.mode).ends
  | unknown p => exact .inl (suspendRaise_ends _ hs hk)
  | illegalLen64 n => exact .inl (startOverlong_ends h hc)
  | illegalLen128 n => exact .inl (startOverlong_ends h hc)
  | ack =>
    obtain rfl : c = .ackWait := by simpa [Instr.readIn] using hi
    rw [start, startAck]
    split_ifs with hl
    · exact .inl (dumpOn_ends hs.nextChunk ⟨hk.srOe, hk.srClr, hk.mem⟩ h.mode h.err (nextChunk_dumpAt (h.dump rfl) hl))
    · rw [execAck, if_neg hl]
      exact .inl (lands_report hs hk h.mode).ends
  | resetSentinel => exact .inl (suspendRaise_ends _ hs hk)
  | ackwaitUnexpected p => exact .inl (suspendRaise_ends _ hs hk)
  | loadChunk data =>
    obtain rfl : c = .load := by simpa [Instr.readIn] using hi
    exact .inl (programOn_ends data (loadAt_of_receives h).acked)
  | readReply v => cases hi
  | ackOut => cases hi
  | dumpChunk data => cases hi
  | dumpLast data => cases hi

theorem perform_ends (p : Pace) {i : Instr} {c : RxContext} {s : State} (h : s.Receives c) (hc : s.cs.context = c)
    (hi : i.readIn (.rx c) = true) : Ends (perform p i s) ∨ Refuses (some c) s.cfg (perform p i s) := by
  cases p with
  | toByte =>
    rcases exec_executes h hc hi with ⟨t, e, hl⟩ | ⟨e, hm, hx⟩
    · rw [perform, e]; exact .inl hl.ends
    · rw [perform, e]; exact .inr ⟨rfl, hm, hx⟩
  | toWait => exact start_ends h hc hi

/-! ## Moves -/

theorem proceed_ends (p : Pace) (t : DelayName) {rest : List Prim} {k : Task} {s : State} (u : Underway rest k s) :
    Ends (proceed p t rest k s) := by
  have u' := u.runDelay t
  cases p with
  | toByte => exact finish_ends u'.run
  | toWait => exact advance_ends u' (resume_ends u'.run)

theorem bootSequence_underway {s : State} (h : s.Kept) : Underway [] .boot (bootSequence s) := by
  have k := (bootSequence_passed s).kept h
  rw [bootSequence_eq] at k ⊢
  exact ⟨⟨rfl, rfl, rfl, rfl⟩, ⟨rfl, rfl⟩, rfl, quiet_nil.2 (contention_of_input rfl), k, fun _ => rfl, trivial⟩

theorem classify_readIn (c : RxContext) {p : List Byte} (h : p.length ≤ 63) : (classify c p).readIn (.rx c) = true :=
  (classify_faithful c h).2.1

theorem rxPayload_length (s : State) : s.rxPayload.length ≤ 63 := by
  have := s.rx.len.isLt
  rw [State.rxPayload, List.length_take]
  omega

/-- What a receive keeps while it stores bytes: everything but RXQ, RXBUF and where it stands. -/
theorem State.Receives.received {c : RxContext} {s : State} (h : s.Receives c) (q : List Byte) (rx : RxBuffer) (cs : CS) :
    State.Receives c { s with rxq := q, rx := rx, cs := cs } :=
  ⟨settled_of_eq h.settled rfl rfl rfl rfl rfl rfl rfl, h.mode, ⟨h.kept.srOe, h.kept.srClr, h.kept.mem⟩, h.err, h.dump,
    h.load⟩

theorem takeLength_ends (p : Pace) (n : Byte) (q : List Byte) {c : RxContext} {s : State} (h : s.Receives c)
    (hc : s.cs = .len c) : Ends (takeLength p c n { s with rxq := q }) ∨
      Refuses (some c) s.cfg (takeLength p c n { s with rxq := q }) := by
  rcases Nat.lt_or_ge n.toNat 64 with hn | hn
  · by_cases h0 : n = 0
    · subst h0
      exact perform_ends p (h.received q _ (.exec c)) rfl (classify_readIn c (p := []) (Nat.zero_le 63))
    · rw [takeLength_legal p c hn h0]
      have hpos : 0 < n.toNat := Nat.pos_of_ne_zero fun e => h0 (BitVec.eq_of_toNat_eq e)
      exact .inl ⟨_, rfl, (h.received q s.rx (.payload c ⟨n.toNat, hn⟩ 0 false)).inv rfl ⟨hpos, nofun⟩, trivial⟩
  · rw [takeLength_illegal p c hn]
    exact perform_ends p (h.received q s.rx s.cs) (by rw [hc]; rfl) (classifyIllegal_faithful c hn).2.1

theorem takePayload_ends (p : Pace) (b : Byte) (q : List Byte) {c : RxContext} {n : Fin 64} {k : Nat} {d : Bool} {s : State}
    (h : s.Receives c) (hp : CS.PayloadOk s.cfg (.payload c n k d)) :
    Ends (takePayload p c n k d b { s with rxq := q }) ∨ Refuses (some c) s.cfg (takePayload p c n k d b { s with rxq := q }) := by
  rw [takePayload]
  split_ifs with hd hk hk
  · have r := h.received q s.rx s.cs
    exact .inl (raiseOn_ends p .frameCorrupt r.settled r.kept)
  · have r := (h.received q s.rx (.payload c n (k + 1) true)).inv rfl ⟨by omega, fun _ => hp.2 hd⟩
    exact .inl ⟨_, rfl, r, trivial⟩
  · exact perform_ends p (h.received q { buf := s.rx.buf.setIfInBounds k b, len := n } (.exec c)) rfl
      (classify_readIn c (rxPayload_length (frameDone c n k b { s with rxq := q })))
  · have r := (h.received q { buf := s.rx.buf.setIfInBounds k b, len := s.rx.len } (.payload c n (k + 1) false)).inv rfl
      ⟨by omega, nofun⟩
    exact .inl ⟨_, rfl, r, trivial⟩

/-- The block's move from a state of the invariant ends in a wait, or is refused. -/
theorem blockMove_ends (p : Pace) {s : State} (h : MachineInv s) :
    Ends (blockMove p s) ∨ Refuses s.cs.receiving s.cfg (blockMove p s) := by
  cases hc : s.cs with
  | boot =>
    have u := bootSequence_underway h.kept
    cases p with
    | toByte => rw [blockMove_boot_toByte hc]; exact .inl (proceed_ends .toByte .modeSettle u)
    | toWait => rw [blockMove_boot_toWait hc]; exact .inl ⟨_, rfl, u.inv .modeSettle, trivial⟩
  | delay t rest k => rw [blockMove_delay p hc]; exact .inl (proceed_ends p t (h.underway hc))
  | len c =>
    have r := h.receives (c := c) (by rw [hc]; rfl)
    cases hq : s.rxq with
    | nil =>
      rw [blockMove_empty p (c := c) (n := 0) (k := 0) (d := false) (.inl hc) hq]
      exact .inl ⟨s, rfl, h, by rw [hc]; trivial⟩
    | cons n q => rw [blockMove_len p hc hq]; exact takeLength_ends p n q r hc
  | payload c n k d =>
    have r := h.receives (c := c) (by rw [hc]; rfl)
    cases hq : s.rxq with
    | nil => rw [blockMove_empty p (.inr hc) hq]; exact .inl ⟨s, rfl, h, by rw [hc]; trivial⟩
    | cons b q => rw [blockMove_payload p hc hq]; exact takePayload_ends p b q r (hc ▸ h.payload)
  | exec c =>
    rw [blockMove_exec p hc]
    exact perform_ends p (h.receives (by rw [hc]; rfl)) (by rw [hc]; rfl) (classify_readIn c (rxPayload_length s))
  | report =>
    obtain ⟨hs, hm⟩ := h.settled (by rw [hc]; rfl)
    rw [blockMove_report p hc]
    exact .inl (report_ends hs h.kept (by rw [hm, hc]; rfl))

/-- The invariant speaks of the lines, the progress, the optional lines and MEM only. -/
theorem MachineInv.congr {s t : State} (h : MachineInv s) (e : SameLines s t) (hk : t.Kept) (hcs : t.cs = s.cs)
    (hcfg : t.cfg = s.cfg) (herr : t.err = s.err) (hd : t.dump = s.dump) (hl : t.load = s.load) : MachineInv t := by
  have ea : SameLines s.ahead t.ahead := by rw [State.ahead, State.ahead, hcs]; exact runPrims_sameLines _ e
  exact
    { lines := ea.linesMatch h.lines, clocks := ea.clocksLow h.clocks, mode := by rw [ea.mode, hcs, h.mode]
      bus := fun k => by rw [hcs]; exact (runPrims_sameLines _ e).contention.trans (h.bus k)
      srOe := hk.srOe, srClr := hk.srClr, mem := hk.mem, err := fun h1 h2 => herr.trans (h.err (hcs ▸ h1) (hcs ▸ h2))
      payload := by rw [hcs, hcfg]; exact h.payload
      dump := fun k => by simpa only [State.DumpProgress, hd] using h.dump (hcs ▸ k)
      load := fun k => by simpa only [State.LoadProgress, hl, hcfg] using h.load (hcs ▸ k)
      task := fun k hk' => TaskProgress_congr hcfg hd hl (h.task k (hcs ▸ hk')) }

/-- The coming moves and the bytes waiting are no part of the invariant. -/
theorem MachineInv.withSched {s : State} (h : MachineInv s) (ms : List Move) (q : List Byte) :
    MachineInv { s with sched := ms, rxq := q } :=
  h.congr ⟨rfl, rfl, rfl, rfl⟩ ⟨h.srOe, h.srClr, h.mem⟩ rfl rfl rfl rfl rfl

theorem commit_inv {s : State} (h : MachineInv s) : MachineInv (commit s) := by
  have k := (commit_ran s).kept h.kept
  have e := commit_eq s
  exact h.congr (commit_sameLines s) k (by rw [e]) (by rw [e]) (by rw [e]) (by rw [e]) (by rw [e])

/-- A launch meets the invariant, and so does what a loss of power leaves. -/
theorem inv_of_boot {s : State} (hc : s.cs = .boot) (hl : s.LinesMatch) (hk : s.ClocksLow) (hm : s.mode = .standby)
    (he : s.err = .ok) (k : s.Kept) : MachineInv s := by
  have e := ahead_of_task (s := s) (by rw [hc]; rfl)
  exact
    { lines := e.symm ▸ hl, clocks := e.symm ▸ hk, mode := by rw [e, hc]; exact hm
      bus := by rw [hc]; exact quiet_nil.2 hl.contention
      srOe := k.srOe, srClr := k.srClr, mem := k.mem, err := fun _ _ => he, payload := by rw [hc]; trivial
      dump := fun h => (by rw [hc] at h; cases h), load := fun h => (by rw [hc] at h; cases h)
      task := fun j h => (by rw [hc] at h; cases h) }

theorem atReset_held (r : ShiftReg) : r.atReset.oe ≠ some .deasserted ∧ r.atReset.clr ≠ some .asserted := by
  rw [ShiftReg.atReset]
  cases r.oe <;> cases r.clr <;> simp

theorem powerCycle_inv {s : State} (h : MachineInv s) : MachineInv (powerCycle s) := by
  obtain ⟨ho, hc⟩ := atReset_held s.sr
  have hw := powerCycle_wf h.mem
  cases hp : s.pend with
  | none =>
    rw [powerCycle_idle hp] at hw ⊢
    exact inv_of_boot rfl ⟨rfl, rfl, rfl, rfl⟩ ⟨rfl, rfl⟩ rfl rfl ⟨ho, hc, hw⟩
  | some q =>
    rw [powerCycle_busy (i := q.1) (b := q.2) hp] at hw ⊢
    exact inv_of_boot rfl ⟨rfl, rfl, rfl, rfl⟩ ⟨rfl, rfl⟩ rfl rfl ⟨ho, hc, hw⟩

theorem Launch.inv {s : State} (h : Launch s) : MachineInv s :=
  inv_of_boot h.cs ⟨by rw [h.ddir, h.mode]; rfl, by rw [h.ce, h.mode]; rfl, by rw [h.oe, h.mode]; rfl,
    by rw [h.we, h.mode]; rfl⟩ ⟨h.srclk, h.rclk⟩ h.mode h.err ⟨h.srOe, h.srClr, h.mem⟩

/-- A block that waits for a byte is in a receive (41 R180-R182). -/
theorem isWait_of_waiting {s : State} (h : s.waiting = true) : s.cs.IsWait ∧ s.cs.task = none := by
  have h2 := (Bool.and_eq_true_iff.1 h).2
  cases hc : s.cs with
  | len c => exact ⟨trivial, rfl⟩
  | payload c n k d => exact ⟨trivial, rfl⟩
  | boot => rw [hc] at h2; cases h2
  | exec c => rw [hc] at h2; cases h2
  | delay t rest k => rw [hc] at h2; cases h2
  | report => rw [hc] at h2; cases h2

/-- A timeout raises FRAME_CORRUPT in the wait it ends, or does nothing (41 R182, R185). -/
theorem timeout_cases (p : Pace) (s : State) :
    timeout p s = .next s ∨ (s.cs.task = none ∧ timeout p s = raiseOn p .frameCorrupt s) := by
  rw [timeout]
  split_ifs with hw
  · have ht := (isWait_of_waiting hw).2
    cases hc : s.cs with
    | len c =>
      cases s.cfg.lenWait with
      | none => exact .inl rfl
      | bounded => exact .inr ⟨rfl, rfl⟩
    | payload c n k d => exact .inr ⟨rfl, rfl⟩
    | boot => exact .inl rfl
    | exec c => exact .inl rfl
    | delay t rest k => exact .inl rfl
    | report => exact .inl rfl
  · exact .inl rfl

/-- A state of the invariant steps to one, a move of the block to a wait; or it refuses a command of idle context. -/
theorem step_ends {s : State} (h : MachineInv s) :
    (∃ t, step s = .next t ∧ MachineInv t ∧ ((s.sched = [] ∨ ∃ p ms, s.sched = .block p :: ms) → t.cs.IsWait)) ∨
      Refuses s.cs.receiving s.cfg (step s) := by
  cases hs : s.sched with
  | nil =>
    rw [step_nil hs, restMove]
    split_ifs with hw
    · have hwait := (isWait_of_waiting (Bool.and_eq_true_iff.1 hw).1).1
      exact .inl ⟨_, rfl, commit_inv h, fun _ => by rw [commit_eq]; exact hwait⟩
    · rcases blockMove_ends .toByte h with ⟨t, e, hi, hw⟩ | r
      · exact .inl ⟨t, e, hi, fun _ => hw⟩
      · exact .inr r
  | cons m ms =>
    have h' := h.withSched ms s.rxq
    rw [step_cons hs]
    cases m with
    | block p =>
      rcases blockMove_ends p h' with ⟨t, e, hi, hw⟩ | ⟨e, hm, hx⟩
      · exact .inl ⟨t, e, hi, fun _ => hw⟩
      · exact .inr ⟨e, hm, hx⟩
    | hostSend bytes => exact .inl ⟨_, rfl, h.withSched ms (s.rxq ++ bytes), by simp⟩
    | deviceCommit => exact .inl ⟨_, rfl, commit_inv h', by simp⟩
    | rxTimeout p =>
      rcases timeout_cases p { s with sched := ms } with e | ⟨ht, e⟩
      · exact .inl ⟨_, e, h', by simp⟩
      · obtain ⟨t, e', hi, -⟩ := raiseOn_ends p .frameCorrupt (h'.settled ht).1 h'.kept
        exact .inl ⟨t, e.trans e', hi, by simp⟩
    | powerCycle => exact .inl ⟨_, rfl, powerCycle_inv h', by simp⟩

/-- Settles O53: every next state of a step is one of the invariant's. -/
theorem stepKeepsTheInvariant : Obligations.StepKeepsTheInvariant := by
  intro s t h e
  rcases step_ends h with ⟨u, e', hi, -⟩ | r
  · obtain rfl := Host.Outcome.next.inj (e'.symm.trans e)
    exact hi
  · exact absurd (e.symm.trans r.outcome) (by simp)

/-- Settles O54: the two ways a step of a state of the invariant can end. -/
theorem invariantStateSteps : Obligations.InvariantStateSteps := by
  intro s h
  rcases step_ends h with ⟨t, e, -, hw⟩ | ⟨e, hm, hx⟩
  · exact .inl ⟨t, e, hw⟩
  · exact .inr ⟨e, hm, hx⟩

theorem run_succ_refused {n : Nat} {s : State} {r : Refusal} (h : step s = .refused r) :
    Host.Core.run Sys2Proof.core (n + 1) s = .refused r := by rw [run_succ, h]

/-- The invariant along a run: the states of it meet it, and it never faults. -/
theorem run_inv (n : Nat) : ∀ {s : State}, MachineInv s →
    (∀ t, Host.Core.run Sys2Proof.core n s = .next t → MachineInv t) ∧
      ∀ r : Fault, Host.Core.run Sys2Proof.core n s ≠ .fault r := by
  induction n with
  | zero =>
    intro s h
    rw [run_zero]
    exact ⟨fun t e => Host.Outcome.next.inj e ▸ h, nofun⟩
  | succ n ih =>
    intro s h
    rcases step_ends h with ⟨u, e, hi, -⟩ | r
    · rw [run_succ_of e]
      exact ih hi
    · rw [run_succ_refused r.outcome]
      exact ⟨fun t e => (by cases e), fun _ e => (by cases e)⟩

/-- Settles O57: the invariant at IDLE_LEN. -/
theorem iterationStartsInStandbyWithoutError : Obligations.IterationStartsInStandbyWithoutError := by
  intro s t n h e hc
  have r := ((run_inv n h.inv).1 t e).receives (c := .idle) (by rw [hc]; rfl)
  exact ⟨r.mode, r.err⟩

theorem writeByte_fault_iff (a : Addr) (v : Byte) (s : State) :
    s.mode ≠ .write ↔ writeByte a v s = .fault .writeOutsideWriteMode := by
  rcases writeByte_cases a v s with ⟨hm, e⟩ | ⟨hm, -, e⟩ | ⟨hm, -, e⟩
  · simp [hm, e]
  · simp [hm, e]
  · simp [hm, e]

/-- A chunk met outside WRITE mode stops at its first byte to program (40 R143). -/
theorem execLoadChunk_fault (b : Byte) (data : List Byte) {s : State} (hm : s.mode ≠ .write)
    (hd : s.load.ldone.toNat ≠ s.load.ltotal.toNat) : exec (.loadChunk (b :: data)) s = .fault .writeOutsideWriteMode := by
  have e := (writeByte_fault_iff (txByte 0x00 s).load.laddr b (txByte 0x00 s)).1 hm
  rw [exec, execLoadChunk, programBytes, if_neg (by exact hd), e]
  rfl

/-- Settles O56: the mode check is the only fault, and no state of the invariant reaches it. -/
theorem writeFaultIsUnreachable : Obligations.WriteFaultIsUnreachable :=
  ⟨writeByte_fault_iff, fun b data _ hm hd => execLoadChunk_fault b data hm hd, fun _ n r h => (run_inv n h.inv).2 r⟩

end Sys2Proof.Machine
end

section
/-! PROOFS. Resting in the delays changes no outcome (00_scope R14, 10_state R23, 70_reset_and_hazards R316). -/

namespace Sys2Proof.Machine

/-- The outcome `o` of a move to the next wait of any kind comes to `o'` in `n` more such moves; in each delay on the way, the
move to the wait for a byte comes to `o'` at once. -/
inductive Reaches (o' : Host.Outcome State Fault Refusal) : Nat → Host.Outcome State Fault Refusal → Prop where
  | done : Reaches o' 0 o'
  | rest {u : State} {t : DelayName} {rest : List Prim} {k : Task} {n : Nat} (hc : u.cs = .delay t rest k)
      (he : proceed .toByte t rest k u = o') (h : Reaches o' n (proceed .toWait t rest k u)) : Reaches o' (n + 1) (.next u)

/-- `o` comes to `o'` through some number of delays. -/
def Reached (o' o : Host.Outcome State Fault Refusal) : Prop := ∃ n, Reaches o' n o

theorem Reached.refl (o : Host.Outcome State Fault Refusal) : Reached o o := ⟨0, .done⟩

theorem Reached.of_eq {o o' : Host.Outcome State Fault Refusal} (h : o' = o) : Reached o' o := h ▸ Reached.refl o

/-! ## What follows a procedure does not depend on the delay it came from -/

theorem dumpRead_withCs (c : CS) (s : State) : dumpRead { s with cs := c } = { dumpRead s with cs := c } :=
  congrArg (fun t : State => pushChunk t.opd.sampled t) (runPrims_withCs (readEvents s.mode s.dump.daddr) c s)

theorem dumpRead_chlen (s : State) : (dumpRead s).dump.chlen = s.dump.chlen + 1 :=
  congrArg (· + 1) (congrArg DumpScratch.chlen (readByte_busOnly s.dump.daddr s).dump)

theorem dumpLoop_succ (n : Nat) (s : State) :
    dumpLoop (n + 1) s =
      if memSize ≤ s.dump.daddr.toNat then dumpTail s
      else if (dumpRead s).dump.chlen = maxPayload then sendAndWait (dumpRead s).chunkBytes (dumpRead s)
      else dumpLoop n (nextAddress (dumpRead s)) := rfl

theorem dumpLoop_withCs (c : CS) (n : Nat) : ∀ s : State, s.dump.chlen < 63 → 63 - s.dump.chlen < n →
    dumpLoop n { s with cs := c } = dumpLoop n s := by
  induction n with
  | zero => intro s _ h; omega
  | succ n ih =>
    intro s hl hn
    have hlen := dumpRead_chlen s
    rw [dumpLoop_succ, dumpLoop_succ, dumpRead_withCs]
    refine if_congr Iff.rfl ?_ (ite_congr rfl (fun _ => rfl) fun h => ?_)
    · rw [dumpTail, dumpTail]; exact if_congr Iff.rfl rfl rfl
    · have h' : (dumpRead s).dump.chlen ≠ 63 := h
      have e : (nextAddress (dumpRead s)).dump.chlen = s.dump.chlen + 1 := hlen
      exact ih (nextAddress (dumpRead s)) (by omega) (by omega)

theorem loadContinue_withCs (c : CS) (s : State) : loadContinue { s with cs := c } = loadContinue s := by
  rw [loadContinue, loadContinue]
  refine if_congr Iff.rfl rfl ?_
  exact congrArg (fun t : State => { t with cs := .report }) (runPrims_withCs (enterStandby s.mode) c s)

theorem writeByte_withCs (a : Addr) (v : Byte) (c : CS) (s : State) :
    writeByte a v { s with cs := c } = andThen (writeByte a v s) fun t => .next { t with cs := c } := by
  rcases writeByte_cases a v s with ⟨hm, e⟩ | ⟨hm, hr, e⟩ | ⟨hm, hr, e⟩
  · rw [e, andThen_fault, ← writeByte_fault_iff]; exact hm
  · rw [e, andThen_refused, writeByte, if_neg (not_not.2 hm), if_pos hr]
  · rw [e, andThen_next, writeByte, if_neg (not_not.2 hm), if_neg (by simp [hr]), runPrims_withCs]

theorem programBytes_withCs (c : CS) (bs : List Byte) : ∀ s : State,
    programBytes bs { s with cs := c } = andThen (programBytes bs s) fun t => .next { t with cs := c } := by
  induction bs with
  | nil => exact fun _ => rfl
  | cons b bs ih =>
    intro s
    rw [programBytes, programBytes]
    split_ifs with h
    · rfl
    · rw [writeByte_withCs]
      cases e : writeByte s.load.laddr b s with
      | next t =>
        rw [andThen_next, andThen_next, andThen_next, ← ih]
        exact congrArg (fun u => programBytes bs (countByte u)) (Prim.run_withCs (.delay .interWrite) c t)
      | fault r => rfl
      | refused r => rfl

/-- A task goes on from the state its events lead to, not from the control state. -/
theorem finish_withCs {k : Task} (c : CS) {s : State} (h : k = .dumpByte → s.dump.chlen < 63) :
    finish k { s with cs := c } = finish k s := by
  cases k with
  | dumpByte =>
    refine congrArg (fun t => Host.Outcome.next (conclude t)) (ite_congr rfl (fun _ => rfl) fun hne => ?_)
    have hl := h rfl
    have hne' : s.dump.chlen + 1 ≠ 63 := hne
    have e : (nextAddress (pushChunk s.opd.sampled s)).dump.chlen = s.dump.chlen + 1 := rfl
    exact dumpLoop_withCs c (maxPayload + 1) (nextAddress (pushChunk s.opd.sampled s)) (by omega)
      (by simp only [maxPayload]; omega)
  | loadOpen => exact congrArg (fun t => Host.Outcome.next (conclude t)) (loadContinue_withCs c (openLoad s))
  | loadByte bs =>
    have e : programBytes bs (countByte { s with cs := c }) = _ := programBytes_withCs c bs (countByte s)
    rw [finish, finish, e]
    cases programBytes bs (countByte s) with
    | next t => exact congrArg (fun t => Host.Outcome.next (conclude t)) (loadContinue_withCs c t)
    | fault r => rfl
    | refused r => rfl
  | boot => rfl
  | readReply => rfl
  | writeReply => rfl
  | close => rfl

/-! ## Procedures -/

/-- The task after events that lead to `v` comes to `o'`, whichever delay it is entered from, and at once at the other pace. -/
def Resumes (k : Task) (v : State) (o' : Host.Outcome State Fault Refusal) : Prop :=
  ∀ c : CS, finish k { v with cs := c } = o' ∧ Reached o' (resume k { v with cs := c })

/-- A procedure that rests in its first delay, and from there in its next ones. -/
theorem advance_reached {k : Task} {o' : Host.Outcome State Fault Refusal} (m : Nat) :
    ∀ (ps : List Prim) (last : State → Host.Outcome State Fault Refusal) (s : State), ps.length ≤ m →
      Reached o' (last (runPrims ps s)) → Resumes k (runPrims ps s) o' → Reached o' (advance ps k last s) := by
  induction m with
  | zero =>
    intro ps last s hm hl _
    rw [List.length_eq_zero_iff.1 (Nat.le_zero.1 hm)] at hl ⊢
    exact hl
  | succ m ih =>
    intro ps last s hm hl hr
    rcases advance_cases ps k last s with e | ⟨pre, rest, t, rfl, e⟩
    · rw [e]; exact hl
    · rw [List.length_append, List.length_cons] at hm
      set u : State := { runPrims pre s with cs := .delay t rest k } with hu
      have hv : runPrims rest (runDelay t u) =
          { runPrims (pre ++ .delay t :: rest) s with cs := .delay t rest k } := by
        rw [runPrims_append, hu]
        exact (congrArg (runPrims rest) (Prim.run_withCs (.delay t) (.delay t rest k) (runPrims pre s))).trans
          (runPrims_withCs rest _ _)
      obtain ⟨n, hn⟩ := ih rest (resume k) (runDelay t u) (by omega) (by rw [hv]; exact (hr _).2)
        (fun c => by rw [hv]; exact hr c)
      rw [e]
      exact ⟨n + 1, .rest rfl (by rw [proceed, hv]; exact (hr _).1) hn⟩

theorem suspend_reached {ps : List Prim} {k : Task} {s : State} (h : Resumes k (runPrims ps s) (finish k (runPrims ps s))) :
    Reached (finish k (runPrims ps s)) (suspend ps k s) := advance_reached ps.length ps (finish k) s le_rfl (.refl _) h

theorem suspend_close_reached (ps : List Prim) (s : State) :
    Reached (.next (report { runPrims ps s with cs := .report })) (suspend ps .close s) :=
  suspend_reached (k := .close) fun _ => ⟨rfl, .refl _⟩

/-- One more byte of the chunk, given the rest of the loop. -/
theorem resume_dumpByte_reached {s : State}
    (ih : (pushChunk s.opd.sampled s).dump.chlen ≠ maxPayload →
      Reached (.next (conclude (dumpLoop (maxPayload + 1) (nextAddress (pushChunk s.opd.sampled s)))))
        (dumpOn (nextAddress (pushChunk s.opd.sampled s)))) :
    Reached (finish .dumpByte s) (resume .dumpByte s) := by
  rw [finish, resume]
  by_cases h : (pushChunk s.opd.sampled s).dump.chlen = maxPayload
  · simp only [if_pos h]
    exact .of_eq (congrArg Host.Outcome.next (conclude_self (by simp)))
  · simp only [if_neg h]
    exact ih h

/-- The loop of dump(), by the bytes that are left of the chunk. -/
theorem dumpOn_reached (n : Nat) : ∀ s : State, s.dump.chlen < 63 → 63 ≤ s.dump.chlen + n →
    Reached (.next (conclude (dumpLoop (maxPayload + 1) s))) (dumpOn s) := by
  induction n with
  | zero => intro s h1 h2; omega
  | succ n ih =>
    intro s h1 h2
    rw [dumpLoop_succ, dumpOn]
    split_ifs with ha hl
    · exact .refl _
    all_goals
      have hlen := dumpRead_chlen s
      have hv : ∀ c : CS, Reached (finish .dumpByte { readByte s.dump.daddr s with cs := c })
          (resume .dumpByte { readByte s.dump.daddr s with cs := c }) := fun c =>
        resume_dumpByte_reached fun hne => ih _
          (by have hne' : (dumpRead s).dump.chlen ≠ 63 := hne
              show (dumpRead s).dump.chlen < 63; omega)
          (by show 63 ≤ (dumpRead s).dump.chlen + n; omega)
      have hc : (readByte s.dump.daddr s).dump.chlen < 63 := by rw [(readByte_busOnly _ s).dump]; exact h1
      have r := suspend_reached (ps := readEvents s.mode s.dump.daddr) (k := .dumpByte) (s := s) fun c =>
        have e := finish_withCs c (k := .dumpByte) (s := readByte s.dump.daddr s) fun _ => hc
        ⟨e, by have := hv c; rwa [e] at this⟩
    · exact (congrArg (Reached · _) (congrArg (fun t => Host.Outcome.next (conclude t)) (if_pos hl))).mp r
    · have e : (nextAddress (dumpRead s)).dump.chlen = s.dump.chlen + 1 := hlen
      have hne : (dumpRead s).dump.chlen ≠ 63 := hl
      rw [dumpLoop_fuel maxPayload (maxPayload + 1) (nextAddress (dumpRead s)) (by simp only [maxPayload]; omega)
        (by simp only [maxPayload]; omega) (by omega)]
      exact (congrArg (Reached · _) (congrArg (fun t => Host.Outcome.next (conclude t)) (if_neg hl))).mp r

theorem loadOn_reached (s : State) : Reached (.next (conclude (loadContinue s))) (loadOn s) := by
  rw [loadContinue, loadOn]
  split_ifs with h
  · exact .of_eq (congrArg Host.Outcome.next (conclude_self (by simp)))
  · exact suspend_close_reached (enterStandby s.mode) s

/-- The loop over a chunk's bytes, by the bytes. -/
theorem programOn_reached (bs : List Byte) : ∀ s : State,
    Reached (concluded (andThen (programBytes bs s) fun t => .next (loadContinue t))) (programOn bs s) := by
  induction bs with
  | nil => exact loadOn_reached
  | cons b bs ih =>
    intro s
    rw [programOn]
    by_cases hd : s.load.ldone.toNat = s.load.ltotal.toNat
    · rw [programBytes, if_pos hd, if_pos hd, andThen_next]
      exact loadOn_reached s
    · rw [programBytes, if_neg hd, if_neg hd]
      rcases writeByte_cases s.load.laddr b s with ⟨hm, e⟩ | ⟨hm, hr, e⟩ | ⟨hm, hr, e⟩
      · rw [e, if_pos hm]; exact .refl _
      · rw [e, if_neg (not_not.2 hm), if_pos hr]; exact .refl _
      · have hp : runPrims (writeEvents s.load.laddr b ++ [.delay .interWrite]) s =
            runDelay .interWrite (runPrims (writeEvents s.load.laddr b) s) := by rw [runPrims_append]; rfl
        rw [e, if_neg (not_not.2 hm), if_neg (by simp [hr]), andThen_next]
        have r := suspend_reached (ps := writeEvents s.load.laddr b ++ [.delay .interWrite]) (k := .loadByte bs) (s := s)
          fun c =>
            have e := finish_withCs c (k := .loadByte bs)
              (s := runPrims (writeEvents s.load.laddr b ++ [.delay .interWrite]) s) nofun
            ⟨e, by rw [← e]; exact ih _⟩
        rw [hp] at r
        exact r

/-- Every task: the way through the delays comes to where the one move comes. -/
theorem resume_reached {k : Task} {s : State} (h : k = .dumpByte → s.dump.chlen < 63) :
    Reached (finish k s) (resume k s) := by
  cases k with
  | dumpByte =>
    have hl := h rfl
    refine resume_dumpByte_reached fun hne => dumpOn_reached 63 _ ?_ (Nat.le_add_left _ _)
    have hne' : s.dump.chlen + 1 ≠ 63 := hne
    show s.dump.chlen + 1 < 63
    omega
  | loadOpen => exact loadOn_reached (openLoad s)
  | loadByte bs => exact programOn_reached bs (countByte s)
  | boot => exact .refl _
  | readReply => exact .refl _
  | writeReply => exact .refl _
  | close => exact .refl _

theorem resumes_of {k : Task} {v : State} (h : k = .dumpByte → v.dump.chlen < 63) : Resumes k v (finish k v) := by
  intro c
  have e := finish_withCs c h
  exact ⟨e, e ▸ resume_reached (s := { v with cs := c }) h⟩

/-! ## Instructions -/

theorem suspendRaise_reached (e : Err) (s : State) :
    Reached (.next (report (raiseErr e s))) (suspendRaise e s) := suspend_close_reached _ _

theorem startOverlong_reached (s : State) : Reached (.next (conclude (overlong s))) (startOverlong s) := by
  cases ho : s.cfg.overlong with
  | lengthOnly =>
    simp only [startOverlong, ho]
    rw [overlong_lengthOnly ho, conclude_report (raiseErr_cs _ s)]
    exact suspendRaise_reached _ s
  | capacity =>
    simp only [startOverlong, ho]
    exact .of_eq (congrArg Host.Outcome.next (conclude_self (by rw [overlong_capacity ho]; simp)))

theorem writeEvents_mode (a : Addr) (v : Byte) (s : State) : (runPrims (writeEvents a v) s).mode = s.mode := by
  rw [writeEvents_eq, runPrims_append]
  simp [strobeEvents, Prim.run, (runDelay_sameLines _ _).mode, (runPrims_keepsPins (loadAddress_keepsPins a) s).2]

theorem startWrite_reached (a : Addr) (v : Byte) (s : State) :
    Reached (concluded (exec (.write a v) s)) (startWrite a v s) := by
  rw [exec, execWrite, startWrite]
  split_ifs with ha
  · exact .refl _
  · set w : State := { s with opd := (s.opd.setA a).setV v } with hw
    have hr : ¬ addrRefused (toWrite w).cfg a = true := by rw [(toWrite_busOnly _).cfg]; exact ha
    have hmode : (runPrims (writeEvents a v) (toWrite w)).mode = .write := by rw [writeEvents_mode, toWrite_mode]
    have hp : runPrims (enterWrite s.mode ++ writeEvents a v ++ enterStandby .write) w =
        toStandby (runPrims (writeEvents a v) (toWrite w)) := by
      rw [runPrims_append, runPrims_append, toStandby, hmode]; rfl
    rw [writeByte, if_neg (not_not.2 (toWrite_mode w)), if_neg hr, andThen_next, ← hp]
    exact suspend_reached (k := .writeReply) (resumes_of (by simp))

/-- Every instruction: the way through its delays comes to where exec and the report come. -/
theorem start_reached (i : Instr) (s : State) : Reached (concluded (exec i s)) (start i s) := by
  cases i with
  | read a =>
    rw [exec, execRead, start, startRead]
    split_ifs
    · exact .refl _
    · exact suspend_reached (ps := readEvents s.mode a) (k := .readReply) (resumes_of (by simp))
  | write a v => exact startWrite_reached a v s
  | dump => exact dumpOn_reached 63 (firstChunk s) (by simp) (by simp)
  | load total =>
    rw [exec, execLoad, start, startLoad]
    split_ifs
    · exact .refl _
    · exact suspend_reached (ps := enterWrite s.mode) (k := .loadOpen) (resumes_of (by simp))
  | reset => exact .refl _
  | unknown p => exact suspendRaise_reached _ s
  | illegalLen64 n => exact startOverlong_reached s
  | illegalLen128 n => exact startOverlong_reached s
  | ack =>
    rw [start, startAck]
    split_ifs with h
    · rw [exec_ack_full h]
      exact dumpOn_reached 63 (nextChunk s) (by simp) (by simp)
    · exact .refl _
  | resetSentinel => exact suspendRaise_reached _ s
  | ackwaitUnexpected p => exact suspendRaise_reached _ s
  | loadChunk data => exact programOn_reached data (txByte 0x00 s)
  | readReply v => exact .refl _
  | ackOut => exact .refl _
  | dumpChunk data => exact .refl _
  | dumpLast data => exact .refl _

/-! ## Moves -/

theorem raiseOn_reached (e : Err) (s : State) : Reached (raiseOn .toByte e s) (raiseOn .toWait e s) := by
  rw [raiseOn_toByte]
  exact suspendRaise_reached e s

theorem timeout_reached (s : State) : Reached (timeout .toByte s) (timeout .toWait s) := by
  rcases Bool.eq_false_or_eq_true s.waiting with hw | hw
  · simp only [timeout, hw, if_true]
    cases s.cs with
    | len c =>
      cases s.cfg.lenWait with
      | none => exact .refl _
      | bounded => exact raiseOn_reached _ s
    | payload c n k d => exact raiseOn_reached _ s
    | boot => exact .refl _
    | exec c => exact .refl _
    | delay t rest k => exact .refl _
    | report => exact .refl _
  · simp only [timeout, hw]
    exact .refl _

theorem takeLength_reached (c : RxContext) (n : Byte) (s : State) :
    Reached (takeLength .toByte c n s) (takeLength .toWait c n s) := by
  rw [takeLength, takeLength]
  split_ifs
  · exact start_reached _ _
  · exact .refl _
  · exact start_reached _ _

theorem takePayload_reached (c : RxContext) (n : Fin 64) (k : Nat) (d : Bool) (b : Byte) (s : State) :
    Reached (takePayload .toByte c n k d b s) (takePayload .toWait c n k d b s) := by
  rw [takePayload, takePayload]
  split_ifs
  · exact raiseOn_reached _ s
  · exact .refl _
  · exact start_reached _ _
  · exact .refl _

/-- A procedure in a delay goes on through the delays after it. -/
theorem proceed_reached {t : DelayName} {rest : List Prim} {k : Task} {s : State} (h : k = .dumpByte → s.dump.chlen < 63) :
    Reached (proceed .toByte t rest k s) (proceed .toWait t rest k s) := by
  have hd : (runPrims rest (runDelay t s)).dump = s.dump :=
    (runPrims_busOnly rest _).dump.trans (Prim.run_busOnly (.delay t) s).dump
  have hv : k = .dumpByte → (runPrims rest (runDelay t s)).dump.chlen < 63 := fun e => by rw [hd]; exact h e
  exact advance_reached rest.length rest (resume k) (runDelay t s) le_rfl (resume_reached hv) (resumes_of hv)

theorem blockMove_reached {s : State} (h : MachineInv s) : Reached (blockMove .toByte s) (blockMove .toWait s) := by
  cases hc : s.cs with
  | boot =>
    rw [blockMove_boot_toByte hc, blockMove_boot_toWait hc]
    obtain ⟨n, hn⟩ := proceed_reached (t := .modeSettle) (rest := []) (k := .boot) (s := bootSequence s) (by simp)
    exact ⟨n + 1, .rest rfl rfl hn⟩
  | delay t rest k =>
    rw [blockMove_delay _ hc, blockMove_delay _ hc]
    refine proceed_reached fun hk => ?_
    have hp := h.task k (by rw [hc]; rfl)
    rw [hk] at hp
    exact hp.2.1
  | len c =>
    cases hq : s.rxq with
    | nil =>
      have e := fun p => blockMove_empty p (c := c) (n := 0) (k := 0) (d := false) (.inl hc) hq
      rw [e, e]; exact .refl _
    | cons n q => rw [blockMove_len _ hc hq, blockMove_len _ hc hq]; exact takeLength_reached c n _
  | payload c n k d =>
    cases hq : s.rxq with
    | nil =>
      have e := fun p => blockMove_empty p (.inr hc) hq
      rw [e, e]; exact .refl _
    | cons b q => rw [blockMove_payload _ hc hq, blockMove_payload _ hc hq]; exact takePayload_reached c n k d b _
  | exec c => rw [blockMove_exec _ hc, blockMove_exec _ hc]; exact start_reached _ _
  | report => rw [blockMove_report _ hc, blockMove_report _ hc]; exact .refl _

theorem run_one (s : State) : Host.Core.run Sys2Proof.core 1 s = step s := by
  rw [run_succ]
  cases step s <;> rfl

theorem step_block {p : Pace} {ms : List Move} {s : State} (h : s.sched = .block p :: ms) :
    step s = schedOf ms (blockMove p s) := (step_cons h).trans (blockMove_withSched p ms s)

/-- Moves to the next wait, each taken from the schedule, walk the way that `Reaches` says. -/
theorem run_reaches {o o' : Host.Outcome State Fault Refusal} {n : Nat} (h : Reaches o' n o) (ms : List Move) :
    ∀ r : State, step r = schedOf (List.replicate n (.block .toWait) ++ ms) o →
      Host.Core.run Sys2Proof.core (n + 1) r = schedOf ms o' ∧
      ∀ k : Nat, k < n → ∃ (u : State) (t : DelayName) (rest : List Prim) (j : Task),
        Host.Core.run Sys2Proof.core (k + 1) r = .next u ∧ u.cs = .delay t rest j ∧
        step { u with sched := .block .toByte :: ms } = schedOf ms o' := by
  induction h with
  | done =>
    intro r hr
    exact ⟨(run_one r).trans hr, fun k hk => absurd hk (Nat.not_lt_zero k)⟩
  | @rest u t rest j n hc he _ ih =>
    intro r hr
    set q := List.replicate n (Move.block .toWait) ++ ms with hq
    set v : State := u.withSched (.block .toWait :: q) with hv
    have hr' : step r = .next v := by rw [hr, List.replicate_succ]; rfl
    have hvs : step v = schedOf q (proceed .toWait t rest j u) := by
      rw [step_block (ms := q) (by rw [hv]; rfl), hv, blockMove_withSched, blockMove_delay _ hc]
      cases proceed .toWait t rest j u <;> rfl
    obtain ⟨hrun, hmid⟩ := ih v hvs
    refine ⟨(run_succ_of hr').trans hrun, fun k hk => ?_⟩
    cases k with
    | zero =>
      refine ⟨v, t, rest, j, (run_one r).trans hr', hc, ?_⟩
      rw [step_block (p := .toByte) (ms := ms) rfl,
        show ({ v with sched := .block .toByte :: ms } : State) = u.withSched (.block .toByte :: ms) from rfl,
        blockMove_withSched, blockMove_delay _ hc, he]
      cases o' <;> rfl
    | succ k =>
      obtain ⟨w, t', rest', j', hw, hwc, hws⟩ := hmid k (Nat.lt_of_succ_lt_succ hk)
      exact ⟨w, t', rest', j', (run_succ_of hr').trans hw, hwc, hws⟩

/-- Settles O55: a block move or a timeout reaches the same end at both paces, and the schedule is walked accordingly. -/
theorem restingInDelaysChangesNoOutcome : Obligations.RestingInDelaysChangesNoOutcome := by
  intro s ms f h hf
  have key : ∃ g : Pace → Host.Outcome State Fault Refusal, Reached (g .toByte) (g .toWait) ∧
      ∀ p ns, step { s with sched := f p :: ns } = schedOf ns (g p) := by
    rcases hf with rfl | rfl
    · exact ⟨fun p => blockMove p s, blockMove_reached h, fun p ns =>
        (step_cons (m := .block p) (s := { s with sched := .block p :: ns }) rfl).trans (blockMove_withSched p ns s)⟩
    · exact ⟨fun p => timeout p s, timeout_reached s, fun p ns =>
        (step_cons (m := .rxTimeout p) (s := { s with sched := .rxTimeout p :: ns }) rfl).trans (timeout_withSched p ns s)⟩
  obtain ⟨g, ⟨n, hn⟩, hstep⟩ := key
  refine ⟨n, ?_⟩
  rw [hstep .toByte ms]
  exact run_reaches hn ms _ (hstep .toWait _)

end Sys2Proof.Machine
end

section
/-! PROOFS. A whole dump, one chunk per ack (43_bulk R240, R241). -/

namespace Sys2Proof.Machine

theorem chunkFrames_succ (m : Memory) (k : Nat) : chunkFrames m (k + 1) = chunkFrames m k ++ chunkFrame m k := by
  rw [chunkFrames, List.range_succ, List.flatMap_append, List.flatMap_singleton]
  rfl

theorem chunkFrame_length_full (m : Memory) {k : Nat} (h : k < 520) : (chunkFrame m k).length = 64 := by
  rw [chunkFrame, if_pos h, List.length_cons, slice_length]

theorem chunkFrames_length (m : Memory) : ∀ {k : Nat}, k ≤ 520 → (chunkFrames m k).length = 64 * k
  | 0, _ => rfl
  | k + 1, h => by
    rw [chunkFrames_succ, List.length_append, chunkFrames_length m (by omega), chunkFrame_length_full m h]
    omega

/-- 520 frames of 64 bytes and one of 9 (43 R241). -/
theorem chunkFrames_length_dump (m : Memory) : (chunkFrames m dumpChunks).length = 33289 := by
  show (chunkFrames m (520 + 1)).length = 33289
  rw [chunkFrames_succ, List.length_append, chunkFrames_length m le_rfl, chunkFrame, if_neg (lt_irrefl 520),
    List.length_cons, slice_length]

/-- All that the dump that `s` begins has changed by `u`, where its first `k` chunks are sent. -/
structure Streamed (s : State) (k : Nat) (u : State) : Prop where
  settled : u.Settled
  eq : u = { s with
    mode := u.mode, cs := u.cs, pins := u.pins, sr := u.sr, opd := u.opd, rx := u.rx, rxq := u.rxq, dump := u.dump
    txs := s.txs ++ chunkFrames s.mem k }

/-- The dump that `s` begins, where it awaits the reply to chunk `k`. -/
structure AckAwaited (s : State) (k : Nat) (t : State) : Prop where
  streamed : Streamed s (k + 1) t
  cs : t.cs = .len .ackWait
  mode : t.mode = .standby
  full : k < 520 → t.dump.daddr.toNat = 63 * k + 62 ∧ t.dump.chlen = 63
  final : k = 520 → t.dump.chlen = 8

/-- No field of `Streamed` speaks of the receive or of the chunk's counters. -/
theorem Streamed.congr {s u v : State} {k : Nat} (h : Streamed s k u)
    (e : v = { u with cs := v.cs, rx := v.rx, rxq := v.rxq, dump := v.dump }) : Streamed s k v := by
  have hu := h.eq
  rw [e]
  refine ⟨settled_of_eq h.settled rfl rfl rfl rfl rfl rfl rfl, ?_⟩
  rw [hu]

/-- A stretch of dump() from the start of chunk `k` sends it. -/
theorem Streamed.sendChunk {s u t : State} {k : Nat} (h : Streamed s k u) (r : DumpRun u t) (hk : k ≤ 520)
    (hl : u.dump.chlen = 0) (ha : u.dump.daddr.toNat = 63 * k) (hn : s.pend = none) (hp : PSr s.cfg)
    (hr : PReadSettle s.cfg) : AckAwaited s k t ∧ t.rxq = u.rxq := by
  have hu := h.eq
  have hcfg : u.cfg = s.cfg := by rw [hu]
  have hmem : u.mem = s.mem := by rw [hu]
  have htxs : u.txs = s.txs ++ chunkFrames s.mem k := by rw [hu]
  obtain ⟨last, ht, -, hfull, hfinal⟩ := r.chunk h.settled.clocks hk hl ha (by rw [hu]; exact hn) (by rw [hcfg]; exact hp)
    (by rw [hcfg]; exact hr)
  have hs : t.txs = s.txs ++ chunkFrames s.mem (k + 1) := by
    rw [ht, chunkFrames_succ, ← List.append_assoc, ← htxs, ← hmem]
  refine ⟨⟨⟨⟨r.lines, r.clocks⟩, ?_⟩, by rw [ht], by rw [ht], fun h => ?_, fun h => (hfinal h).2.2⟩, by rw [ht]⟩
  · rw [← hs, ht, hu]
  · obtain ⟨hlast, haddr, hlen⟩ := hfull h
    exact ⟨by rw [haddr, hlast], hlen⟩

/-- An ack at rest is executed in the step that takes its length byte. -/
theorem step_ack {s : State} {q : List Byte} (hs : s.sched = []) (hc : s.cs = .len .ackWait) (hq : s.rxq = 0x00 :: q) :
    step s = concluded (exec .ack { s with rx := { buf := s.rx.buf, len := 0 }, rxq := q, cs := .exec .ackWait }) :=
  (step_len hs hc hq).trans (takeLength_zero .toByte .ackWait _)

section
variable {s : State} (hi : MachineInv s) (hs : s.sched = []) (hc : s.cs = .exec .idle) (hx : s.rxPayload = [0x64])
  (hn : s.pend = none) (hp : PSr s.cfg) (hr : PReadSettle s.cfg)
include hs

include hi hc hx hn hp hr in
/-- The step that executes DUMP sends chunk 0. -/
theorem step_dump : ∃ t : State, step s = .next t ∧ AckAwaited s 0 t ∧ t.rxq = s.rxq := by
  obtain ⟨hset, -⟩ := hi.settled (by rw [hc]; rfl)
  have r := execDump_run hset (exec_dump s)
  have h0 : Streamed s 0 (firstChunk s) := ⟨hset.firstChunk, by rw [firstChunk, chunkFrames, List.range_zero,
    List.flatMap_nil, List.append_nil]⟩
  obtain ⟨h, hq⟩ := h0.sendChunk r (Nat.zero_le _) rfl rfl hn hp hr
  refine ⟨_, ?_, h, hq⟩
  rw [step_exec hs hc, hx, show classify .idle [0x64] = .dump from rfl, exec_dump, concluded_next,
    conclude_self (by rw [h.cs]; simp)]

include hn hp hr in
/-- An ack after a full chunk sends the next one. -/
theorem AckAwaited.step_ack_next {u : State} {k : Nat} {q : List Byte} (h : AckAwaited s k u) (hk : k < 520)
    (hq : u.rxq = 0x00 :: q) : ∃ t : State, step u = .next t ∧ AckAwaited s (k + 1) t ∧ t.rxq = q := by
  obtain ⟨haddr, hlen⟩ := h.full hk
  have hsched : u.sched = [] := by rw [h.streamed.eq]; exact hs
  have e := step_ack hsched h.cs hq
  set v : State := { u with rx := { buf := u.rx.buf, len := 0 }, rxq := q, cs := .exec .ackWait } with hv
  have hstr : Streamed s (k + 1) v := h.streamed.congr (by rw [hv])
  have hexec : exec .ack v = .next (dumpLoop (maxPayload + 1) (nextChunk v)) := exec_ack_full hlen
  have r := execAck_run hstr.settled hlen hexec
  have hlt : v.dump.daddr.toNat < memSize := by simp only [memSize, hv]; omega
  obtain ⟨ht, hq'⟩ := (hstr.congr (v := nextChunk v) rfl).sendChunk r (by omega) rfl
    ((addr_succ hlt).trans (by simp only [hv]; omega)) hn hp hr
  refine ⟨_, ?_, ht, hq'⟩
  rw [e, hexec, concluded_next, conclude_self (by rw [ht.cs]; simp)]

/-- The ack after the final chunk ends the dump with nothing to report. -/
theorem AckAwaited.step_ack_last {u : State} {q : List Byte} (h : AckAwaited s 520 u) (he : s.err = .ok)
    (hq : u.rxq = 0x00 :: q) : ∃ t : State, step u = .next t ∧ Streamed s dumpChunks t ∧ t.cs = .len .idle ∧
      t.mode = .standby ∧ t.rxq = q := by
  have hsched : u.sched = [] := by rw [h.streamed.eq]; exact hs
  have herr : u.err = .ok := by rw [h.streamed.eq]; exact he
  have hlen : u.dump.chlen ≠ 63 := by rw [h.final rfl]; decide
  refine ⟨{ u with rx := { buf := u.rx.buf, len := 0 }, rxq := q, cs := .len .idle }, ?_, h.streamed.congr rfl, rfl,
    h.mode, rfl⟩
  rw [step_ack hsched h.cs hq, execAck_end (by exact hlen), concluded_next, conclude_report rfl, report_eq]
  simp only [herr, if_true]

include hi hc hx hn hp hr in
/-- With k acks at the head of RXQ, k + 1 steps send chunks 0..k. -/
theorem run_dump : ∀ (k : Nat) (rest : List Byte), k ≤ 520 → s.rxq = List.replicate k 0x00 ++ rest →
    ∃ t : State, Host.Core.run Sys2Proof.core (k + 1) s = .next t ∧ AckAwaited s k t ∧ t.rxq = rest := by
  intro k
  induction k with
  | zero =>
    intro rest _ hq
    obtain ⟨t, e, h, ht⟩ := step_dump hi hs hc hx hn hp hr
    exact ⟨t, run_succ_of e, h, ht.trans hq⟩
  | succ k ih =>
    intro rest hk hq
    obtain ⟨u, e, h, hu⟩ := ih (0x00 :: rest) (by omega) (by rw [hq, List.replicate_succ', List.append_assoc]; rfl)
    obtain ⟨t, e', ht, hq'⟩ := h.step_ack_next hs hn hp hr hk hu
    exact ⟨t, (run_add e).trans (run_succ_of e'), ht, hq'⟩

end

/-- Settles O58: chunk 0 by DUMP, one more by each ack. -/
theorem dumpStreamsOneChunkPerAck : Obligations.DumpStreamsOneChunkPerAck := by
  intro k rest s hi hs hc hx hn hp hr hk hq
  obtain ⟨t, e, h, ht⟩ := run_dump hi hs hc hx hn hp hr k rest hk hq
  have herr : s.err = .ok := hi.err (by rw [hc]; simp) (by rw [hc]; exact nofun)
  have eq := h.streamed.eq
  exact ⟨t, e, h.cs, h.mode, by rw [eq], ht, by rw [eq], by rw [eq]; exact herr⟩

/-- Settles O59: 520 acks stream the whole device, and one more ends the dump. -/
theorem completeDumpSendsTheWholeDevice : Obligations.CompleteDumpSendsTheWholeDevice := by
  intro rest s hi hs hc hx hn hp hr hq
  have herr : s.err = .ok := hi.err (by rw [hc]; simp) (by rw [hc]; exact nofun)
  have hq' : s.rxq = List.replicate 520 0x00 ++ 0x00 :: rest := by
    rw [hq, show dumpChunks = 520 + 1 from rfl, List.replicate_succ', List.append_assoc]
    rfl
  obtain ⟨u, e, h, hu⟩ := run_dump hi hs hc hx hn hp hr 520 _ le_rfl hq'
  obtain ⟨t, e', ht, hcs, hm, hrest⟩ := h.step_ack_last hs herr hu
  have eq := ht.eq
  have htxs : t.txs = s.txs ++ chunkFrames s.mem dumpChunks := by rw [eq]
  exact ⟨t, (run_add (n := 1) e).trans (run_succ_of e'), hcs, by rw [eq]; exact herr, by rw [eq], hm, hrest, by rw [eq], htxs,
    by rw [htxs, List.length_append, chunkFrames_length_dump]⟩

end Sys2Proof.Machine
end

section
/-! PROOFS. A whole load, however chunked (43_bulk R243-R245). -/

namespace Sys2Proof.Machine

theorem program_append (d : List Byte) : ∀ (w : List Byte) (a : Addr) (m : Memory),
    Memory.program (w ++ d) a m = Memory.program d (a + BitVec.ofNat 16 w.length) (Memory.program w a m)
  | [], a, m => by rw [List.nil_append, List.length_nil, BitVec.add_zero]; rfl
  | b :: w, a, m => by
    rw [List.cons_append, Memory.program, program_append d w, List.length_cons, add_ofNat_succ]
    rfl

theorem idx_ofNat_eq_iff (n : Nat) (i : CellIndex) :
    i = idx (BitVec.ofNat 16 n) ↔ n % 32768 = i.toNat := by
  rw [← BitVec.toNat_inj, idx_toNat, BitVec.toNat_ofNat]
  omega

/-- One more byte of a load is the last one programmed in its cell. -/
theorem loadedByte_concat (m : Memory) (d : List Byte) (b : Byte) (h : d.length < 65536) (i : CellIndex) :
    loadedByte m (d ++ [b]) i = if i = idx (BitVec.ofNat 16 d.length) then b else loadedByte m d i := by
  have hi := i.isLt
  simp only [loadedByte, idx_ofNat_eq_iff, memSize]
  have hlt : ∀ {k : Nat}, k < d.length → (d ++ [b])[k]? = d[k]? := fun hk => List.getElem?_append_left hk
  have hgt : ∀ {k : Nat}, d.length < k → (d ++ [b])[k]? = none := fun hk => List.getElem?_eq_none (by simp; omega)
  have hnone : ∀ {k : Nat}, d.length ≤ k → d[k]? = none := fun hk => List.getElem?_eq_none hk
  rcases lt_trichotomy d.length (i.toNat + 32768) with h1 | h1 | h1
  · rw [hgt h1, hnone h1.le]
    rcases lt_trichotomy d.length i.toNat with h2 | h2 | h2
    · rw [if_neg (by omega), hgt h2, hnone h2.le]
    · rw [if_pos (by omega), ← h2, List.getElem?_concat_length]
      rfl
    · rw [if_neg (by omega), hlt h2]
  · rw [if_pos (by omega), ← h1, List.getElem?_concat_length]
  · rw [if_neg (by omega), hlt h1, hlt (by omega)]

/-- A list programmed from address 0 leaves in each cell the last byte programmed there (43 R245). -/
theorem read_program {m : Memory} (h : Memory.wf m = true) (i : CellIndex) (data : List Byte) :
    data.length < 65536 → Memory.read (Memory.program data 0 m) i = loadedByte m data i := by
  induction data using List.reverseRecOn with
  | nil => exact fun _ => rfl
  | append_singleton d b ih =>
    intro hl
    rw [List.length_append, List.length_singleton] at hl
    rw [program_append, loadedByte_concat m d b (by omega), ← ih (by omega)]
    rw [show (0 : Addr) + BitVec.ofNat 16 d.length = BitVec.ofNat 16 d.length from BitVec.zero_add _]
    exact read_write (program_wf d 0 m h) _ _ _

/-- All that the load which waits in `s` has changed by `u`, where `c` chunks are acked and the bytes `w` programmed. -/
structure Loaded (s : State) (c : Nat) (w : List Byte) (u : State) : Prop where
  settled : u.Settled
  eq : u = { s with
    mode := u.mode, cs := u.cs, pins := u.pins, sr := u.sr, rx := u.rx, rxq := u.rxq
    load := { laddr := BitVec.ofNat 16 w.length, ltotal := s.load.ltotal, ldone := BitVec.ofNat 32 w.length }
    mem := Memory.program w 0 s.mem
    txs := s.txs ++ List.replicate c 0x00 }

/-- No field of `Loaded` speaks of the receive. -/
theorem Loaded.congr {s u v : State} {c : Nat} {w : List Byte} (h : Loaded s c w u)
    (e : v = { u with cs := v.cs, rx := v.rx, rxq := v.rxq }) : Loaded s c w v := by
  have hu := h.eq
  rw [e]
  refine ⟨settled_of_eq h.settled rfl rfl rfl rfl rfl rfl rfl, ?_⟩
  rw [hu]

theorem Loaded.ldone {s u : State} {c : Nat} {w : List Byte} (h : Loaded s c w u) (hw : w.length < 65536) :
    u.load.ldone.toNat = w.length := by
  rw [h.eq]
  exact (BitVec.toNat_ofNat _ _).trans (Nat.mod_eq_of_lt (by omega))

/-- A load whose bytes `w` are not all of them is in progress. -/
theorem Loaded.progress {s u : State} {c : Nat} {w : List Byte} (h : Loaded s c w u)
    (hw : w.length < s.load.ltotal.toNat) (hr : loadRefused s.cfg s.load.ltotal = false) : u.LoadProgress := by
  have hb := s.load.ltotal.isLt
  have hd := h.ldone (by omega)
  have ht : u.load.ltotal = s.load.ltotal := by rw [h.eq]
  have ha : u.load.laddr.toNat = w.length := by
    rw [h.eq]
    exact (BitVec.toNat_ofNat _ _).trans (Nat.mod_eq_of_lt (by omega))
  exact ⟨by rw [hd, ht]; exact hw, by rw [ha, hd], by rw [ht, h.eq]; exact hr⟩

section
variable {s : State} (hs : s.sched = []) (hn : s.pend = none) (hp : PSr s.cfg) (hw : PWrite s.cfg) (hpc : PPacing s.cfg)
  (hr : loadRefused s.cfg s.load.ltotal = false)
include hn hp hw hpc hr

/-- A chunk is acked, and its bytes that the load still takes are programmed. -/
theorem Loaded.exec_chunk {u : State} {c : Nat} {w data : List Byte} (h : Loaded s c w u) (hm : u.mode = .write)
    (hlt : w.length < s.load.ltotal.toNat) (hl : data.length ≤ 63) :
    ∃ t : State, exec (.loadChunk data) u = .next t ∧
      Loaded s (c + 1) (w ++ data.take (s.load.ltotal.toNat - w.length)) t ∧ t.rxq = u.rxq ∧
      (w.length + data.length < s.load.ltotal.toNat → t.cs = .len .load ∧ t.mode = .write) ∧
      (s.load.ltotal.toNat ≤ w.length + data.length → t.cs = .report ∧ t.mode = .standby) := by
  have hb := s.load.ltotal.isLt
  have e := h.eq
  have hcfg : u.cfg = s.cfg := by rw [e]
  obtain ⟨t, hexec, ht, -, -, hgo, hend⟩ := loadChunkProgramsItsBytes data u h.settled.lines h.settled.clocks hm
    (by rw [e]; exact hn) (by rw [hcfg]; exact hp) (by rw [hcfg]; exact hw) (by rw [hcfg]; exact hpc)
    (h.progress hlt hr) hl
  set d := data.take (s.load.ltotal.toNat - w.length) with hd
  have hdl : d.length = min data.length (s.load.ltotal.toNat - w.length) := by rw [hd, List.length_take, min_comm]
  have htake : data.take d.length = d := by rw [hdl, min_comm, ← List.take_eq_take_min]
  rw [h.ldone (by omega), show u.load.ltotal = s.load.ltotal by rw [e], ← hdl] at ht hgo hend
  rw [htake] at ht
  have hload : t.load = { laddr := BitVec.ofNat 16 (w ++ d).length, ltotal := s.load.ltotal
                          ldone := BitVec.ofNat 32 (w ++ d).length } := by
    rw [ht, e, List.length_append, BitVec.ofNat_add, BitVec.ofNat_add]
  have hmem : t.mem = Memory.program (w ++ d) 0 s.mem := by
    rw [ht, e, program_append]
    exact congrArg (Memory.program d · _) (BitVec.zero_add _).symm
  have htxs : t.txs = s.txs ++ List.replicate (c + 1) 0x00 := by
    rw [ht, e, List.replicate_succ', ← List.append_assoc]
  refine ⟨t, hexec, ⟨exec_settled h.settled hexec, ?_⟩, by rw [ht], fun h => hgo (by omega), fun h => hend (by omega)⟩
  rw [← hload, ← hmem, ← htxs, ht, e]

include hs

/-- A chunk at the head of RXQ is received, and the step of its last byte executes it. -/
theorem Loaded.run_chunk {u : State} {c : Nat} {w data rest : List Byte} (h : Loaded s c w u) (hc : u.cs = .len .load)
    (hm : u.mode = .write) (hlt : w.length < s.load.ltotal.toNat) (hl : data.length ≤ 63)
    (hq : u.rxq = frame data ++ rest) :
    ∃ t : State, Host.Core.run Sys2Proof.core (data.length + 1) u = .next (conclude t) ∧
      Loaded s (c + 1) (w ++ data.take (s.load.ltotal.toNat - w.length)) t ∧ t.rxq = rest ∧
      (w.length + data.length < s.load.ltotal.toNat → t.cs = .len .load ∧ t.mode = .write) ∧
      (s.load.ltotal.toNat ≤ w.length + data.length → t.cs = .report ∧ t.mode = .standby) := by
  obtain ⟨v, x, hrun, hstep, hx, -, -⟩ := run_receive .load (by rw [h.eq]; exact hs) hc hl hq
  obtain ⟨t, hexec, ht, hrest, hgo⟩ := (h.congr (v := x) (by rw [hx])).exec_chunk hn hp hw hpc hr
    (by rw [hx]; exact hm) hlt hl
  have e : step v = .next (conclude t) := by
    rw [hstep, show classify .load data = .loadChunk data from rfl, hexec, concluded_next]
  exact ⟨t, (run_add hrun).trans (run_succ_of e), ht, by rw [hrest, hx], hgo⟩

/-- Chunks that do not reach LTOTAL are all programmed, and the load waits for the next. -/
theorem run_chunks (rest : List Byte) : ∀ (chunks : List (List Byte)) (c : Nat) (w : List Byte) (u : State),
    Loaded s c w u → u.cs = .len .load → u.mode = .write → (∀ d ∈ chunks, d.length ≤ 63) →
    (w ++ chunks.flatten).length < s.load.ltotal.toNat → u.rxq = chunks.flatMap frame ++ rest →
    ∃ (n : Nat) (t : State), Host.Core.run Sys2Proof.core n u = .next t ∧
      Loaded s (c + chunks.length) (w ++ chunks.flatten) t ∧ t.cs = .len .load ∧ t.mode = .write ∧ t.rxq = rest := by
  intro chunks
  induction chunks with
  | nil =>
    intro c w u h hc hm _ _ hq
    exact ⟨0, u, rfl, by rw [List.flatten_nil, List.append_nil]; exact h, hc, hm, hq⟩
  | cons d ds ih =>
    intro c w u h hc hm hl hlt hq
    rw [List.flatten_cons, ← List.append_assoc] at hlt
    have hlt' : (w ++ d).length < s.load.ltotal.toNat :=
      lt_of_le_of_lt (by rw [List.length_append (as := w ++ d)]; exact Nat.le_add_right _ _) hlt
    rw [List.length_append] at hlt'
    rw [List.flatMap_cons, List.append_assoc] at hq
    obtain ⟨v, hrun, hv, hvq, hgo, -⟩ := h.run_chunk hs hn hp hw hpc hr hc hm (by omega) (hl d List.mem_cons_self) hq
    obtain ⟨hvc, hvm⟩ := hgo hlt'
    rw [conclude_self (by rw [hvc]; simp)] at hrun
    rw [List.take_of_length_le (by omega)] at hv
    obtain ⟨n, t, hrun', ht, k⟩ := ih (c + 1) (w ++ d) v hv hvc hvm (fun e he => hl e (List.mem_cons_of_mem _ he)) hlt hvq
    rw [List.append_assoc, Nat.add_assoc, Nat.add_comm 1] at ht
    exact ⟨_, t, (run_add hrun).trans hrun', by rw [List.flatten_cons, List.length_cons]; exact ht, k⟩

end

/-- Settles O60: the chunks before the last, and the last, which reaches LTOTAL and ends the load with nothing to report. -/
theorem completeLoadProgramsExactlyTheTotal : Obligations.CompleteLoadProgramsExactlyTheTotal := by
  intro chunks last rest s hi hs hc h0 hn hp hw hpc hl hlast hlt hge hq
  obtain ⟨hset, hmode⟩ := hi.settled (by rw [hc]; rfl)
  rw [hc] at hmode
  obtain ⟨-, haddr, hr⟩ := hi.load (by rw [hc]; rfl)
  have herr : s.err = .ok := hi.err (by rw [hc]; simp) (by rw [hc]; exact nofun)
  have hladdr : s.load.laddr = 0 := BitVec.eq_of_toNat_eq (by rw [haddr, h0]; rfl)
  have hstart : Loaded s 0 [] s := by
    refine ⟨hset, ?_⟩
    have hload : s.load = { laddr := 0#16, ltotal := s.load.ltotal, ldone := 0#32 } :=
      congrArg₂ (fun a d => LoadScratch.mk a s.load.ltotal d) hladdr h0
    rw [List.replicate_zero, List.append_nil, List.length_nil, Memory.program, ← hload]
  rw [List.append_assoc] at hq
  obtain ⟨n, u, hrun, hu, huc, hum, huq⟩ := run_chunks hs hn hp hw hpc hr _ chunks 0 [] s hstart hc hmode hl hlt hq
  rw [List.nil_append, Nat.zero_add] at hu
  obtain ⟨t, hrun', ht, htq, -, hend⟩ := hu.run_chunk hs hn hp hw hpc hr huc hum hlt hlast huq
  obtain ⟨htc, htm⟩ := hend hge
  have e := ht.eq
  have hterr : t.err = .ok := by rw [e]; exact herr
  have hb := s.load.ltotal.isLt
  have hlen : (chunks.flatten ++ last.take (s.load.ltotal.toNat - chunks.flatten.length)).length = s.load.ltotal.toNat := by
    rw [List.length_append, List.length_take]; omega
  rw [conclude_report htc, report_eq] at hrun'
  simp only [hterr, if_true] at hrun'
  refine ⟨_, _, (run_add hrun).trans hrun', rfl, rfl, by rw [e], htm, htq, by rw [e]; exact hn, by rw [e],
    (ht.ldone (by omega)).trans hlen, fun i => ?_⟩
  rw [List.take_append, List.take_of_length_le hlt.le, ← read_program hi.mem i _ (by omega)]
  rw [e]

end Sys2Proof.Machine
end

section
/-! PROOFS. EEPROM contents steer nothing (20_memory R81). `Alike` relates two states that differ in EEPROM contents and in
what can hold a cell: every operation keeps it, and answers alike. -/

namespace Sys2Proof.Machine

/-- The state with other EEPROM contents, byte sampled, CHUNK and bytes sent. -/
def State.withCells (s : State) (m : Memory) (v : Byte) (c : Vector Byte 63) (x : List Byte) : State :=
  { s with
    mem := m, opd := s.opd.setSampled v, dump := { chunk := c, chlen := s.dump.chlen, daddr := s.dump.daddr }, txs := x }

/-- `u` is `s` but for the EEPROM contents and the values of the bytes read from them, of which as many are sent. -/
def Alike (s u : State) : Prop :=
  ∃ (m : Memory) (v : Byte) (c : Vector Byte 63) (x : List Byte), x.length = s.txs.length ∧ u = s.withCells m v c x

/-- Both outcomes are alike next states, or the same stop. -/
inductive AlikeOutcomes : Host.Outcome State Fault Refusal → Host.Outcome State Fault Refusal → Prop
  | next {s u : State} (h : Alike s u) : AlikeOutcomes (.next s) (.next u)
  | fault (r : Fault) : AlikeOutcomes (.fault r) (.fault r)
  | refused (r : Refusal) : AlikeOutcomes (.refused r) (.refused r)

/-- Two tests of what is the same in both go the same way. -/
theorem Alike.ite {p q : Prop} [Decidable p] [Decidable q] {a b c d : State} (e : p ↔ q) (h : Alike a b) (k : Alike c d) :
    Alike (if p then a else c) (if q then b else d) := by
  by_cases hp : p
  · rw [if_pos hp, if_pos (e.1 hp)]
    exact h
  · rw [if_neg hp, if_neg (mt e.2 hp)]
    exact k

theorem AlikeOutcomes.ite {p q : Prop} [Decidable p] [Decidable q] {a b c d : Host.Outcome State Fault Refusal}
    (e : p ↔ q) (h : AlikeOutcomes a b) (k : AlikeOutcomes c d) :
    AlikeOutcomes (if p then a else c) (if q then b else d) := by
  by_cases hp : p
  · rw [if_pos hp, if_pos (e.1 hp)]
    exact h
  · rw [if_neg hp, if_neg (mt e.2 hp)]
    exact k

theorem AlikeOutcomes.andThen {a b : Host.Outcome State Fault Refusal} {f : State → Host.Outcome State Fault Refusal}
    (h : AlikeOutcomes a b) (k : ∀ {s u : State}, Alike s u → AlikeOutcomes (f s) (f u)) :
    AlikeOutcomes (andThen a f) (andThen b f) := by
  cases h with
  | next h => exact k h
  | fault r => exact .fault r
  | refused r => exact .refused r

section
variable {s u : State} (h : Alike s u)
include h

/-! What the block goes by is the same in both. -/

theorem Alike.cfg : u.cfg = s.cfg := by obtain ⟨m, v, c, x, hx, rfl⟩ := h; rfl

theorem Alike.mode : u.mode = s.mode := by obtain ⟨m, v, c, x, hx, rfl⟩ := h; rfl

theorem Alike.cs : u.cs = s.cs := by obtain ⟨m, v, c, x, hx, rfl⟩ := h; rfl

theorem Alike.load : u.load = s.load := by obtain ⟨m, v, c, x, hx, rfl⟩ := h; rfl

theorem Alike.rx : u.rx = s.rx := by obtain ⟨m, v, c, x, hx, rfl⟩ := h; rfl

theorem Alike.rxq : u.rxq = s.rxq := by obtain ⟨m, v, c, x, hx, rfl⟩ := h; rfl

theorem Alike.pend : u.pend = s.pend := by obtain ⟨m, v, c, x, hx, rfl⟩ := h; rfl

theorem Alike.sched : u.sched = s.sched := by obtain ⟨m, v, c, x, hx, rfl⟩ := h; rfl

theorem Alike.chlen : u.dump.chlen = s.dump.chlen := by obtain ⟨m, v, c, x, hx, rfl⟩ := h; rfl

theorem Alike.daddr : u.dump.daddr = s.dump.daddr := by obtain ⟨m, v, c, x, hx, rfl⟩ := h; rfl

/-- An update that neither reads nor writes what may differ. -/
theorem Alike.map (f : State → State)
    (hf : ∀ (t : State) (m : Memory) (v : Byte) (c : Vector Byte 63) (x : List Byte),
      f (t.withCells m v c x) = (f t).withCells m v c x := by intros; rfl)
    (hx : (f s).txs = s.txs := by rfl) : Alike (f s) (f u) := by
  obtain ⟨m, v, c, x, hl, rfl⟩ := h
  exact ⟨m, v, c, x, by rw [hx, hl], hf s m v c x⟩

/-- One byte more is sent, or one frame of the same length. -/
theorem Alike.send {p q : List Byte} (hl : q.length = p.length) :
    Alike { s with txs := s.txs ++ p } { u with txs := u.txs ++ q } := by
  obtain ⟨m, v, c, x, hx, rfl⟩ := h
  exact ⟨m, v, c, x ++ q, by simp only [List.length_append, hx, hl], rfl⟩

end

theorem AlikeOutcomes.of_next {s : State} {o : Host.Outcome State Fault Refusal} (h : AlikeOutcomes (.next s) o) :
    ∃ u : State, o = .next u ∧ Alike s u := by
  cases h with
  | next h => exact ⟨_, rfl, h⟩

/-! ## Events -/

section
variable {s u : State} (h : Alike s u)
include h

theorem strobe_alike : Alike (strobe s) (strobe u) := by
  obtain ⟨m, v, c, x, hx, rfl⟩ := h
  simp only [strobe, State.withCells]
  split
  · exact Alike.ite Iff.rfl ⟨m, v, c, x, hx, rfl⟩ ⟨m, v, c, x, hx, rfl⟩
  · exact ⟨_, v, c, x, hx, rfl⟩

theorem commit_alike : Alike (commit s) (commit u) := by
  obtain ⟨m, v, c, x, hx, rfl⟩ := h
  simp only [commit, State.withCells]
  split
  · exact ⟨m, v, c, x, hx, rfl⟩
  · exact ⟨_, v, c, x, hx, rfl⟩

theorem pacingDelay_alike : Alike (pacingDelay s) (pacingDelay u) := by
  have hc := commit_alike h
  have hd := h.map State.drawn
  have hdc := commit_alike hd
  obtain ⟨m, v, c, x, hx, rfl⟩ := h
  simp only [pacingDelay, State.withCells]
  split
  · exact ⟨m, v, c, x, hx, rfl⟩
  · exact Alike.ite Iff.rfl hc (Alike.ite Iff.rfl hdc hd)

theorem runDelay_alike (t : DelayName) : Alike (runDelay t s) (runDelay t u) := by
  cases t with
  | interWrite => exact pacingDelay_alike h
  | srHalf | modeSettle | readSettle | wrSetup | weLow | wrHold => exact h

theorem srclkRise_alike : Alike (srclkRise s) (srclkRise u) := by
  obtain ⟨m, v, c, x, hx, rfl⟩ := h
  exact Alike.ite Iff.rfl ⟨m, v, c, x, hx, rfl⟩ ⟨m, v, c, x, hx, rfl⟩

theorem rclkRise_alike : Alike (rclkRise s) (rclkRise u) := by
  obtain ⟨m, v, c, x, hx, rfl⟩ := h
  exact Alike.ite Iff.rfl ⟨m, v, c, x, hx, rfl⟩ ⟨m, v, c, x, hx, rfl⟩

/-- Only the byte sampled tells the contents. -/
theorem sampleD_alike : Alike (sampleD s) (sampleD u) := by
  obtain ⟨m, v, c, x, hx, rfl⟩ := h
  exact Alike.ite Iff.rfl ⟨m, _, c, x, hx, rfl⟩ (Alike.ite Iff.rfl ⟨m, _, c, x, hx, rfl⟩ ⟨m, _, c, x, hx, rfl⟩)

theorem Prim.run_alike (p : Prim) : Alike (p.run s) (p.run u) := by
  cases p with
  | sampleD => exact sampleD_alike h
  | delay t => exact runDelay_alike h t
  | setWE l =>
    obtain ⟨m, v, c, x, hx, rfl⟩ := h
    exact Alike.ite Iff.rfl (strobe_alike ⟨m, v, c, x, hx, rfl⟩) ⟨m, v, c, x, hx, rfl⟩
  | setSRCLK b =>
    obtain ⟨m, v, c, x, hx, rfl⟩ := h
    exact Alike.ite Iff.rfl (srclkRise_alike ⟨m, v, c, x, hx, rfl⟩) ⟨m, v, c, x, hx, rfl⟩
  | setRCLK b =>
    obtain ⟨m, v, c, x, hx, rfl⟩ := h
    exact Alike.ite Iff.rfl (rclkRise_alike ⟨m, v, c, x, hx, rfl⟩) ⟨m, v, c, x, hx, rfl⟩
  | setDir d => exact h.map _
  | setD v => exact h.map _
  | setCE l => exact h.map _
  | setOE l => exact h.map _
  | setSER b => exact h.map _
  | setMode m => exact h.map _

end

theorem runPrims_alike (ps : List Prim) : ∀ {s u : State}, Alike s u → Alike (runPrims ps s) (runPrims ps u) := by
  induction ps with
  | nil => exact id
  | cons p ps ih => exact fun h => ih (p.run_alike h)

/-! ## Instructions -/

section
variable {s u : State} (h : Alike s u)
include h

theorem toStandby_alike : Alike (toStandby s) (toStandby u) := by
  rw [toStandby, toStandby, h.mode]
  exact runPrims_alike _ h

theorem toWrite_alike : Alike (toWrite s) (toWrite u) := by
  rw [toWrite, toWrite, h.mode]
  exact runPrims_alike _ h

theorem raiseErr_alike (e : Err) : Alike (raiseErr e s) (raiseErr e u) :=
  (toStandby_alike (h.map fun t => { t with err := e })).map fun t => { t with cs := .report }

theorem report_alike : Alike (report s) (report u) := by
  obtain ⟨m, v, c, x, hx, rfl⟩ := h
  rw [report_eq, report_eq]
  exact ⟨m, v, c, x, hx, rfl⟩

theorem conclude_alike : Alike (conclude s) (conclude u) := by
  by_cases hc : s.cs = .report
  · rw [conclude_report hc, conclude_report (h.cs.trans hc)]
    exact report_alike h
  · rw [conclude_self hc, conclude_self (by rw [h.cs]; exact hc)]
    exact h

theorem sendFrame_alike {p q : List Byte} (hl : q.length = p.length) : Alike (sendFrame p s) (sendFrame q u) :=
  h.send (by rw [frame, frame, List.length_cons, List.length_cons, hl])

theorem sendAndWait_alike {p q : List Byte} (hl : q.length = p.length) : Alike (sendAndWait p s) (sendAndWait q u) :=
  (sendFrame_alike h hl).map fun t => { t with cs := .len .ackWait }

/-- CHUNK is sent up to CHLEN, whatever it holds. -/
theorem sendChunk_alike : Alike (sendAndWait s.chunkBytes s) (sendAndWait u.chunkBytes u) :=
  sendAndWait_alike h (by simp [State.chunkBytes, h.chlen])

theorem pushChunk_alike (b b' : Byte) : Alike (pushChunk b s) (pushChunk b' u) := by
  obtain ⟨m, v, c, x, hx, rfl⟩ := h
  exact ⟨m, v, _, x, hx, rfl⟩

theorem readByte_alike (a : Addr) : Alike (readByte a s) (readByte a u) := by
  rw [readByte, readByte, h.mode]
  exact runPrims_alike _ h

theorem dumpRead_alike : Alike (dumpRead s) (dumpRead u) := by
  rw [dumpRead, dumpRead, h.daddr]
  exact pushChunk_alike (readByte_alike h _) _ _

theorem dumpTail_alike : Alike (dumpTail s) (dumpTail u) :=
  Alike.ite (by rw [h.chlen]) (sendChunk_alike h) (h.map fun t => { t with cs := .report })

end

theorem dumpLoop_alike (n : Nat) : ∀ {s u : State}, Alike s u → Alike (dumpLoop n s) (dumpLoop n u) := by
  induction n with
  | zero => exact id
  | succ n ih =>
    intro s u h
    have hr := dumpRead_alike h
    exact Alike.ite (by rw [h.daddr]) (dumpTail_alike h)
      (Alike.ite (by rw [hr.chlen]) (sendChunk_alike hr) (ih (hr.map nextAddress)))

section
variable {s u : State} (h : Alike s u)
include h

theorem writeByte_alike (a : Addr) (v : Byte) : AlikeOutcomes (writeByte a v s) (writeByte a v u) :=
  AlikeOutcomes.ite (by rw [h.mode]) (.fault _)
    (AlikeOutcomes.ite (by rw [h.cfg]) (.refused _) (.next (runPrims_alike _ h)))

theorem loadContinue_alike : Alike (loadContinue s) (loadContinue u) :=
  Alike.ite (by rw [h.load]) (h.map fun t => { t with cs := .len .load })
    ((toStandby_alike h).map fun t => { t with cs := .report })

theorem overlong_alike : Alike (overlong s) (overlong u) := by
  cases ho : s.cfg.overlong with
  | lengthOnly =>
    rw [overlong_lengthOnly ho, overlong_lengthOnly (by rw [h.cfg, ho])]
    exact raiseErr_alike h _
  | capacity =>
    rw [overlong_capacity ho, overlong_capacity (by rw [h.cfg, ho])]
    exact h.map fun t => { t with cs := .payload t.cs.context 63 0 true }

end

theorem programBytes_alike (bs : List Byte) : ∀ {s u : State}, Alike s u →
    AlikeOutcomes (programBytes bs s) (programBytes bs u) := by
  induction bs with
  | nil => exact .next
  | cons b bs ih =>
    intro s u h
    refine AlikeOutcomes.ite (by rw [h.load]) (.next h) ?_
    rw [h.load]
    exact (writeByte_alike h _ _).andThen fun k => ih ((runDelay_alike k .interWrite).map countByte)

theorem AlikeOutcomes.concluded {a b : Host.Outcome State Fault Refusal} (h : AlikeOutcomes a b) :
    AlikeOutcomes (concluded a) (concluded b) := h.andThen fun k => .next (conclude_alike k)

section
variable {s u : State} (h : Alike s u)
include h

theorem replyRead_alike : Alike (replyRead s) (replyRead u) :=
  (sendFrame_alike h (p := [s.opd.sampled]) (q := [u.opd.sampled]) rfl).map fun t => { t with cs := .report }

theorem replyWrite_alike : Alike (replyWrite s) (replyWrite u) :=
  (sendFrame_alike h (p := []) (q := []) rfl).map fun t => { t with cs := .report }

/-- A LOAD chunk after its ack: its bytes, and the loop test of load(). -/
theorem programThenContinue_alike (bs : List Byte) :
    AlikeOutcomes (andThen (programBytes bs s) fun t => .next (loadContinue t))
      (andThen (programBytes bs u) fun t => .next (loadContinue t)) :=
  (programBytes_alike bs h).andThen fun k => .next (loadContinue_alike k)

theorem execAck_alike : AlikeOutcomes (execAck s) (execAck u) :=
  .next (Alike.ite (by rw [h.chlen]) (dumpLoop_alike _ (h.map nextChunk)) (h.map fun t => { t with cs := .report }))

theorem exec_alike (i : Instr) : AlikeOutcomes (exec i s) (exec i u) := by
  cases i with
  | read a =>
    exact AlikeOutcomes.ite (by rw [h.cfg]) (.refused _)
      (.next (replyRead_alike (readByte_alike (h.map fun t => { t with opd := t.opd.setA a }) a)))
  | write a v =>
    exact AlikeOutcomes.ite (by rw [h.cfg]) (.refused _)
      ((writeByte_alike (toWrite_alike (h.map fun t => { t with opd := (t.opd.setA a).setV v })) a v).andThen
        fun k => .next (replyWrite_alike (toStandby_alike k)))
  | dump => exact .next (dumpLoop_alike _ (h.map firstChunk))
  | load total =>
    exact AlikeOutcomes.ite (by rw [h.cfg]) (.refused _)
      (.next (loadContinue_alike ((toWrite_alike (sendFrame_alike (h.map (setTotal total)) rfl)).map openLoad)))
  | reset => exact .next (h.map fun t => { t with cs := .report })
  | unknown p => exact .next (raiseErr_alike h _)
  | illegalLen64 n => exact .next (overlong_alike h)
  | illegalLen128 n => exact .next (overlong_alike h)
  | ack => exact execAck_alike h
  | resetSentinel => exact .next (raiseErr_alike h _)
  | ackwaitUnexpected p => exact .next (raiseErr_alike h _)
  | loadChunk data => exact programThenContinue_alike (h.send (p := [0x00]) (q := [0x00]) rfl) data
  | readReply v => exact .next (sendFrame_alike h rfl)
  | ackOut => exact .next (h.send rfl)
  | dumpChunk data => exact .next (sendAndWait_alike h rfl)
  | dumpLast data => exact .next (sendAndWait_alike h rfl)

end

/-! ## Procedures to their next delay -/

section
variable {s u : State} (h : Alike s u)
include h

theorem finish_alike (k : Task) : AlikeOutcomes (finish k s) (finish k u) := by
  cases k with
  | boot => exact .next (h.map fun t => { t with cs := .len .idle })
  | readReply => exact .next (report_alike (replyRead_alike h))
  | writeReply => exact .next (report_alike (replyWrite_alike h))
  | dumpByte =>
    have hr := pushChunk_alike h s.opd.sampled u.opd.sampled
    exact .next (conclude_alike (Alike.ite (by rw [hr.chlen]) (sendChunk_alike hr) (dumpLoop_alike _ (hr.map nextAddress))))
  | loadOpen => exact .next (conclude_alike (loadContinue_alike (h.map openLoad)))
  | loadByte bs => exact (programThenContinue_alike (h.map countByte) bs).concluded
  | close => exact .next (report_alike (h.map fun t => { t with cs := .report }))

end

theorem runToDelay_alike (ps : List Prim) : ∀ {s u : State}, Alike s u →
    Alike (runToDelay ps s).1 (runToDelay ps u).1 ∧ (runToDelay ps u).2 = (runToDelay ps s).2 := by
  induction ps with
  | nil => exact fun h => ⟨h, rfl⟩
  | cons p ps ih =>
    intro s u h
    simp only [runToDelay]
    cases p.asDelay with
    | none => exact ih (p.run_alike h)
    | some t => exact ⟨h, rfl⟩

theorem advance_alike (ps : List Prim) (k : Task) {last : State → Host.Outcome State Fault Refusal}
    (hl : ∀ {s u : State}, Alike s u → AlikeOutcomes (last s) (last u)) {s u : State} (h : Alike s u) :
    AlikeOutcomes (advance ps k last s) (advance ps k last u) := by
  obtain ⟨ha, hr⟩ := runToDelay_alike ps h
  rw [advance, advance]
  rcases hs : runToDelay ps s with ⟨s1, r⟩
  rcases hu : runToDelay ps u with ⟨u1, r'⟩
  rw [hs, hu] at ha hr
  obtain rfl : r' = r := hr
  rcases r' with _ | ⟨t, rest⟩
  · exact hl ha
  · exact .next (ha.map fun t' => { t' with cs := .delay t rest k })

section
variable {s u : State} (h : Alike s u)
include h

theorem suspend_alike {ps qs : List Prim} (e : qs = ps) (k : Task) :
    AlikeOutcomes (suspend ps k s) (suspend qs k u) := by
  rw [e]
  exact advance_alike ps k (fun h => finish_alike h k) h

theorem dumpOn_alike : AlikeOutcomes (dumpOn s) (dumpOn u) :=
  AlikeOutcomes.ite (by rw [h.daddr]) (.next (conclude_alike (dumpTail_alike h)))
    (suspend_alike h (by rw [h.mode, h.daddr]) _)

theorem loadOn_alike : AlikeOutcomes (loadOn s) (loadOn u) :=
  AlikeOutcomes.ite (by rw [h.load]) (.next (h.map fun t => { t with cs := .len .load }))
    (suspend_alike h (by rw [h.mode]) _)

theorem programOn_alike (bs : List Byte) : AlikeOutcomes (programOn bs s) (programOn bs u) := by
  cases bs with
  | nil => exact loadOn_alike h
  | cons b bs =>
    exact AlikeOutcomes.ite (by rw [h.load]) (loadOn_alike h) (AlikeOutcomes.ite (by rw [h.mode]) (.fault _)
      (AlikeOutcomes.ite (by rw [h.cfg, h.load]) (.refused _) (suspend_alike h (by rw [h.load]) _)))

theorem resume_alike (k : Task) : AlikeOutcomes (resume k s) (resume k u) := by
  cases k with
  | boot => exact finish_alike h .boot
  | readReply => exact finish_alike h .readReply
  | writeReply => exact finish_alike h .writeReply
  | dumpByte =>
    have hr := pushChunk_alike h s.opd.sampled u.opd.sampled
    exact AlikeOutcomes.ite (by rw [hr.chlen]) (.next (sendChunk_alike hr)) (dumpOn_alike (hr.map nextAddress))
  | loadOpen => exact loadOn_alike (h.map openLoad)
  | loadByte bs => exact programOn_alike (h.map countByte) bs
  | close => exact finish_alike h .close

theorem suspendRaise_alike (e : Err) : AlikeOutcomes (suspendRaise e s) (suspendRaise e u) :=
  suspend_alike (h.map fun t => { t with err := e }) (by rw [h.mode]) _

theorem startOverlong_alike : AlikeOutcomes (startOverlong s) (startOverlong u) := by
  have hr := suspendRaise_alike h .frameCorrupt
  have hl := overlong_alike h
  rw [startOverlong.eq_def, startOverlong.eq_def, h.cfg]
  cases s.cfg.overlong with
  | lengthOnly => exact hr
  | capacity => exact .next hl

theorem start_alike (i : Instr) : AlikeOutcomes (start i s) (start i u) := by
  cases i with
  | read a =>
    exact AlikeOutcomes.ite (by rw [h.cfg]) (.refused _)
      (suspend_alike (h.map fun t => { t with opd := t.opd.setA a }) (by rw [h.mode]) _)
  | write a v =>
    exact AlikeOutcomes.ite (by rw [h.cfg]) (.refused _)
      (suspend_alike (h.map fun t => { t with opd := (t.opd.setA a).setV v }) (by rw [h.mode]) _)
  | dump => exact dumpOn_alike (h.map firstChunk)
  | load total =>
    exact AlikeOutcomes.ite (by rw [h.cfg]) (.refused _)
      (suspend_alike (sendFrame_alike (h.map (setTotal total)) rfl) (by rw [h.mode]) _)
  | reset => exact (exec_alike h .reset).concluded
  | unknown p => exact suspendRaise_alike h _
  | illegalLen64 n => exact startOverlong_alike h
  | illegalLen128 n => exact startOverlong_alike h
  | ack => exact AlikeOutcomes.ite (by rw [h.chlen]) (dumpOn_alike (h.map nextChunk)) (execAck_alike h).concluded
  | resetSentinel => exact suspendRaise_alike h _
  | ackwaitUnexpected p => exact suspendRaise_alike h _
  | loadChunk data => exact programOn_alike (h.send (p := [0x00]) (q := [0x00]) rfl) data
  | readReply v => exact (exec_alike h (.readReply v)).concluded
  | ackOut => exact (exec_alike h .ackOut).concluded
  | dumpChunk data => exact (exec_alike h (.dumpChunk data)).concluded
  | dumpLast data => exact (exec_alike h (.dumpLast data)).concluded

/-! ## Moves -/

theorem perform_alike (p : Pace) (i : Instr) : AlikeOutcomes (perform p i s) (perform p i u) := by
  cases p with
  | toByte => exact (exec_alike h i).concluded
  | toWait => exact start_alike h i

theorem raiseOn_alike (p : Pace) (e : Err) : AlikeOutcomes (raiseOn p e s) (raiseOn p e u) := by
  cases p with
  | toByte => exact (AlikeOutcomes.next (raiseErr_alike h e)).concluded
  | toWait => exact suspendRaise_alike h e

theorem proceed_alike (p : Pace) (t : DelayName) (rest : List Prim) (k : Task) :
    AlikeOutcomes (proceed p t rest k s) (proceed p t rest k u) := by
  cases p with
  | toByte => exact finish_alike (runPrims_alike rest (runDelay_alike h t)) k
  | toWait => exact advance_alike rest k (fun h => resume_alike h k) (runDelay_alike h t)

theorem takeLength_alike (p : Pace) (c : RxContext) (n : Byte) :
    AlikeOutcomes (takeLength p c n s) (takeLength p c n u) := by
  by_cases h64 : n.toNat < 64
  · by_cases h0 : n = 0
    · subst h0
      rw [takeLength_zero, takeLength_zero]
      exact perform_alike (h.map fun t => { t with rx := { buf := t.rx.buf, len := 0 }, cs := .exec c }) p _
    · rw [takeLength_legal p c h64 h0, takeLength_legal p c h64 h0]
      exact .next (h.map fun t => { t with cs := .payload c ⟨n.toNat, h64⟩ 0 false })
  · rw [takeLength_illegal p c (by omega), takeLength_illegal p c (by omega)]
    exact perform_alike h p _

theorem takePayload_alike (p : Pace) (c : RxContext) (n : Fin 64) (k : Nat) (d : Bool) (b : Byte) :
    AlikeOutcomes (takePayload p c n k d b s) (takePayload p c n k d b u) := by
  have hf := h.map (frameDone c n k b)
  have hx : (frameDone c n k b u).rxPayload = (frameDone c n k b s).rxPayload := by
    rw [State.rxPayload, State.rxPayload, hf.rx]
  rw [takePayload, takePayload, hx]
  exact AlikeOutcomes.ite Iff.rfl
    (AlikeOutcomes.ite Iff.rfl (raiseOn_alike h p _) (.next (h.map fun t => { t with cs := .payload c n (k + 1) true })))
    (AlikeOutcomes.ite Iff.rfl (perform_alike hf p _)
      (.next (h.map fun t => { putRxbuf k b t with cs := .payload c n (k + 1) false })))

theorem bootSequence_alike : Alike (bootSequence s) (bootSequence u) := by
  rw [bootSequence_eq, bootSequence_eq]
  exact h.map fun t => { t with
    mode := .standby, err := .ok, led := false, cs := .delay .modeSettle [] .boot
    pins := { ddir := .input, dout := t.pins.dout, ce := .deasserted, oe := .deasserted, we := .deasserted }
    sr := { ser := t.sr.ser, srclk := false, rclk := false, shift := t.sr.shift, out := t.sr.out
            oe := t.sr.oe.map (fun _ => .asserted), clr := t.sr.clr.map (fun _ => .deasserted) } }

theorem blockMove_alike (p : Pace) : AlikeOutcomes (blockMove p s) (blockMove p u) := by
  have hcs := h.cs
  have hq := h.rxq
  cases hc : s.cs with
  | boot =>
    rw [hc] at hcs
    cases p with
    | toByte =>
      rw [blockMove_boot_toByte hc, blockMove_boot_toByte hcs]
      exact proceed_alike (bootSequence_alike h) _ _ _ _
    | toWait =>
      rw [blockMove_boot_toWait hc, blockMove_boot_toWait hcs]
      exact .next (bootSequence_alike h)
  | delay t rest k =>
    rw [blockMove_delay p hc, blockMove_delay p (hcs.trans hc)]
    exact proceed_alike h _ _ _ _
  | len c =>
    cases hr : s.rxq with
    | nil =>
      rw [blockMove_empty (n := 0) (k := 0) (d := false) p (.inl hc) hr,
        blockMove_empty (n := 0) (k := 0) (d := false) p (.inl (hcs.trans hc)) (hq.trans hr)]
      exact .next h
    | cons n q =>
      rw [blockMove_len p hc hr, blockMove_len p (hcs.trans hc) (hq.trans hr)]
      exact takeLength_alike (h.map fun t => { t with rxq := q }) _ _ _
  | payload c n k d =>
    cases hr : s.rxq with
    | nil =>
      rw [blockMove_empty p (.inr hc) hr, blockMove_empty p (.inr (hcs.trans hc)) (hq.trans hr)]
      exact .next h
    | cons b q =>
      rw [blockMove_payload p hc hr, blockMove_payload p (hcs.trans hc) (hq.trans hr)]
      exact takePayload_alike (h.map fun t => { t with rxq := q }) _ _ _ _ _ _
  | exec c =>
    rw [blockMove_exec p hc, blockMove_exec p (hcs.trans hc), State.rxPayload, State.rxPayload, h.rx]
    exact perform_alike h _ _
  | report =>
    rw [blockMove_report p hc, blockMove_report p (hcs.trans hc)]
    exact .next (report_alike h)

theorem waiting_alike : u.waiting = s.waiting := by
  rw [State.waiting, State.waiting, h.rxq, h.cs]

theorem timeout_alike (p : Pace) : AlikeOutcomes (timeout p s) (timeout p u) := by
  refine AlikeOutcomes.ite (by rw [waiting_alike h]) ?_ (.next h)
  rw [h.cs, h.cfg]
  cases s.cs with
  | len c =>
    cases s.cfg.lenWait with
    | none => exact .next h
    | bounded => exact raiseOn_alike h p _
  | payload c n k d => exact raiseOn_alike h p _
  | boot | exec c | delay t rest k | report => exact .next h

/-- After reset what may differ is MEM alone. -/
theorem powerCycle_alike : Alike (powerCycle s) (powerCycle u) := by
  obtain ⟨m, v, c, x, hx, rfl⟩ := h
  simp only [powerCycle, State.withCells]
  split
  · exact ⟨m, _, _, _, rfl, rfl⟩
  · exact ⟨_, _, _, _, rfl, rfl⟩

theorem runMove_alike (m : Move) : AlikeOutcomes (runMove m s) (runMove m u) := by
  cases m with
  | block p => exact blockMove_alike h p
  | hostSend bytes => exact .next (h.map fun t => { t with rxq := t.rxq ++ bytes })
  | deviceCommit => exact .next (commit_alike h)
  | rxTimeout p => exact timeout_alike h p
  | powerCycle => exact .next (powerCycle_alike h)

theorem restMove_alike : AlikeOutcomes (restMove s) (restMove u) :=
  AlikeOutcomes.ite (by rw [waiting_alike h, h.pend]) (.next (commit_alike h)) (blockMove_alike h .toByte)

theorem step_alike : AlikeOutcomes (step s) (step u) := by
  cases hs : s.sched with
  | nil =>
    rw [step_nil hs, step_nil (h.sched.trans hs)]
    exact restMove_alike h
  | cons m ms =>
    rw [step_cons hs, step_cons (h.sched.trans hs)]
    exact runMove_alike (h.map fun t => { t with sched := ms }) m

end

/-- Settles O48: the step keeps `Alike`, which fixes all that the statement lists. -/
theorem memoryContentsDoNotSteerTheBlock : Obligations.MemoryContentsDoNotSteerTheBlock := by
  intro s t m e
  have hm : Alike s { s with mem := m } := ⟨m, s.opd.sampled, s.dump.chunk, s.txs, rfl, rfl⟩
  have h := step_alike hm
  rw [e] at h
  obtain ⟨u, hu, m', v, c, x, hx, rfl⟩ := h.of_next
  exact ⟨_, hu, rfl, rfl, rfl, rfl, rfl, rfl, rfl, rfl, rfl, rfl, rfl, hx, rfl, rfl, rfl⟩

end Sys2Proof.Machine
end
